-- ==== Sys2Proof/Word.lean ====
section
/-! DEFINITION. The word types of the engine: the command word, a block of bit storage, a symbol, an immediate. -/

namespace Sys2Proof

/-- A command word: one 64-bit word (30_encoding.md R70). Also the `data` of a response (R74). -/
abbrev Word := BitVec 64

/-- One block of BitVector storage, `BLKW` = 8 bits (00_scope.md R6, 40_bitvector_code.md R90). -/
abbrev Block := BitVec 8

/-- A symbol value, `SYMW` = 8 bits (00_scope.md R6). -/
abbrev Symbol := BitVec 8

/-- A weight or frequency count, `WW` = 32 bits, unsigned (00_scope.md R6, 42_treebuilder.md R130). -/
abbrev Weight := BitVec 32

/-- The immediate operand of a command, 32 bits, unsigned (30_encoding.md R71, R73). -/
abbrev Imm := BitVec 32

/-- A node index as the node memory stores it, `NIDXW` = 9 bits (00_scope.md R6). -/
abbrev NodeIdx := BitVec 9

end Sys2Proof
end

