-- ==== Sys2Proof/Config.lean ====
section
/-! DEFINITION. The implementation parameters, at the values the spec fixes for the engine (00_scope.md R6). -/

namespace Sys2Proof.Config

/-- `SYMW`: width of a symbol in bits (00_scope.md R6; open parameter, log 5). -/
abbrev symw : Nat := 8

/-- `NSYM` = 2^`SYMW`: number of symbol values (00_scope.md R6). -/
abbrev nsym : Nat := 256

/-- `WW`: width of a weight in bits (00_scope.md R6; open parameter, log 5). -/
abbrev ww : Nat := 32

/-- `WMAX` = 2^`WW` - 1: the largest weight (00_scope.md R6). -/
abbrev wmax : Nat := 4294967295

/-- `NNODEMAX` = 2 * `NSYM` - 1: capacity of the node memory (00_scope.md R6). -/
abbrev nnodemax : Nat := 511

/-- The most merge steps one BUILD makes, `NSYM` - 1 (45_control.md R171). -/
abbrev mergeMax : Nat := 255

/-- `BLKW`: width of one BitVector block in bits (00_scope.md R6). -/
abbrev blkw : Nat := 8

/-- `CODEMAX` = `NSYM`: bit capacity of a code-table entry and of a traversal-queue entry (00_scope.md R6). -/
abbrev codemax : Nat := 256

/-- Blocks of one code-table entry, `CODEMAX` / `BLKW` (10_state.md R38). -/
abbrev codeBlocks : Nat := 32

/-- `CAP0`: initial capacity of the output BitVector in bits (00_scope.md R6; open parameter, log 5). -/
abbrev cap0 : Nat := 64

/-- `OUTMAX`: physical capacity of the output BitVector in bits (00_scope.md R6; open parameter, log 5). -/
abbrev outmax : Nat := 65536

/-- Blocks of the output bit memory, `OUTMAX` / `BLKW` (10_state.md R40). -/
abbrev outBlocks : Nat := 8192

/-- `NREG`: number of status registers (00_scope.md R6). -/
abbrev nreg : Nat := 9

/-- The constant of status register 0, `CFG`: fields `SYMW`, `WW`, `BLKW` and log2 of `OUTMAX`, low byte first
(10_state.md R26). -/
def cfgWord : BitVec 32 := 16#8 ++ (BitVec.ofNat 8 blkw ++ (BitVec.ofNat 8 ww ++ BitVec.ofNat 8 symw))

end Sys2Proof.Config
end

