-- ==== Sys2Proof/Syntax.lean ====
section
/-! DEFINITION. The sixteen commands of the engine (30_encoding.md R75), one constructor per row of
spec/opcode_table.json, each with the operands its format carries. -/

namespace Sys2Proof

/-- A command with its operands. `sym` operands are symbol values; `imm` operands are a count, a rank, a block index, a
node index or a register number (30_encoding.md R73). -/
inductive Instr where
  /-- NOP (45_control.md R165) -/
  | nop
  /-- CLRALL (45_control.md R166) -/
  | clrall
  /-- CLROUT (40_bitvector_code.md R101) -/
  | clrout
  /-- CLRERR (45_control.md R167) -/
  | clrerr
  /-- FEED `sym` (41_frequency.md R110) -/
  | feed (sym : Symbol)
  /-- SETF `sym`, `imm` = count (41_frequency.md R111) -/
  | setf (sym : Symbol) (count : Imm)
  /-- BUILD (42_treebuilder.md R125) -/
  | build
  /-- GEN (43_codegen.md R142) -/
  | gen
  /-- ENC `sym` (44_encoder.md R155) -/
  | enc (sym : Symbol)
  /-- RDSTAT `imm` = register number (45_control.md R168) -/
  | rdstat (number : Imm)
  /-- RDFREQ `sym` (41_frequency.md R112) -/
  | rdfreq (sym : Symbol)
  /-- RDNODE `imm` = node index (42_treebuilder.md R129) -/
  | rdnode (index : Imm)
  /-- RDLEN `sym` (43_codegen.md R146) -/
  | rdlen (sym : Symbol)
  /-- RDCODE `sym`, `imm` = block index (43_codegen.md R147) -/
  | rdcode (sym : Symbol) (block : Imm)
  /-- TEST `imm` = rank (40_bitvector_code.md R102) -/
  | test (rank : Imm)
  /-- RDOUT `imm` = block index (40_bitvector_code.md R103) -/
  | rdout (block : Imm)
  deriving DecidableEq, Repr

end Sys2Proof
end

