-- ==== Sys2Proof/WellFormed.lean ====
section
/-! DEFINITION. Which commands are well formed: those that some command word encodes. -/

namespace Sys2Proof

/-- A register number RDSTAT may name: 0 to `NREG` - 1 (30_encoding.md R83). -/
def registerNumberOk (number : Imm) : Bool := decide (number.toNat < Config.nreg)

/-- Well-formedness of a command. Every symbol and every other immediate is legal (30_encoding.md R73, 20_memory.md R54);
the one restriction is RDSTAT's register number (30_encoding.md R83). -/
def Instr.wellFormed : Instr → Bool
  | .nop => true
  | .clrall => true
  | .clrout => true
  | .clrerr => true
  | .feed _ => true
  | .setf _ _ => true
  | .build => true
  | .gen => true
  | .enc _ => true
  | .rdstat number => registerNumberOk number
  | .rdfreq _ => true
  | .rdnode _ => true
  | .rdlen _ => true
  | .rdcode _ _ => true
  | .test _ => true
  | .rdout _ => true

end Sys2Proof
end

