-- ==== Sys2Proof/Decode.lean ====
section
/-! DEFINITION. The command word: its fields, the opcode map, the decoder and the encoder (30_encoding.md R70 to R78, R83). -/

namespace Sys2Proof

/-- The sixteen opcodes by name (30_encoding.md R75). -/
inductive Opcode where
  | nop | clrall | clrout | clrerr | feed | setf | build | gen
  | enc | rdstat | rdfreq | rdnode | rdlen | rdcode | test | rdout
  deriving DecidableEq, Repr

/-- The four formats: which of `sym` and `imm` carry an operand (30_encoding.md R72). -/
inductive Format where
  | N | S | SI | I
  deriving DecidableEq, Repr

/-- Why a word is an illegal encoding, one name per line of the decode function (30_encoding.md R76, R77). -/
inductive Illegal where
  /-- `op` is none of the sixteen values of R75 -/
  | unassignedOpcode
  /-- `rsv` is not zero -/
  | reservedNotZero
  /-- a word of format N or I with `sym` not zero -/
  | symbolNotZero
  /-- a word of format N or S with `imm` not zero -/
  | immediateNotZero
  /-- RDSTAT with `imm` above 8 (R83) -/
  | registerNumber
  deriving DecidableEq, Repr

/-- `op`, bits 63:56 (30_encoding.md R71). -/
def opField (w : Word) : BitVec 8 := w.extractLsb' 56 8

/-- `sym`, bits 55:48 (30_encoding.md R71). -/
def symField (w : Word) : Symbol := w.extractLsb' 48 8

/-- `rsv`, bits 47:32 (30_encoding.md R71). -/
def rsvField (w : Word) : BitVec 16 := w.extractLsb' 32 16

/-- `imm`, bits 31:0 (30_encoding.md R71). -/
def immField (w : Word) : Imm := w.extractLsb' 0 32

/-- The opcode number of each command (30_encoding.md R75, column `op`). -/
def Opcode.code : Opcode → BitVec 8
  | .nop => 0x00#8
  | .clrall => 0x01#8
  | .clrout => 0x02#8
  | .clrerr => 0x03#8
  | .feed => 0x10#8
  | .setf => 0x11#8
  | .build => 0x20#8
  | .gen => 0x21#8
  | .enc => 0x30#8
  | .rdstat => 0x40#8
  | .rdfreq => 0x41#8
  | .rdnode => 0x42#8
  | .rdlen => 0x43#8
  | .rdcode => 0x44#8
  | .test => 0x45#8
  | .rdout => 0x46#8

/-- The format of each command (30_encoding.md R75, column "format"). -/
def Opcode.format : Opcode → Format
  | .nop | .clrall | .clrout | .clrerr | .build | .gen => .N
  | .feed | .enc | .rdfreq | .rdlen => .S
  | .setf | .rdcode => .SI
  | .rdstat | .rdnode | .test | .rdout => .I

/-- All opcodes, in the order of the opcode map (30_encoding.md R75). -/
def Opcode.all : List Opcode :=
  [.nop, .clrall, .clrout, .clrerr, .feed, .setf, .build, .gen,
   .enc, .rdstat, .rdfreq, .rdnode, .rdlen, .rdcode, .test, .rdout]

/-- The opcode a value of `op` selects, if any (30_encoding.md R75, R77). -/
def Opcode.ofByte (b : BitVec 8) : Option Opcode := Opcode.all.find? (fun o => o.code == b)

/-- Does the format carry a symbol operand (30_encoding.md R72)? -/
def Format.hasSym : Format → Bool
  | .N => false | .S => true | .SI => true | .I => false

/-- Does the format carry an immediate operand (30_encoding.md R72)? -/
def Format.hasImm : Format → Bool
  | .N => false | .S => false | .SI => true | .I => true

/-- The command an opcode and its operand fields make (30_encoding.md R75). -/
def Opcode.toInstr (o : Opcode) (sym : Symbol) (imm : Imm) : Instr :=
  match o with
  | .nop => .nop
  | .clrall => .clrall
  | .clrout => .clrout
  | .clrerr => .clrerr
  | .feed => .feed sym
  | .setf => .setf sym imm
  | .build => .build
  | .gen => .gen
  | .enc => .enc sym
  | .rdstat => .rdstat imm
  | .rdfreq => .rdfreq sym
  | .rdnode => .rdnode imm
  | .rdlen => .rdlen sym
  | .rdcode => .rdcode sym imm
  | .test => .test imm
  | .rdout => .rdout imm

/-- Decoding: a total function of the 64 bits that reads no state, its tests in the order of 30_encoding.md R76. -/
def decode (w : Word) : Except Illegal Instr :=
  match Opcode.ofByte (opField w) with
  | none => .error .unassignedOpcode
  | some o =>
    if rsvField w ≠ 0 then .error .reservedNotZero
    else if o.format.hasSym = false ∧ symField w ≠ 0 then .error .symbolNotZero
    else if o.format.hasImm = false ∧ immField w ≠ 0 then .error .immediateNotZero
    else if o = .rdstat ∧ registerNumberOk (immField w) = false then .error .registerNumber
    else .ok (o.toInstr (symField w) (immField w))

/-- The opcode of a command (30_encoding.md R75). -/
def Instr.opcode : Instr → Opcode
  | .nop => .nop
  | .clrall => .clrall
  | .clrout => .clrout
  | .clrerr => .clrerr
  | .feed _ => .feed
  | .setf _ _ => .setf
  | .build => .build
  | .gen => .gen
  | .enc _ => .enc
  | .rdstat _ => .rdstat
  | .rdfreq _ => .rdfreq
  | .rdnode _ => .rdnode
  | .rdlen _ => .rdlen
  | .rdcode _ _ => .rdcode
  | .test _ => .test
  | .rdout _ => .rdout

/-- The `sym` field of a command's word: its symbol operand, zero in formats N and I (30_encoding.md R72). -/
def Instr.symOperand : Instr → Symbol
  | .feed sym | .setf sym _ | .enc sym | .rdfreq sym | .rdlen sym | .rdcode sym _ => sym
  | .nop | .clrall | .clrout | .clrerr | .build | .gen | .rdstat _ | .rdnode _ | .test _ | .rdout _ => 0

/-- The `imm` field of a command's word: its immediate operand, zero in formats N and S (30_encoding.md R72). -/
def Instr.immOperand : Instr → Imm
  | .setf _ imm | .rdstat imm | .rdnode imm | .rdcode _ imm | .test imm | .rdout imm => imm
  | .nop | .clrall | .clrout | .clrerr | .build | .gen | .feed _ | .enc _ | .rdfreq _ | .rdlen _ => 0

/-- A word from its four fields: `op`*2^56 + `sym`*2^48 + `rsv`*2^32 + `imm` (30_encoding.md R71). -/
def packWord (op : BitVec 8) (sym : Symbol) (rsv : BitVec 16) (imm : Imm) : Word :=
  op ++ (sym ++ (rsv ++ imm))

/-- Encoding: the one word of a well-formed command, must-be-zero fields zero (30_encoding.md R71, R72). -/
def encode (i : Instr) : Word := packWord i.opcode.code i.symOperand 0 i.immOperand

/-- The `match` column of the opcode map: `op` * 2^56 (30_encoding.md R72, R75). -/
def Opcode.matchWord (o : Opcode) : Word := packWord o.code 0 0 0

/-- The `mask` column of the format table: the bits that must equal the match value (30_encoding.md R72). -/
def Format.mask : Format → Word
  | .N => 0xFFFFFFFFFFFFFFFF#64
  | .S => 0xFF00FFFFFFFFFFFF#64
  | .SI => 0xFF00FFFF00000000#64
  | .I => 0xFFFFFFFF00000000#64

/-- A command word laid out from a numbered word of spec/opcode_table.json: bit 0 is the least significant bit of the one
64-bit word, and bits at or above `nbits` are 0. -/
def wordOfTable (nbits w : Nat) : Word := BitVec.ofNat 64 (w % 2 ^ nbits)

/-- What the decoder reads from a word numbered as spec/opcode_table.json numbers it; none for an illegal encoding. -/
def decodeTableWord (nbits w : Nat) : Option Instr :=
  match decode (wordOfTable nbits w) with
  | .ok i => some i
  | .error _ => none

end Sys2Proof
end

