-- ==== Sys2Proof/Machine/State.lean ====
section
/-! DEFINITION. The whole state of the engine as plain data (10_state.md R44), the reasons a step can stop, and the state
after reset (70_reset_and_hazards.md R231). -/

namespace Sys2Proof.Machine

/-- `PHASE` (10_state.md R22): the three values that occur; value 3 never does (log 10). -/
inductive Phase where
  /-- 0: the FrequencyTable is being built -/
  | collect
  /-- 1: the tree exists, the CodeTable does not -/
  | built
  /-- 2: the CodeTable exists, encoding is allowed -/
  | ready
  deriving DecidableEq, Repr

/-- The condition codes (60_exceptions.md R200), the values of `err` and of `LASTERR`; codes 8 to 15 are never produced
(log 10). -/
inductive Condition where
  /-- code 0 -/
  | ok
  /-- code 1, an error -/
  | illegalCommand
  /-- code 2, an error -/
  | phaseError
  /-- code 3, an error -/
  | weightOverflow
  /-- code 4, an error -/
  | outputOverflow
  /-- code 5, a warning -/
  | unknownSymbol
  /-- code 6, a warning -/
  | emptyCorpus
  /-- code 7, a warning -/
  | degenerateAlphabet
  deriving DecidableEq, Repr

/-- The response to one command: `err` and 64 bits of `data` (30_encoding.md R74). -/
structure Response where
  err : Condition
  data : Word
  deriving DecidableEq, Repr

/-- What the host may do between two transitions of the engine: issue a command word, or assert reset
(45_control.md R172). -/
inductive HostInput where
  | command (w : Word)
  | reset
  deriving DecidableEq, Repr

/-- A memory with natural-number indices, as the list of its entries that differ from what an unlisted index reads as, by
rising index (canonical form: `Table.wf`). -/
abbrev Table (α : Type) := List (Nat × α)

/-- A bit store's blocks: (block index, 8-bit block); an unlisted block reads 0x00. -/
abbrev Memory := List Host.Cell

/-- A record of the node memory, the source's tagged variant (10_state.md R36). The fields R36 marks "not used; stored and
read as 0" are not stored; the accessors of Machine/Operands.lean read them as 0. -/
inductive TreeNode where
  /-- tag 0 -/
  | leaf (sym : Symbol) (weight : Weight)
  /-- tag 1 -/
  | internal (weight : Weight) (left right : NodeIdx)
  deriving DecidableEq, Repr

/-- A record of the code table (10_state.md R38): `valid`, `len` (9 bits), `blk` (32 blocks). -/
structure CodeEntry where
  valid : Bool
  len : BitVec 9
  blk : Memory
  deriving DecidableEq, Repr

/-- A BitVector: block storage and a capacity in bits tracked apart from it (40_bitvector_code.md R90). -/
structure BitVector where
  blk : Memory
  cap : Nat
  deriving DecidableEq, Repr

/-- A Code: a BitVector and an explicit bit length (40_bitvector_code.md R97). -/
structure Code where
  bv : BitVector
  len : Nat
  deriving DecidableEq, Repr

/-- The state of the engine (10_state.md R44) with its two ports. -/
structure State where
  /-- `PHASE` (R22) -/
  phase : Phase
  /-- `ROOTV` (R23): the tree has a root -/
  rootv : Bool
  /-- `EMPTY` (R23): the last BUILD found no symbol -/
  empty : Bool
  /-- `DEGEN` (R23): the last BUILD found exactly one symbol -/
  degen : Bool
  /-- `ILL` (R24), sticky -/
  ill : Bool
  /-- `PHERR` (R24), sticky -/
  pherr : Bool
  /-- `WOVF` (R24), sticky -/
  wovf : Bool
  /-- `OOVF` (R24), sticky -/
  oovf : Bool
  /-- `UNK` (R24), sticky -/
  unk : Bool
  /-- `ROOTIDX` (R28) -/
  rootidx : NodeIdx
  /-- `NNODES` (R29) -/
  nnodes : BitVec 10
  /-- `NSYMS` (R30) -/
  nsyms : BitVec 9
  /-- `UNKCNT` (R33) -/
  unkcnt : BitVec 32
  /-- `LASTERR` (R34) -/
  lasterr : Condition
  /-- `FREQ` (R35), by symbol value; an unlisted count is 0 -/
  freq : Table Weight
  /-- `NODE` (R36), by node index -/
  node : Table TreeNode
  /-- `CT` (R38), by symbol value -/
  ct : Table CodeEntry
  /-- `OUT.len` (R40) -/
  outLen : BitVec 17
  /-- `OUT.cap` (R40) -/
  outCap : BitVec 17
  /-- `OUT.blk` (R40), by block index -/
  outBlk : Memory
  /-- `PQ` (R41), transient: node indices, no repeats, in no meaningful order (log 8) -/
  pq : List Nat
  /-- `BFSQ` (R42), transient: front first (log 8) -/
  bfsq : List (Nat × Code)
  /-- The response port: the response to the most recent command since reset (30_encoding.md R74; the model's own field,
  log 1) -/
  resp : Option Response
  /-- What the host does next, oldest first (20_memory.md R59; the model's own field, log 1) -/
  host : List HostInput
  deriving DecidableEq, Repr

/-- Why a step can stop with a fault: never. Every condition of the engine is reported in a response and the machine goes
on (60_exceptions.md R200, R205, R206; 45_control.md R171), so this type has no constructor and nothing raises it. -/
inductive Fault where
  deriving DecidableEq, Repr

/-- Why a step can refuse. -/
inductive Refusal where
  /-- Raised by exec's arm of an instruction that has no meaning yet; safe. No arm raises it: every command has its meaning. -/
  | notModelled (mnemonic : String)
  deriving DecidableEq, Repr

/-- The outcome of a command or a step. -/
abbrev Result := Host.Outcome State Fault Refusal

/-- The state after the reset event: every value from 10_state.md R44 and 70_reset_and_hazards.md R231. The four memories
list nothing: `FREQ` and `OUT.blk` read zero as R231 says, `CT` reads not valid, and the contents R232 leaves unspecified
(`NODE`, and `len` and `blk` of `CT`) read zero, DESIGN CHOICE (log 3, log 4). The ports are empty (log 1). -/
def State.reset : State where
  phase := .collect
  rootv := false
  empty := false
  degen := false
  ill := false
  pherr := false
  wovf := false
  oovf := false
  unk := false
  rootidx := 0#9
  nnodes := 0#10
  nsyms := 0#9
  unkcnt := 0#32
  lasterr := .ok
  freq := []
  node := []
  ct := []
  outLen := 0#17
  outCap := 64#17
  outBlk := []
  pq := []
  bfsq := []
  resp := none
  host := []

end Sys2Proof.Machine
end

