-- ==== Sys2Proof/Machine/Flags.lean ====
section
/-! DEFINITION. Condition codes, the sticky flags they set, and the STATUS word (10_state.md R22 to R27, 60_exceptions.md
R200, R207). -/

namespace Sys2Proof.Machine

/-- The 2-bit value of `PHASE` (10_state.md R22). -/
def Phase.code : Phase → BitVec 2
  | .collect => 0#2
  | .built => 1#2
  | .ready => 2#2

/-- The 4-bit code of a condition (60_exceptions.md R200). -/
def Condition.code : Condition → BitVec 4
  | .ok => 0#4
  | .illegalCommand => 1#4
  | .phaseError => 2#4
  | .weightOverflow => 3#4
  | .outputOverflow => 4#4
  | .unknownSymbol => 5#4
  | .emptyCorpus => 6#4
  | .degenerateAlphabet => 7#4

/-- Is the condition an error, code 1 to 4 (60_exceptions.md R200)? -/
def Condition.isError : Condition → Bool
  | .illegalCommand | .phaseError | .weightOverflow | .outputOverflow => true
  | .ok | .unknownSymbol | .emptyCorpus | .degenerateAlphabet => false

/-- `UNKCNT` + 1, staying at 2^32 - 1 (10_state.md R33, 60_exceptions.md R207). -/
def saturatingInc (n : BitVec 32) : BitVec 32 := BitVec.ofNat 32 (min (n.toNat + 1) 4294967295)

/-- The flag effect of a condition: codes 1 to 5 set their sticky flag, and code 5 counts (60_exceptions.md R200, R207).
Codes 6 and 7 have no sticky flag: BUILD itself writes `EMPTY` and `DEGEN` (R208, R209). -/
def State.markCondition (c : Condition) (s : State) : State :=
  match c with
  | .ok => s
  | .illegalCommand => { s with ill := true }
  | .phaseError => { s with pherr := true }
  | .weightOverflow => { s with wovf := true }
  | .outputOverflow => { s with oovf := true }
  | .unknownSymbol => { s with unk := true, unkcnt := saturatingInc s.unkcnt }
  | .emptyCorpus => s
  | .degenerateAlphabet => s

/-- `STATUS`, status register 1 (10_state.md R27): bits 1:0 `PHASE`, 2 `ROOTV`, 3 `EMPTY`, 4 `DEGEN`, 8 `ILL`, 9 `PHERR`,
10 `WOVF`, 11 `OOVF`, 12 `UNK`, every other bit 0. -/
def State.statusWord (s : State) : BitVec 32 :=
  0#19 ++ (BitVec.ofBool s.unk ++ (BitVec.ofBool s.oovf ++ (BitVec.ofBool s.wovf ++ (BitVec.ofBool s.pherr ++
    (BitVec.ofBool s.ill ++ (0#3 ++ (BitVec.ofBool s.degen ++ (BitVec.ofBool s.empty ++ (BitVec.ofBool s.rootv ++
      s.phase.code)))))))))

end Sys2Proof.Machine
end

