-- ==== Sys2Proof/Machine/Ops.lean ====
section
/-! DEFINITION. The shared operations: memories, BitVectors, Codes, responding, and delivering a condition (the engine's
taking of an exception). -/

namespace Sys2Proof.Machine

/-! ## Memories -/

/-- Read one index; an unlisted index reads `d`. -/
def Table.read {α : Type} (d : α) : Table α → Nat → α
  | [], _ => d
  | c :: m, a => if c.1 = a then c.2 else Table.read d m a

/-- Put an entry before the first entry of a larger index. -/
def Table.insert {α : Type} (a : Nat) (v : α) : Table α → Table α
  | [] => [(a, v)]
  | c :: m => if a < c.1 then (a, v) :: c :: m else c :: Table.insert a v m

/-- Write one index, keeping the canonical form: an entry equal to what an unlisted index reads as is not listed. -/
def Table.write {α : Type} [DecidableEq α] (d : α) (m : Table α) (a : Nat) (v : α) : Table α :=
  let rest := m.filter (fun c => c.1 != a)
  if v = d then rest else Table.insert a v rest

/-- Apply `f` to the entries at the given indices, in order. -/
def Table.updateAt {α : Type} [DecidableEq α] (d : α) (f : α → α) (m : Table α) (indices : List Nat) : Table α :=
  indices.foldl (fun t a => Table.write d t a (f (Table.read d t a))) m

/-- The canonical form: indices strictly rising, no entry equal to what an unlisted index reads as. -/
abbrev Table.canonical {α : Type} [DecidableEq α] (d : α) (m : Table α) : Prop :=
  m.Pairwise (fun x y => x.1 < y.1) ∧ ∀ c ∈ m, c.2 ≠ d

/-- Every listed index is below `bound`. -/
abbrev Table.within {α : Type} (bound : Nat) (m : Table α) : Prop := ∀ c ∈ m, c.1 < bound

/-- A well-formed memory of `bound` indices: in canonical form, every index below `bound`. -/
abbrev Table.wf {α : Type} [DecidableEq α] (d : α) (bound : Nat) (m : Table α) : Prop :=
  Table.canonical d m ∧ Table.within bound m

/-- What an unlisted block reads as: 0x00 (10_state.md R40 for `OUT`; log 4 for `CT`). -/
def blockDefault : Block := 0x00#8

/-- What an unlisted count reads as: 0, the symbol is absent (10_state.md R35). -/
def weightDefault : Weight := 0#32

/-- What an unlisted node record reads as: all bits 0, a leaf of symbol 0 and weight 0 (unspecified by 10_state.md R44;
DESIGN CHOICE, log 3). -/
def nodeDefault : TreeNode := .leaf 0#8 0#32

/-- What an unlisted code-table record reads as: not valid (10_state.md R38), `len` and `blk` zero (unspecified by R44;
DESIGN CHOICE, log 4). -/
def entryDefault : CodeEntry := { valid := false, len := 0#9, blk := [] }

/-- `MemRead(M, b)`: one block (00_scope.md R10). -/
def Memory.read (m : Memory) (b : Nat) : Block := Table.read blockDefault m b

/-- `MemWrite(M, b, v)`: one block (00_scope.md R10). -/
def Memory.write (m : Memory) (b : Nat) (v : Block) : Memory := Table.write blockDefault m b v

/-- A well-formed block memory of `blocks` blocks. -/
abbrev Memory.wf (blocks : Nat) (m : Memory) : Prop := Table.wf blockDefault blocks m

/-- `FREQ[s]` (10_state.md R35). -/
def State.freqAt (s : State) (sym : Symbol) : Weight := Table.read weightDefault s.freq sym.toNat

/-- `FREQ[sym] <- v` (10_state.md R35). -/
def State.setFreq (s : State) (sym : Symbol) (v : Weight) : State :=
  { s with freq := Table.write weightDefault s.freq sym.toNat v }

/-- Read a record of a node memory (10_state.md R36). -/
def nodeRead (m : Table TreeNode) (i : Nat) : TreeNode := Table.read nodeDefault m i

/-- Write a record of a node memory (10_state.md R36). -/
def nodeWrite (m : Table TreeNode) (i : Nat) (v : TreeNode) : Table TreeNode := Table.write nodeDefault m i v

/-- `NODE[i]` (10_state.md R36). -/
def State.nodeAt (s : State) (i : Nat) : TreeNode := nodeRead s.node i

/-- `CT[s]` (10_state.md R38). -/
def State.ctAt (s : State) (sym : Symbol) : CodeEntry := Table.read entryDefault s.ct sym.toNat

/-- Every entry of the code table made not valid (43_codegen.md R142, 45_control.md R166); `len` and `blk` stay. -/
def invalidateCt (ct : Table CodeEntry) : Table CodeEntry :=
  Table.updateAt entryDefault (fun e => { e with valid := false }) ct (List.range Config.nsym)

/-! ## BitVectors (40_bitvector_code.md section 1) -/

/-- `blkidx(r)` = r >> 3 (40_bitvector_code.md R91). -/
def blkidx (r : Nat) : Nat := r >>> 3

/-- `mask(r)` = 0x80 >> (r & 7) (40_bitvector_code.md R91). -/
def rankMask (r : Nat) : Block := 0x80#8 >>> (r % 8)

/-- The bit of a block memory at a rank, whatever the capacity (40_bitvector_code.md R91). -/
def Memory.bit (m : Memory) (r : Nat) : Bool := (Memory.read m (blkidx r) &&& rankMask r) != 0#8

/-- The doubling loop of `bv_grow` (40_bitvector_code.md R92): double while the capacity does not cover the rank. The
first argument bounds the number of doublings (log 6). -/
def growCap : Nat → Nat → Nat → Nat
  | 0, cap, _ => cap
  | fuel + 1, cap, r => if cap ≤ r then growCap fuel (2 * cap) r else cap

/-- `bv_grow(B, r)` (40_bitvector_code.md R92): only the capacity moves; the blocks it brings in already hold zero (R104).
`r` + 1 doublings cover rank `r` from any positive capacity. -/
def BitVector.grow (b : BitVector) (r : Nat) : BitVector := { b with cap := growCap (r + 1) b.cap r }

/-- `bv_set(B, r)` (40_bitvector_code.md R93). -/
def BitVector.set (b : BitVector) (r : Nat) : BitVector :=
  { b.grow r with blk := Memory.write b.blk (blkidx r) (Memory.read b.blk (blkidx r) ||| rankMask r) }

/-- `bv_clear(B, r)` (40_bitvector_code.md R94). -/
def BitVector.clear (b : BitVector) (r : Nat) : BitVector :=
  { b.grow r with blk := Memory.write b.blk (blkidx r) (Memory.read b.blk (blkidx r) &&& ~~~ (rankMask r)) }

/-- `bv_test(B, r)` (40_bitvector_code.md R95): 0 outside the capacity, and no state changes. -/
def BitVector.test (b : BitVector) (r : Nat) : Bool :=
  if b.cap ≤ r then false else Memory.bit b.blk r

/-- `bv_render(B, n)` as a list of bits, rank 0 first (40_bitvector_code.md R96): a specification function. -/
def BitVector.render (b : BitVector) (n : Nat) : List Bool := (List.range n).map b.test

/-! ## Codes (40_bitvector_code.md section 2) -/

/-- The empty Code of a fixed-capacity entry (10_state.md R42, 40_bitvector_code.md R90). -/
def Code.empty : Code := { bv := { blk := [], cap := Config.codemax }, len := 0 }

/-- `code_append(C, bit)` (40_bitvector_code.md R97). -/
def Code.append (c : Code) (bit : Bool) : Code :=
  { bv := if bit then c.bv.set c.len else c.bv.clear c.len, len := c.len + 1 }

/-- Append bits one by one, in order (44_encoder.md R155). -/
def Code.appendAll (c : Code) (bits : List Bool) : Code := bits.foldl Code.append c

/-- `code_copy(C)`: a Code is a value, so a copy is the value itself (40_bitvector_code.md R98, 20_memory.md R64). -/
def Code.copy (c : Code) : Code := c

/-- `code_render(C)`: the first `len` bits (40_bitvector_code.md R99). -/
def Code.render (c : Code) : List Bool := c.bv.render c.len

/-- `OUT` as a Code: `OUT.bv` is (`OUT.blk`, `OUT.cap`) (40_bitvector_code.md R97, R100). -/
def State.outCode (s : State) : Code :=
  { bv := { blk := s.outBlk, cap := s.outCap.toNat }, len := s.outLen.toNat }

/-- Store a Code in `OUT` (10_state.md R40). -/
def State.setOut (s : State) (c : Code) : State :=
  { s with outLen := BitVec.ofNat 17 c.len, outCap := BitVec.ofNat 17 c.bv.cap, outBlk := c.bv.blk }

/-- A fresh, empty output Code of capacity `CAP0` (40_bitvector_code.md R101). -/
def State.clearOut (s : State) : State := { s with outLen := 0#17, outCap := BitVec.ofNat 17 Config.cap0, outBlk := [] }

/-- The bits of a code-table record, rank 0 first (44_encoder.md R155: rank j is under `0x80 >> (j & 7)` of block j >> 3). -/
def CodeEntry.bits (e : CodeEntry) : List Bool := (List.range e.len.toNat).map (Memory.bit e.blk)

/-! ## Responses and conditions -/

/-- `respond(0, data)` (00_scope.md R10, 30_encoding.md R74): `LASTERR` stays (10_state.md R34). -/
def State.respond (data : Word) (s : State) : State := { s with resp := some { err := .ok, data := data } }

/-- Delivery of a condition, the engine's taking of an exception (60_exceptions.md R205 for an error, with `data` = 0, and
R206 for a warning): the flag of the code, `LASTERR` and the response. Nothing is saved and control goes nowhere (R213);
there is no return from a condition (R215). -/
def State.deliver (c : Condition) (data : Word) (s : State) : State :=
  { s.markCondition c with lasterr := c, resp := some { err := c, data := data } }

/-- `raise` of an error: the command has no other effect and its `data` is 0 (60_exceptions.md R205). -/
def raiseError (c : Condition) (s : State) : Result := .next (s.deliver c 0#64)

/-- `raise` of a warning at the end of a command that has otherwise completed (60_exceptions.md R206). -/
def raiseWarning (c : Condition) (data : Word) (s : State) : Result := .next (s.deliver c data)

/-- The host's acknowledgement of past conditions, in place of a return from a condition (45_control.md R167,
60_exceptions.md R215): the five sticky flags, `UNKCNT` and `LASTERR` to 0. -/
def State.clearConditions (s : State) : State :=
  { s with ill := false, pherr := false, wovf := false, oovf := false, unk := false, unkcnt := 0#32, lasterr := .ok }

/-- The reset event (70_reset_and_hazards.md R230): it ignores the engine's state; what the host does next is not engine
state and stays (log 9). -/
def State.resetEvent (s : State) : State := { State.reset with host := s.host }

end Sys2Proof.Machine
end

