-- ==== Sys2Proof/Machine/Operands.lean ====
section
/-! DEFINITION. What operands select and what responses carry: status registers by number, node records, code lengths, the
packing of `data` (10_state.md R25 to R34, 30_encoding.md R73, R84). -/

namespace Sys2Proof.Machine

/-- A 32-bit value zero-extended to `data`. -/
def zext64 {n : Nat} (v : BitVec n) : Word := v.setWidth 64

/-- A natural number as `data` (k, a bit count). -/
def countData (n : Nat) : Word := BitVec.ofNat 64 n

/-- The nine status registers by name (10_state.md R25). -/
inductive StatusReg where
  | cfg | status | root | nnodes | nsyms | outlen | outcap | unkcnt | lasterr
  deriving DecidableEq, Repr

/-- The status register of a number; above 8 there is none (10_state.md R25, 30_encoding.md R83). -/
def StatusReg.ofNumber (number : Imm) : Option StatusReg :=
  match number.toNat with
  | 0 => some .cfg
  | 1 => some .status
  | 2 => some .root
  | 3 => some .nnodes
  | 4 => some .nsyms
  | 5 => some .outlen
  | 6 => some .outcap
  | 7 => some .unkcnt
  | 8 => some .lasterr
  | _ => none

/-- `statusreg`: the 32-bit value of a status register (10_state.md R26 to R34). -/
def State.statusreg (s : State) : StatusReg → BitVec 32
  | .cfg => Config.cfgWord
  | .status => s.statusWord
  | .root => BitVec.ofBool s.rootv ++ (0#22 ++ s.rootidx)
  | .nnodes => s.nnodes.setWidth 32
  | .nsyms => s.nsyms.setWidth 32
  | .outlen => s.outLen.setWidth 32
  | .outcap => s.outCap.setWidth 32
  | .unkcnt => s.unkcnt
  | .lasterr => s.lasterr.code.setWidth 32

/-- `tag` of a node record (10_state.md R36). -/
def TreeNode.tag : TreeNode → Bool
  | .leaf _ _ => false
  | .internal _ _ _ => true

/-- `sym` of a node record, 0 in an internal node (10_state.md R36). -/
def TreeNode.sym : TreeNode → Symbol
  | .leaf sym _ => sym
  | .internal _ _ _ => 0#8

/-- `weight` of a node record (10_state.md R36). -/
def TreeNode.weight : TreeNode → Weight
  | .leaf _ weight => weight
  | .internal weight _ _ => weight

/-- `left` of a node record, 0 in a leaf (10_state.md R36). -/
def TreeNode.left : TreeNode → NodeIdx
  | .leaf _ _ => 0#9
  | .internal _ left _ => left

/-- `right` of a node record, 0 in a leaf (10_state.md R36). -/
def TreeNode.right : TreeNode → NodeIdx
  | .leaf _ _ => 0#9
  | .internal _ _ right => right

/-- RDNODE's `data` for a valid node (42_treebuilder.md R129): 63 valid, 62 `tag`, 61:58 zero, 57:50 `sym`, 49:41 `right`,
40:32 `left`, 31:0 `weight`. -/
def TreeNode.data (n : TreeNode) : Word :=
  1#1 ++ (BitVec.ofBool n.tag ++ (0#4 ++ (n.sym ++ (n.right ++ (n.left ++ n.weight)))))

/-- RDLEN's `data` (43_codegen.md R146): 31 `valid`, 8:0 `len`; all 0 when not valid. -/
def CodeEntry.lenData (e : CodeEntry) : Word :=
  if e.valid then 0#32 ++ (1#1 ++ (0#22 ++ e.len)) else 0#64

end Sys2Proof.Machine
end

