-- ==== Sys2Proof/Machine/Control.lean ====
section
/-! DEFINITION. The control commands NOP, CLRALL, CLRERR, RDSTAT (45_control.md R165 to R168) and the phase condition of the
life cycle (R170). -/

namespace Sys2Proof.Machine

/-- The phase condition of a command (45_control.md R170): in another phase, PhaseError and no other effect
(60_exceptions.md R202). -/
def inPhase (p : Phase) (s : State) (k : State → Result) : Result :=
  if s.phase = p then k s else raiseError .phaseError s

/-- The end of a coder instance (45_control.md R166): everything but the sticky flags, `UNKCNT` and `LASTERR` to its reset
value. `NODE` and the `len` and `blk` of `CT` are left as they are, masked (10_state.md R44). -/
def State.clearAll (s : State) : State :=
  State.clearOut { s with
    phase := .collect
    freq := []
    ct := invalidateCt s.ct
    nnodes := 0#10
    nsyms := 0#9
    rootidx := 0#9
    rootv := false
    empty := false
    degen := false }

/-- NOP (45_control.md R165). -/
def execNop (s : State) : Result := .next (s.respond 0#64)

/-- CLRALL (45_control.md R166). -/
def execClrall (s : State) : Result := .next (s.clearAll.respond 0#64)

/-- CLRERR (45_control.md R167). -/
def execClrerr (s : State) : Result := .next (s.clearConditions.respond 0#64)

/-- RDSTAT `number` (45_control.md R168). A number above 8 is an illegal encoding (30_encoding.md R83) that no word decodes
to; as a term it is IllegalCommand too (log 11). -/
def execRdstat (number : Imm) (s : State) : Result :=
  match StatusReg.ofNumber number with
  | some r => .next (s.respond (zext64 (s.statusreg r)))
  | none => raiseError .illegalCommand s

end Sys2Proof.Machine
end

