-- ==== Sys2Proof/Machine/CodeGenerator.lean ====
section
/-! DEFINITION. The code generator, a breadth-first traversal unit: GEN, RDLEN, RDCODE (43_codegen.md R140 to R148). -/

namespace Sys2Proof.Machine

/-- What a traversal works on: the code table, `BFSQ` (front first), and the number of entries written. -/
structure GenCtx where
  ct : Table CodeEntry
  bfsq : List (Nat × Code)
  cnt : Nat
  deriving DecidableEq, Repr

/-- The record a leaf gets for its accumulated Code (43_codegen.md R141). -/
def Code.toEntry (c : Code) : CodeEntry := { valid := true, len := BitVec.ofNat 9 c.len, blk := c.bv.blk }

/-- `CT[sym] <- e` (10_state.md R38). -/
def ctWrite (ct : Table CodeEntry) (sym : Symbol) (e : CodeEntry) : Table CodeEntry :=
  Table.write entryDefault ct sym.toNat e

/-- One visit step (43_codegen.md R141): pop the front; a leaf is recorded, an internal node pushes its left child with bit
0 appended, then its right child with bit 1 appended. Its precondition is a non-empty queue; without it, it changes nothing
(log 6). -/
def visitStep (node : Table TreeNode) (g : GenCtx) : GenCtx :=
  match g.bfsq with
  | [] => g
  | (i, c) :: rest =>
    match nodeRead node i with
    | .leaf sym _ => { ct := ctWrite g.ct sym c.toEntry, bfsq := rest, cnt := g.cnt + 1 }
    | .internal _ left right =>
      { g with bfsq := rest ++ [(left.toNat, c.copy.append false), (right.toNat, c.copy.append true)] }

/-- While `BFSQ` is not empty: visit (43_codegen.md R142). The first argument bounds the turns (45_control.md R171, log 6). -/
def visitLoop (node : Table TreeNode) : Nat → GenCtx → GenCtx
  | 0, g => g
  | fuel + 1, g => if g.bfsq.isEmpty then g else visitLoop node fuel (visitStep node g)

/-- The traversal GEN makes (43_codegen.md R142): none without a root (R144); the one-bit Code "0" for a leaf root (R143);
else breadth first from the root, at most `NNODEMAX` visits (R145). -/
def State.traverse (s : State) : GenCtx :=
  let cleared : GenCtx := { ct := invalidateCt s.ct, bfsq := [], cnt := 0 }
  if s.rootv then
    match s.nodeAt s.rootidx.toNat with
    | .leaf sym _ => { cleared with ct := ctWrite cleared.ct sym (Code.empty.append false).toEntry, cnt := 1 }
    | .internal _ _ _ =>
      visitLoop s.node Config.nnodemax { cleared with bfsq := [(s.rootidx.toNat, Code.empty)] }
  else cleared

/-- The state GEN leaves, before the response (43_codegen.md R142). -/
def State.genTable (s : State) : State := { s with ct := s.traverse.ct, bfsq := s.traverse.bfsq, phase := .ready }

/-- GEN (43_codegen.md R142). -/
def execGen (s : State) : Result :=
  inPhase .built s fun s => .next (s.genTable.respond (countData s.traverse.cnt))

/-- RDLEN `sym` (43_codegen.md R146). -/
def execRdlen (sym : Symbol) (s : State) : Result := .next (s.respond (s.ctAt sym).lenData)

/-- The block RDCODE returns (43_codegen.md R147): 0 for an entry that is not valid and outside the entry's blocks. -/
def CodeEntry.block (e : CodeEntry) (b : Nat) : Block :=
  if e.valid = false ∨ Config.codeBlocks ≤ b then 0x00#8 else Memory.read e.blk b

/-- RDCODE `sym`, `block` (43_codegen.md R147). -/
def execRdcode (sym : Symbol) (block : Imm) (s : State) : Result :=
  .next (s.respond (zext64 ((s.ctAt sym).block block.toNat)))

end Sys2Proof.Machine
end

