-- ==== Sys2Proof/Machine/Encoder.lean ====
section
/-! DEFINITION. The encoder, a variable-length bit-packing datapath: ENC (44_encoder.md R155 to R158). -/

namespace Sys2Proof.Machine

/-- `OUT` with a code's bits appended in order (44_encoder.md R155). -/
def State.appendOut (s : State) (bits : List Bool) : State := s.setOut (s.outCode.appendAll bits)

/-- ENC `sym` (44_encoder.md R155): PhaseError, UnknownSymbol (R156), OutputOverflow (R157), tested in that order. -/
def execEnc (sym : Symbol) (s : State) : Result :=
  inPhase .ready s fun s =>
    let e := s.ctAt sym
    if e.valid = false then raiseWarning .unknownSymbol 0#64 s
    else if s.outLen.toNat + e.len.toNat > Config.outmax then raiseError .outputOverflow s
    else .next ((s.appendOut e.bits).respond (zext64 e.len))

end Sys2Proof.Machine
end

