-- ==== Sys2Proof/Machine/Frequency.lean ====
section
/-! DEFINITION. The frequency table: FEED, SETF, RDFREQ (41_frequency.md R110 to R113). -/

namespace Sys2Proof.Machine

/-- All symbol values in ascending order. -/
def allSymbols : List Symbol := (List.range Config.nsym).map (BitVec.ofNat 8)

/-- The symbols present in the FrequencyTable, ascending (41_frequency.md R113). -/
def State.presentSymbols (s : State) : List Symbol := allSymbols.filter (fun c => s.freqAt c != 0#32)

/-- T, the sum of all counts as a natural number (42_treebuilder.md R130). -/
def State.freqTotal (s : State) : Nat := (allSymbols.map (fun c => (s.freqAt c).toNat)).sum

/-- FEED `sym` (41_frequency.md R110). -/
def execFeed (sym : Symbol) (s : State) : Result :=
  inPhase .collect s fun s =>
    if (s.freqAt sym).toNat = Config.wmax then raiseError .weightOverflow s
    else .next ((s.setFreq sym (s.freqAt sym + 1#32)).respond 0#64)

/-- SETF `sym`, `count` (41_frequency.md R111). -/
def execSetf (sym : Symbol) (count : Imm) (s : State) : Result :=
  inPhase .collect s fun s => .next ((s.setFreq sym count).respond 0#64)

/-- RDFREQ `sym` (41_frequency.md R112). -/
def execRdfreq (sym : Symbol) (s : State) : Result := .next (s.respond (zext64 (s.freqAt sym)))

end Sys2Proof.Machine
end

