-- ==== Sys2Proof/Machine/OutputBits.lean ====
section
/-! DEFINITION. The commands on the output bit memory: CLROUT, TEST, RDOUT (40_bitvector_code.md R101 to R103). -/

namespace Sys2Proof.Machine

/-- The block RDOUT returns (40_bitvector_code.md R103): 0 outside the capacity. -/
def State.outBlock (s : State) (b : Nat) : Block :=
  if s.outCap.toNat ≤ 8 * b then 0x00#8 else Memory.read s.outBlk b

/-- CLROUT (40_bitvector_code.md R101). -/
def execClrout (s : State) : Result := .next (s.clearOut.respond 0#64)

/-- TEST `rank` (40_bitvector_code.md R102). -/
def execTest (rank : Imm) (s : State) : Result :=
  .next (s.respond (zext64 (BitVec.ofBool (s.outCode.bv.test rank.toNat))))

/-- RDOUT `block` (40_bitvector_code.md R103). -/
def execRdout (block : Imm) (s : State) : Result :=
  .next (s.respond (zext64 (s.outBlock block.toNat)))

end Sys2Proof.Machine
end

