-- ==== Sys2Proof/Machine/TreeBuilder.lean ====
section
/-! DEFINITION. The tree builder, a priority-queue merge engine: BUILD and RDNODE (42_treebuilder.md R120 to R131). -/

namespace Sys2Proof.Machine

/-- `i` precedes `j`: the key (weight, index) compared lexicographically, weights unsigned (42_treebuilder.md R120). -/
def precedes (node : Table TreeNode) (i j : Nat) : Bool :=
  decide ((nodeRead node i).weight.toNat < (nodeRead node j).weight.toNat) ||
    (decide ((nodeRead node i).weight.toNat = (nodeRead node j).weight.toNat) && decide (i < j))

/-- `pq_insert(i)`: set union with `i` (42_treebuilder.md R121). -/
def pqInsert (i : Nat) (pq : List Nat) : List Nat := if i ∈ pq then pq else i :: pq

/-- The element that precedes every other (42_treebuilder.md R122); none of an empty set. -/
def pqMin (node : Table TreeNode) : List Nat → Option Nat
  | [] => none
  | i :: rest =>
    match pqMin node rest with
    | none => some i
    | some j => if precedes node i j then some i else some j

/-- `pq_extract_min()`: the minimum and the set without it (42_treebuilder.md R122). -/
def pqExtractMin (node : Table TreeNode) (pq : List Nat) : Option (Nat × List Nat) :=
  match pqMin node pq with
  | none => none
  | some i => some (i, pq.filter (fun j => j != i))

/-- What a build works on: the node memory, `PQ`, and the next free node index. -/
structure BuildCtx where
  node : Table TreeNode
  pq : List Nat
  next : Nat
  deriving DecidableEq, Repr

/-- One turn of leaf creation (42_treebuilder.md R123): a present symbol gets the next node and enters `PQ`. -/
def addLeaf (s : State) (c : BuildCtx) (sym : Symbol) : BuildCtx :=
  if (s.freqAt sym).toNat > 0 then
    { node := nodeWrite c.node c.next (.leaf sym (s.freqAt sym)), pq := pqInsert c.next c.pq, next := c.next + 1 }
  else c

/-- Leaf creation, symbols ascending (42_treebuilder.md R123). -/
def createLeaves (s : State) : BuildCtx := allSymbols.foldl (addLeaf s) { node := s.node, pq := [], next := 0 }

/-- One merge step (42_treebuilder.md R124): first extracted is `left`, second extracted is `right`. Its precondition is
two elements in `PQ`; without them it changes nothing (log 6). -/
def mergeStep (c : BuildCtx) : BuildCtx :=
  match pqExtractMin c.node c.pq with
  | none => c
  | some (a, pq1) =>
    match pqExtractMin c.node pq1 with
    | none => c
    | some (b, pq2) =>
      { node := nodeWrite c.node c.next
          (.internal ((nodeRead c.node a).weight + (nodeRead c.node b).weight) (BitVec.ofNat 9 a) (BitVec.ofNat 9 b))
        pq := pqInsert c.next pq2
        next := c.next + 1 }

/-- While `PQ` has two elements: merge (42_treebuilder.md R125). The first argument bounds the turns (45_control.md R171,
log 6). -/
def mergeLoop : Nat → BuildCtx → BuildCtx
  | 0, c => c
  | fuel + 1, c => if 2 ≤ c.pq.length then mergeLoop fuel (mergeStep c) else c

/-- The end of BUILD (42_treebuilder.md R125): the last element of `PQ` is the root, and the registers are written. -/
def finishBuild (k : Nat) (c : BuildCtx) (s : State) : State :=
  let root := pqExtractMin c.node c.pq
  { s with
    node := c.node
    pq := match root with
      | some (_, rest) => rest
      | none => c.pq
    rootidx := match root with
      | some (i, _) => BitVec.ofNat 9 i
      | none => 0#9
    rootv := root.isSome
    nnodes := BitVec.ofNat 10 c.next
    nsyms := BitVec.ofNat 9 k
    empty := decide (k = 0)
    degen := decide (k = 1)
    phase := .built }

/-- The tree BUILD leaves (42_treebuilder.md R125): at most `NSYM` - 1 merge steps (45_control.md R171). -/
def State.buildTree (s : State) : State :=
  let leaves := createLeaves s
  finishBuild leaves.next (mergeLoop Config.mergeMax leaves) s

/-- BUILD (42_treebuilder.md R125). -/
def execBuild (s : State) : Result :=
  inPhase .collect s fun s =>
    if s.freqTotal > Config.wmax then raiseError .weightOverflow s
    else
      let k := (createLeaves s).next
      if k = 0 then raiseWarning .emptyCorpus 0#64 s.buildTree
      else if k = 1 then raiseWarning .degenerateAlphabet 1#64 s.buildTree
      else .next (s.buildTree.respond (countData k))

/-- The data of RDNODE (42_treebuilder.md R129): zero for an index that is not allocated. -/
def State.nodeData (s : State) (i : Nat) : Word := if s.nnodes.toNat ≤ i then 0#64 else (s.nodeAt i).data

/-- RDNODE `index` (42_treebuilder.md R129). -/
def execRdnode (index : Imm) (s : State) : Result := .next (s.respond (s.nodeData index.toNat))

end Sys2Proof.Machine
end

