-- ==== Sys2Proof/Machine/Dispatch.lean ====
section
/-! DEFINITION. The dispatch: one arm per command, each one direct call of its meaning. -/

namespace Sys2Proof.Machine

def exec (i : Instr) (s : State) : Host.Outcome State Fault Refusal :=
  match i with
  | .nop => Sys2Proof.Machine.execNop s
  | .clrall => Sys2Proof.Machine.execClrall s
  | .clrout => Sys2Proof.Machine.execClrout s
  | .clrerr => Sys2Proof.Machine.execClrerr s
  | .feed sym => Sys2Proof.Machine.execFeed sym s
  | .setf sym count => Sys2Proof.Machine.execSetf sym count s
  | .build => Sys2Proof.Machine.execBuild s
  | .gen => Sys2Proof.Machine.execGen s
  | .enc sym => Sys2Proof.Machine.execEnc sym s
  | .rdstat number => Sys2Proof.Machine.execRdstat number s
  | .rdfreq sym => Sys2Proof.Machine.execRdfreq sym s
  | .rdnode index => Sys2Proof.Machine.execRdnode index s
  | .rdlen sym => Sys2Proof.Machine.execRdlen sym s
  | .rdcode sym block => Sys2Proof.Machine.execRdcode sym block s
  | .test rank => Sys2Proof.Machine.execTest rank s
  | .rdout block => Sys2Proof.Machine.execRdout block s

end Sys2Proof.Machine
end

