-- ==== Sys2Proof/Machine/Issue.lean ====
section
/-! DEFINITION. Issuing what the host does next: a command word is decoded and executed, an illegal word is IllegalCommand,
a reset event resets (20_memory.md R59, 60_exceptions.md R201, 70_reset_and_hazards.md R230). -/

namespace Sys2Proof.Machine

/-- Execute one command word (30_encoding.md R76, R77): its command, or IllegalCommand. -/
def issue (w : Word) (s : State) : Result :=
  match decode w with
  | .ok i => exec i s
  | .error _ => raiseError .illegalCommand s

/-- Serve the host's next input; with none the engine is idle and its state stays (70_reset_and_hazards.md R242, log 2). -/
def serveHost (s : State) : Result :=
  match s.host with
  | [] => .next s
  | .command w :: rest => issue w { s with host := rest }
  | .reset :: rest => .next (State.resetEvent { s with host := rest })

/-- `s` with a command word put first in what the host does next. -/
def State.issueNext (s : State) (w : Word) : State := { s with host := .command w :: s.host }

end Sys2Proof.Machine
end

