-- ==== Sys2Proof/Machine/Step.lean ====
section
/-! DEFINITION. The step of the machine, and placing a command word where the next step takes it. -/

namespace Sys2Proof.Machine

/-- One step (10_state.md R45): serve the host's next input. -/
def step (s : State) : Host.Outcome State Fault Refusal := serveHost s

/-- `s` with the command word of a numbered word of spec/opcode_table.json issued next (log 1). -/
def State.withFetchWord (s : State) (nbits w : Nat) : State := s.issueNext (wordOfTable nbits w)

end Sys2Proof.Machine
end

