-- ==== Sys2Proof/Machine/Pseudo.lean ====
section
/-! DEFINITION. The host-side sequences of commands the spec names (30_encoding.md R81), and the text forms of its examples
(R80, R82; 40_bitvector_code.md R96). None of them is a command of the engine. -/

namespace Sys2Proof.Machine

/-- `LOADCORPUS`: FEED for each character, in order (30_encoding.md R81). -/
def loadCorpus (text : List Symbol) : List Instr := text.map Instr.feed

/-- `LOADTABLE`: SETF for each pair, in the order written (30_encoding.md R81). -/
def loadTable (pairs : List (Symbol × Imm)) : List Instr := pairs.map (fun p => Instr.setf p.1 p.2)

/-- `CONSTRUCT`: BUILD then GEN (30_encoding.md R81). -/
def construct : List Instr := [.build, .gen]

/-- The ENC commands of a text, in order (44_encoder.md R158). -/
def encodeText (text : List Symbol) : List Instr := text.map Instr.enc

/-- `ENCODE`: CLROUT, ENC for each character, RDSTAT 5 (30_encoding.md R81). -/
def encodeMessage (text : List Symbol) : List Instr := Instr.clrout :: encodeText text ++ [Instr.rdstat 5#32]

/-- `RENDER n`: TEST for each rank below n (30_encoding.md R81). -/
def renderRanks (n : Nat) : List Instr := (List.range n).map (fun r => Instr.test (BitVec.ofNat 32 r))

/-- The commands `DUMP` issues for one symbol, given the engine it reads: RDLEN, and for a valid symbol RDFREQ and RDCODE
of each of its blocks (30_encoding.md R81). -/
def dumpSymbol (s : State) (sym : Symbol) : List Instr :=
  Instr.rdlen sym ::
    (if (s.ctAt sym).valid then
      Instr.rdfreq sym ::
        (List.range (((s.ctAt sym).len.toNat + 7) / 8)).map (fun b => Instr.rdcode sym (BitVec.ofNat 32 b))
    else [])

/-- `DUMP`: every symbol in ascending order (30_encoding.md R81). -/
def dump (s : State) : List Instr := (List.range Config.nsym).flatMap (fun c => dumpSymbol s (BitVec.ofNat 8 c))

/-- What `DUMP` reports: (symbol, frequency, code bits, length) of each valid symbol, ascending (30_encoding.md R81). -/
def dumpTable (s : State) : List (Symbol × Weight × List Bool × BitVec 9) :=
  ((List.range Config.nsym).map (BitVec.ofNat 8)).filterMap (fun c =>
    if (s.ctAt c).valid then some (c, s.freqAt c, (s.ctAt c).bits, (s.ctAt c).len) else none)

/-- Execute commands one after the other (20_memory.md R59 (a)). -/
def execAll : List Instr → State → Result
  | [], s => .next s
  | i :: rest, s =>
    match exec i s with
    | .next t => execAll rest t
    | .fault f => .fault f
    | .refused r => .refused r

/-- A bit sequence as text, rank 0 leftmost (00_scope.md R9, 40_bitvector_code.md R96). -/
def bitText (bits : List Bool) : String := String.ofList (bits.map (fun b => if b then '1' else '0'))

/-- The mnemonic of a command (30_encoding.md R75). -/
def mnemonicOf : Instr → String
  | .nop => "NOP"
  | .clrall => "CLRALL"
  | .clrout => "CLROUT"
  | .clrerr => "CLRERR"
  | .feed _ => "FEED"
  | .setf _ _ => "SETF"
  | .build => "BUILD"
  | .gen => "GEN"
  | .enc _ => "ENC"
  | .rdstat _ => "RDSTAT"
  | .rdfreq _ => "RDFREQ"
  | .rdnode _ => "RDNODE"
  | .rdlen _ => "RDLEN"
  | .rdcode _ _ => "RDCODE"
  | .test _ => "TEST"
  | .rdout _ => "RDOUT"

/-- A command in the assembler syntax of the spec's examples, operands as decimal numbers, `sym` before `imm`
(30_encoding.md R80). -/
def assemblyOf (i : Instr) : String :=
  mnemonicOf i ++
    match i with
    | .nop | .clrall | .clrout | .clrerr | .build | .gen => ""
    | .feed sym | .enc sym | .rdfreq sym | .rdlen sym => " " ++ toString sym.toNat
    | .setf sym imm | .rdcode sym imm => " " ++ toString sym.toNat ++ ", " ++ toString imm.toNat
    | .rdstat imm | .rdnode imm | .test imm | .rdout imm => " " ++ toString imm.toNat

end Sys2Proof.Machine
end

