-- ==== Sys2Proof/Safety.lean ====
section
/-! DEFINITION. What a good state of the engine is, and the specification functions the spec's properties speak of
(10_state.md R37 to R40, 46_properties.md R180 to R190, 70_reset_and_hazards.md R232). -/

namespace Sys2Proof.Machine

/-! ## Specification functions on the tree and the code table -/

/-- k, the number of leaves of the current tree (10_state.md R30). -/
def State.leafCount (s : State) : Nat := s.nsyms.toNat

/-- The child of a node a code bit selects: 0 = left, 1 = right (43_codegen.md R141). -/
def State.child (s : State) (i : Nat) (bit : Bool) : Nat :=
  if bit then (s.nodeAt i).right.toNat else (s.nodeAt i).left.toNat

/-- Follow branch bits down the tree; a leaf has no children (46_properties.md R187). -/
def State.walk (s : State) : Nat → List Bool → Option Nat
  | i, [] => some i
  | i, b :: bits => if (s.nodeAt i).tag then State.walk s (s.child i b) bits else none

/-- The Code of a symbol as a pure value: the bits of its record (10_state.md R39). -/
def State.codeBits (s : State) (sym : Symbol) : List Bool := (s.ctAt sym).bits

/-- The bits of `OUT`, rank 0 first (40_bitvector_code.md R99). -/
def State.outBits (s : State) : List Bool := s.outCode.render

/-- The greedy decoder of an internal root, at node `i` (46_properties.md R183). -/
def State.decodeFrom (s : State) : Nat → List Bool → List Symbol
  | _, [] => []
  | i, b :: bits =>
    let j := s.child i b
    if (s.nodeAt j).tag then State.decodeFrom s j bits
    else (s.nodeAt j).sym :: State.decodeFrom s s.rootidx.toNat bits

/-- `decode(w)` (46_properties.md R183): a specification function, not a command (00_scope.md R4). -/
def State.decodeText (s : State) (bits : List Bool) : List Symbol :=
  if s.rootv = false then []
  else if (s.nodeAt s.rootidx.toNat).tag = false then bits.map (fun _ => (s.nodeAt s.rootidx.toNat).sym)
  else s.decodeFrom s.rootidx.toNat bits

/-- W, the total weighted code length, a natural number (46_properties.md R181). -/
def State.weightedLength (s : State) : Nat :=
  (s.presentSymbols.map (fun c => (s.freqAt c).toNat * (s.codeBits c).length)).sum

/-- The sum of the weights of the internal nodes (46_properties.md R181). -/
def State.internalWeight (s : State) : Nat :=
  ((List.range' s.leafCount (s.leafCount - 1)).map (fun i => (s.nodeAt i).weight.toNat)).sum

/-- The Kraft sum in units of 2^(-256): the sum of 2^(256 - len) over the present symbols (46_properties.md R185). -/
def State.kraftSum (s : State) : Nat :=
  (s.presentSymbols.map (fun c => 2 ^ (Config.codemax - (s.codeBits c).length))).sum

/-- No code is a bit-wise beginning of another, for distinct symbols of a list (10_state.md R39, 46_properties.md R180). -/
def PrefixFree (syms : List Symbol) (code : Symbol → List Bool) : Prop :=
  ∀ a ∈ syms, ∀ b ∈ syms, a ≠ b → ¬ code a <+: code b

/-- The characters of a text that have a code (44_encoder.md R158). -/
def State.knownText (s : State) (text : List Symbol) : List Symbol := text.filter (fun c => (s.ctAt c).valid)

/-! ## Invariants -/

/-- Every memory, the blocks of each code-table record among them, is inside its address space (20_memory.md R50) and in
canonical form (log 7). -/
structure State.MemoriesWf (s : State) : Prop where
  freq : Table.wf weightDefault Config.nsym s.freq
  node : Table.wf nodeDefault Config.nnodemax s.node
  ct : Table.wf entryDefault Config.nsym s.ct
  ctBlk : ∀ c ∈ s.ct, Memory.wf Config.codeBlocks c.2.blk
  outBlk : Memory.wf Config.outBlocks s.outBlk

/-- The bit store `OUT` (10_state.md R40, 46_properties.md R189). -/
structure State.OutWf (s : State) : Prop where
  len_le_cap : s.outLen.toNat ≤ s.outCap.toNat
  cap_le_max : s.outCap.toNat ≤ Config.outmax
  cap_pow : ∃ j ≤ 10, s.outCap.toNat = Config.cap0 * 2 ^ j
  tail_zero : ∀ r, s.outLen.toNat ≤ r → Memory.bit s.outBlk r = false

/-- Transient state is empty between commands (10_state.md R41, R42). -/
structure State.TransientEmpty (s : State) : Prop where
  pq : s.pq = []
  bfsq : s.bfsq = []

/-- In phase COLLECT there is no tree (10_state.md R22, R29; 45_control.md R166). -/
structure State.NoTree (s : State) : Prop where
  rootv : s.rootv = false
  empty : s.empty = false
  degen : s.degen = false
  rootidx : s.rootidx = 0#9
  nnodes : s.nnodes = 0#10
  nsyms : s.nsyms = 0#9

/-- An internal node (10_state.md R37, 46_properties.md R186): two distinct children with smaller indices, in the order of
42_treebuilder.md R120, and the sum of their weights. -/
structure State.InternalOk (s : State) (i : Nat) : Prop where
  tag : (s.nodeAt i).tag = true
  left_lt : (s.nodeAt i).left.toNat < i
  right_lt : (s.nodeAt i).right.toNat < i
  order : precedes s.node (s.nodeAt i).left.toNat (s.nodeAt i).right.toNat = true
  weight : (s.nodeAt i).weight.toNat =
    (s.nodeAt (s.nodeAt i).left.toNat).weight.toNat + (s.nodeAt (s.nodeAt i).right.toNat).weight.toNat

/-- The children of the internal nodes k to n - 1, in the order the merges took them out of `PQ`
(42_treebuilder.md R124). -/
def childrenOf (node : Table TreeNode) (k n : Nat) : List Nat :=
  (List.range' k (n - k)).flatMap (fun i => [(nodeRead node i).left.toNat, (nodeRead node i).right.toNat])

/-- How many of the internal nodes have `j` as a child (10_state.md R37 (c)). -/
def State.parentCount (s : State) (j : Nat) : Nat :=
  (childrenOf s.node s.leafCount (2 * s.leafCount - 1)).count j

/-- The tree BUILD leaves, true whenever `PHASE` is not COLLECT (10_state.md R37, 42_treebuilder.md R126 to R128,
46_properties.md R186). `greedy` says that each merge took the two first elements of `PQ`: a node not yet taken is preceded
by the merge's second child (42_treebuilder.md R122, R124). -/
structure State.TreeOk (s : State) : Prop where
  count : s.leafCount = s.presentSymbols.length
  total : s.freqTotal ≤ Config.wmax
  rootv : s.rootv = decide (1 ≤ s.leafCount)
  empty : s.empty = decide (s.leafCount = 0)
  degen : s.degen = decide (s.leafCount = 1)
  nnodes : s.nnodes.toNat = 2 * s.leafCount - 1
  rootidx : s.rootidx.toNat = 2 * s.leafCount - 2
  leaves : ∀ i < s.leafCount, ∃ c, s.presentSymbols[i]? = some c ∧ s.nodeAt i = .leaf c (s.freqAt c)
  internals : ∀ i, s.leafCount ≤ i → i < 2 * s.leafCount - 1 → s.InternalOk i
  parents : ∀ j < 2 * s.leafCount - 2, s.parentCount j = 1
  greedy : ∀ i, s.leafCount ≤ i → i < 2 * s.leafCount - 1 → ∀ j < i, j ∉ childrenOf s.node s.leafCount i →
    j ≠ (s.nodeAt i).left.toNat → j ≠ (s.nodeAt i).right.toNat → precedes s.node (s.nodeAt i).right.toNat j = true
  rising : ∀ i, s.leafCount ≤ i → i + 1 < 2 * s.leafCount - 1 →
    (s.nodeAt i).weight.toNat ≤ (s.nodeAt (i + 1)).weight.toNat
  rootWeight : 1 ≤ s.leafCount → (s.nodeAt s.rootidx.toNat).weight.toNat = s.freqTotal

/-- No symbol has a code (43_codegen.md R146). -/
def State.NoCodes (s : State) : Prop := ∀ sym, (s.ctAt sym).valid = false

/-- The record of a symbol that has a code (43_codegen.md R143, R145; 46_properties.md R187; 10_state.md R38). -/
structure State.EntryOk (s : State) (sym : Symbol) : Prop where
  len_pos : 1 ≤ (s.ctAt sym).len.toNat
  len_le : (s.ctAt sym).len.toNat ≤ max 1 (s.leafCount - 1)
  blocks : Table.within Config.codeBlocks (s.ctAt sym).blk
  tail_zero : ∀ r < Config.codemax, (s.ctAt sym).len.toNat ≤ r → Memory.bit (s.ctAt sym).blk r = false
  single : s.leafCount = 1 → s.codeBits sym = [false]
  path : 2 ≤ s.leafCount → ∃ i < s.leafCount, s.walk s.rootidx.toNat (s.codeBits sym) = some i ∧
    s.nodeAt i = .leaf sym (s.freqAt sym)

/-- The code table in phase READY (43_codegen.md R148, 46_properties.md R187). -/
structure State.CodesOk (s : State) : Prop where
  valid_iff : ∀ sym, (s.ctAt sym).valid = true ↔ s.freqAt sym ≠ 0#32
  entries : ∀ sym, (s.ctAt sym).valid = true → s.EntryOk sym

/-- A good state: what every step keeps and reset has. -/
structure State.Inv (s : State) : Prop where
  memories : s.MemoriesWf
  out : s.OutWf
  transient : s.TransientEmpty
  noTree : s.phase = .collect → s.NoTree
  tree : s.phase ≠ .collect → s.TreeOk
  noCodes : s.phase ≠ .ready → s.NoCodes
  codes : s.phase = .ready → s.CodesOk

/-! ## What no response depends on -/

/-- Two states that differ at most in contents the spec leaves unspecified and masks: `NODE[i]` for i >= `NNODES`, and
`len` and `blk` of code-table records that are not valid (70_reset_and_hazards.md R232). -/
structure State.Agree (s t : State) : Prop where
  rest : t = { s with node := t.node, ct := t.ct }
  node : ∀ i < s.nnodes.toNat, t.nodeAt i = s.nodeAt i
  valid : ∀ sym, (t.ctAt sym).valid = (s.ctAt sym).valid
  entry : ∀ sym, (s.ctAt sym).valid = true → t.ctAt sym = s.ctAt sym

/-- A response without a condition (30_encoding.md R74). -/
def answer (data : Word) : Option Response := some { err := .ok, data := data }

/-- A response with a condition and `data` 0 (30_encoding.md R74). -/
def reported (c : Condition) : Option Response := some { err := c, data := 0#64 }

/-- The life cycle table: may the command execute in the phase (45_control.md R170)? -/
def phaseAllows (i : Instr) (p : Phase) : Bool :=
  match i with
  | .feed _ | .setf _ _ | .build => decide (p = .collect)
  | .gen => decide (p = .built)
  | .enc _ => decide (p = .ready)
  | .nop | .clrall | .clrout | .clrerr | .rdstat _ | .rdfreq _ | .rdnode _ | .rdlen _ | .rdcode _ _ | .test _ | .rdout _ =>
    true

/-- The commands that read and change nothing (20_memory.md R56). -/
def isRead (i : Instr) : Bool :=
  match i with
  | .rdstat _ | .rdfreq _ | .rdnode _ | .rdlen _ | .rdcode _ _ | .test _ | .rdout _ => true
  | .nop | .clrall | .clrout | .clrerr | .feed _ | .setf _ _ | .build | .gen | .enc _ => false

/-- The command at the front of what the host does next, if it is one. -/
def State.nextCommand (s : State) : Option Word :=
  match s.host with
  | .command w :: _ => some w
  | .reset :: _ => none
  | [] => none

/-- `s` once the host's next input is taken. -/
def State.taken (s : State) : State := { s with host := s.host.tail }

end Sys2Proof.Machine
end

