-- ==== Sys2Proof/Certificates/Slice0/Obligations.lean ====
section
/-! DEFINITION. The statements for the provers. Each docstring names the rules of spec/ it formalises. -/

open Sys2Proof Sys2Proof.Machine

/-! ## The command word -/

/-- Decode and encode agree on every well-formed command, at every value of every operand (30_encoding.md R71, R72, R76). -/
def Obligations.DecodeEncodeIdentity : Prop := ∀ i : Instr, i.wellFormed = true → decode (encode i) = .ok i

/-- A word that decodes is the one word of its command, and the command is well formed (30_encoding.md R72, R76). -/
def Obligations.EncodeDecodeIdentity : Prop :=
  ∀ (w : Word) (i : Instr), decode w = .ok i → i.wellFormed = true ∧ encode i = w

/-- Exactly the words of 30_encoding.md R77 are illegal, and executing one only sets `ILL`, `LASTERR` and the response. -/
def Obligations.IllegalWordsExactly : Prop :=
  ∀ w : Word,
    ((∃ e, decode w = .error e) ↔
      (w.extractLsb' 56 8 ∉ [0x00#8, 0x01#8, 0x02#8, 0x03#8, 0x10#8, 0x11#8, 0x20#8, 0x21#8, 0x30#8, 0x40#8, 0x41#8, 0x42#8,
          0x43#8, 0x44#8, 0x45#8, 0x46#8] ∨
        w.extractLsb' 32 16 ≠ 0#16 ∨
        (w.extractLsb' 56 8 ∈ [0x00#8, 0x01#8, 0x02#8, 0x03#8, 0x20#8, 0x21#8, 0x40#8, 0x42#8, 0x45#8, 0x46#8] ∧
          w.extractLsb' 48 8 ≠ 0#8) ∨
        (w.extractLsb' 56 8 ∈ [0x00#8, 0x01#8, 0x02#8, 0x03#8, 0x20#8, 0x21#8, 0x10#8, 0x30#8, 0x41#8, 0x43#8] ∧
          w.extractLsb' 0 32 ≠ 0#32) ∨
        (w.extractLsb' 56 8 = 0x40#8 ∧ 8 < (w.extractLsb' 0 32).toNat))) ∧
    ∀ e, decode w = .error e → ∀ s : State, ∀ rest, s.host = .command w :: rest →
      step s = .next { s with ill := true, lasterr := .illegalCommand, resp := reported .illegalCommand, host := rest }

/-- Words written out from 30_encoding.md R75 and R80 and 95_test_vectors.md decode to the commands they stand for. -/
def Obligations.SpecWordsDecode : Prop :=
  decode 0x0000000000000000#64 = .ok .nop ∧ decode 0x0100000000000000#64 = .ok .clrall ∧
  decode 0x1061000000000000#64 = .ok (.feed 0x61#8) ∧ decode 0x1165000000000005#64 = .ok (.setf 0x65#8 5#32) ∧
  decode 0x2000000000000000#64 = .ok .build ∧ decode 0x2100000000000000#64 = .ok .gen ∧
  decode 0x307A000000000000#64 = .ok (.enc 0x7A#8) ∧ decode 0x4000000000000008#64 = .ok (.rdstat 8#32) ∧
  decode 0x4462000000000020#64 = .ok (.rdcode 0x62#8 32#32) ∧ decode 0x45000000EE6B2800#64 = .ok (.test 4000000000#32) ∧
  decode 0x4000000000000009#64 = .error .registerNumber ∧ decode 0x1061000100000000#64 = .error .reservedNotZero ∧
  decode 0x4001000000000001#64 = .error .symbolNotZero ∧ decode 0x2000000000000001#64 = .error .immediateNotZero ∧
  decode 0x0400000000000000#64 = .error .unassignedOpcode

/-! ## The step -/

/-- A step runs the command the host's next word decodes to, once the word is taken (20_memory.md R59, 30_encoding.md R76). -/
def Obligations.StepRunsDecodedCommand : Prop :=
  ∀ (s : State) (w : Word) (rest : List HostInput) (i : Instr), s.host = .command w :: rest → decode w = .ok i →
    step s = exec i { s with host := rest }

/-- With nothing to do the engine is idle and its state stays (log 2: 70_reset_and_hazards.md R242 says only that the engine
waits for the next command); a reset event leaves the rest of what the host does next and empties the response port (log 9).
Both are the model's choices. -/
def Obligations.IdleAndResetPorts : Prop :=
  (∀ s : State, s.host = [] → step s = .next s) ∧
  ∀ (s : State) (rest : List HostInput), s.host = .reset :: rest → ∃ t, step s = .next t ∧ t.host = rest ∧ t.resp = none

/-- The reset event gives every piece of state its reset value, whatever came before (70_reset_and_hazards.md R230, R231). -/
def Obligations.ResetEventValues : Prop :=
  ∀ (s : State) (rest : List HostInput), s.host = .reset :: rest → ∃ t, step s = .next t ∧
    t.phase = .collect ∧ t.rootv = false ∧ t.empty = false ∧ t.degen = false ∧ t.ill = false ∧ t.pherr = false ∧
    t.wovf = false ∧ t.oovf = false ∧ t.unk = false ∧ t.rootidx = 0#9 ∧ t.nnodes = 0#10 ∧ t.nsyms = 0#9 ∧
    t.unkcnt = 0#32 ∧ t.lasterr = .ok ∧ (∀ c, t.freqAt c = 0#32) ∧ (∀ c, (t.ctAt c).valid = false) ∧ t.outLen = 0#17 ∧
    t.outCap = 64#17 ∧ (∀ b, Memory.read t.outBlk b = 0x00#8) ∧ t.pq = [] ∧ t.bfsq = [] ∧
    t.statusreg .cfg = 0x10082008#32 ∧ t.statusreg .status = 0#32 ∧ t.statusreg .root = 0#32 ∧ t.statusreg .nnodes = 0#32 ∧
    t.statusreg .nsyms = 0#32 ∧ t.statusreg .outlen = 0#32 ∧ t.statusreg .outcap = 64#32 ∧ t.statusreg .unkcnt = 0#32 ∧
    t.statusreg .lasterr = 0#32

/-- Every command and every step answers a next state: the engine cannot hang (45_control.md R171, 70_reset_and_hazards.md
R242). -/
def Obligations.EveryStepAnswers : Prop :=
  (∀ (i : Instr) (s : State), ∃ t, exec i s = .next t) ∧ ∀ s : State, ∃ t, step s = .next t

/-- Every command produces one response; an error's `data` is 0; `LASTERR` becomes the code of a condition, and only CLRERR
changes it otherwise (30_encoding.md R74, 10_state.md R34). -/
def Obligations.OneResponsePerCommand : Prop :=
  ∀ (i : Instr) (s t : State), exec i s = .next t → ∃ r, t.resp = some r ∧ (r.err.isError = true → r.data = 0#64) ∧
    (r.err ≠ .ok → t.lasterr = r.err) ∧ (r.err = .ok → i ≠ .clrerr → t.lasterr = s.lasterr)

/-- When a response carries an error, exactly its sticky flag, `LASTERR` and the response changed (60_exceptions.md R205). -/
def Obligations.ErrorChangesNothingElse : Prop :=
  ∀ (i : Instr) (s t : State) (r : Response), exec i s = .next t → t.resp = some r → r.err.isError = true →
    t = { s with
      ill := s.ill || decide (r.err = .illegalCommand)
      pherr := s.pherr || decide (r.err = .phaseError)
      wovf := s.wovf || decide (r.err = .weightOverflow)
      oovf := s.oovf || decide (r.err = .outputOverflow)
      lasterr := r.err
      resp := some { err := r.err, data := 0#64 } }

/-- FEED, SETF, BUILD, GEN and ENC outside their phase: PhaseError and nothing else (60_exceptions.md R202, 45_control.md
R170). -/
def Obligations.PhaseErrorOutsidePhase : Prop :=
  ∀ (i : Instr) (s : State), phaseAllows i s.phase = false →
    exec i s = .next { s with pherr := true, lasterr := .phaseError, resp := reported .phaseError }

/-- The life cycle: PhaseError exactly where the table says so, and how each command moves the phase (45_control.md R170). -/
def Obligations.LifeCycle : Prop :=
  ∀ (i : Instr) (s t : State), exec i s = .next t →
    (phaseAllows i s.phase = false ↔ ∃ d, t.resp = some { err := .phaseError, data := d }) ∧
    t.phase =
      (match i with
      | .clrall => .collect
      | .build => if s.phase = .collect ∧ s.freqTotal ≤ 4294967295 then .built else s.phase
      | .gen => if s.phase = .built then .ready else s.phase
      | _ => s.phase)

/-! ## Control commands -/

/-- NOP (45_control.md R165). -/
def Obligations.NopChangesNothing : Prop :=
  decode 0x0000000000000000#64 = .ok .nop ∧ ∀ s : State, exec .nop s = .next { s with resp := answer 0#64 }

/-- CLRALL puts everything at its reset value but the sticky flags, `UNKCNT` and `LASTERR` (45_control.md R166). -/
def Obligations.ClrallRestores : Prop :=
  decode 0x0100000000000000#64 = .ok .clrall ∧
  ∀ s : State, ∃ t, exec .clrall s = .next t ∧
    t = { s with
      phase := .collect, rootv := false, empty := false, degen := false, rootidx := 0#9, nnodes := 0#10, nsyms := 0#9
      freq := t.freq, ct := t.ct, outLen := 0#17, outCap := 64#17, outBlk := t.outBlk, resp := answer 0#64 } ∧
    (∀ c, t.freqAt c = 0#32) ∧ (∀ c, (t.ctAt c).valid = false) ∧ ∀ b, Memory.read t.outBlk b = 0x00#8

/-- CLRERR clears the record of past conditions and changes nothing else (45_control.md R167). -/
def Obligations.ClrerrClears : Prop :=
  decode 0x0300000000000000#64 = .ok .clrerr ∧
  ∀ s : State, exec .clrerr s = .next { s with
    ill := false, pherr := false, wovf := false, oovf := false, unk := false, unkcnt := 0#32, lasterr := .ok
    resp := answer 0#64 }

/-- RDSTAT returns each of the registers 0 and 2 to 8 zero-extended and changes nothing else (45_control.md R168; 10_state.md
R26, R28 to R34). -/
def Obligations.RdstatRegisters : Prop :=
  ∀ s : State,
    exec (.rdstat 0#32) s = .next { s with resp := answer 0x10082008#64 } ∧
    (∃ v : Word, exec (.rdstat 2#32) s = .next { s with resp := answer v } ∧ v.extractLsb' 0 9 = s.rootidx ∧
      v.extractLsb' 9 22 = 0#22 ∧ v.getLsbD 31 = s.rootv ∧ v.extractLsb' 32 32 = 0#32) ∧
    exec (.rdstat 3#32) s = .next { s with resp := answer (s.nnodes.setWidth 64) } ∧
    exec (.rdstat 4#32) s = .next { s with resp := answer (s.nsyms.setWidth 64) } ∧
    exec (.rdstat 5#32) s = .next { s with resp := answer (s.outLen.setWidth 64) } ∧
    exec (.rdstat 6#32) s = .next { s with resp := answer (s.outCap.setWidth 64) } ∧
    exec (.rdstat 7#32) s = .next { s with resp := answer (s.unkcnt.setWidth 64) } ∧
    exec (.rdstat 8#32) s = .next { s with resp := answer (s.lasterr.code.setWidth 64) }

/-- The fields of `STATUS`, its zero bits and its reset value (10_state.md R27). -/
def Obligations.StatusFields : Prop :=
  (∀ s : State, ∃ v : Word, exec (.rdstat 1#32) s = .next { s with resp := answer v } ∧
    v.extractLsb' 0 2 = s.phase.code ∧ v.getLsbD 2 = s.rootv ∧ v.getLsbD 3 = s.empty ∧ v.getLsbD 4 = s.degen ∧
    v.extractLsb' 5 3 = 0#3 ∧ v.getLsbD 8 = s.ill ∧ v.getLsbD 9 = s.pherr ∧ v.getLsbD 10 = s.wovf ∧ v.getLsbD 11 = s.oovf ∧
    v.getLsbD 12 = s.unk ∧ v.extractLsb' 13 19 = 0#19 ∧ v.extractLsb' 32 32 = 0#32) ∧
  Phase.code .collect = 0#2 ∧ Phase.code .built = 1#2 ∧ Phase.code .ready = 2#2 ∧
  State.reset.statusreg .status = 0x00000000#32

/-- RDSTAT is legal only for the register numbers 0 to 8 (30_encoding.md R83). -/
def Obligations.RdstatNumberLegal : Prop :=
  ∀ n : Imm, (n.toNat ≤ 8 → decode (0x40#8 ++ (0#24 ++ n)) = .ok (.rdstat n)) ∧
    (8 < n.toNat → decode (0x40#8 ++ (0#24 ++ n)) = .error .registerNumber)

/-- RDSTAT of a number above 8, as a term no word decodes to, is IllegalCommand: the model's choice, log 11. -/
def Obligations.RdstatTermAboveEight : Prop :=
  ∀ (n : Imm) (s : State), 8 < n.toNat →
    exec (.rdstat n) s = .next { s with ill := true, lasterr := .illegalCommand, resp := reported .illegalCommand }

/-! ## The output bit memory -/

/-- CLROUT makes `OUT` a fresh, empty Code and changes nothing else (40_bitvector_code.md R101). -/
def Obligations.ClroutEmptiesOut : Prop :=
  decode 0x0200000000000000#64 = .ok .clrout ∧
  ∀ s : State, ∃ t, exec .clrout s = .next t ∧
    t = { s with outLen := 0#17, outCap := 64#17, outBlk := t.outBlk, resp := answer 0#64 } ∧
    ∀ b, Memory.read t.outBlk b = 0x00#8

/-- TEST: its word; it returns the bit of `OUT` at its rank, 0 outside the capacity and at a rank not written, and changes
nothing (40_bitvector_code.md R102). -/
def Obligations.TestReturnsBit : Prop :=
  ∀ (r : Imm) (s : State),
    decode (0x45#8 ++ (0#24 ++ r)) = .ok (.test r) ∧
    exec (.test r) s = .next { s with
      resp := answer (if r.toNat < s.outCap.toNat ∧ (Memory.read s.outBlk (r.toNat / 8)).getLsbD (7 - r.toNat % 8) = true
        then 1#64 else 0#64) } ∧
    (s.OutWf → s.outLen.toNat ≤ r.toNat → exec (.test r) s = .next { s with resp := answer 0#64 })

/-- RDOUT: its word; it returns a block of `OUT`, 0 outside the capacity, its ranks not written read 0, and nothing changes
(40_bitvector_code.md R103). -/
def Obligations.RdoutReturnsBlock : Prop :=
  ∀ (b : Imm) (s : State),
    decode (0x46#8 ++ (0#24 ++ b)) = .ok (.rdout b) ∧
    ∃ v : Word, exec (.rdout b) s = .next { s with resp := answer v } ∧
      v = (if 8 * b.toNat < s.outCap.toNat then (Memory.read s.outBlk b.toNat).setWidth 64 else 0#64) ∧
      (s.OutWf → ∀ j < 8, s.outLen.toNat ≤ 8 * b.toNat + j → v.getLsbD (7 - j) = false)

/-- A block and the bits of its ranks agree: bit 7 - j of the block RDOUT returns is the bit TEST returns at rank 8b + j
(40_bitvector_code.md R91, R103; 20_memory.md R51). -/
def Obligations.RdoutAgreesWithTest : Prop :=
  ∀ (s : State) (b r : Imm) (j : Nat), s.OutWf → j < 8 → r.toNat = 8 * b.toNat + j →
    ∃ x y : Word, exec (.rdout b) s = .next { s with resp := answer x } ∧
      exec (.test r) s = .next { s with resp := answer y } ∧ (x.getLsbD (7 - j) = true ↔ y = 1#64)

/-- Growth doubles, covers the rank and stops as soon as it does; set and clear write one rank; nothing else is lost; append
adds one bit at the end (40_bitvector_code.md R92, R93, R94, R97, R104). -/
def Obligations.BitVectorOperations : Prop :=
  (∀ (b : BitVector) (r q : Nat), 0 < b.cap → (∀ x, b.cap ≤ x → Memory.bit b.blk x = false) →
    r < (b.grow r).cap ∧ (∃ j, (b.grow r).cap = b.cap * 2 ^ j) ∧ ((b.grow r).cap = b.cap ∨ (b.grow r).cap ≤ 2 * r) ∧
    (b.set r).cap = (b.grow r).cap ∧ (b.clear r).cap = (b.grow r).cap ∧
    (b.set r).test r = true ∧ (b.clear r).test r = false ∧ (b.grow r).test q = b.test q ∧
    (q ≠ r → (b.set r).test q = b.test q ∧ (b.clear r).test q = b.test q)) ∧
  ∀ (c : Code) (bit : Bool), 0 < c.bv.cap → (∀ x, c.bv.cap ≤ x → Memory.bit c.bv.blk x = false) →
    (c.append bit).len = c.len + 1 ∧ (c.append bit).render = c.render ++ [bit]

/-! ## The frequency table -/

/-- FEED: its word, its count, WeightOverflow at `WMAX`, PhaseError outside COLLECT (41_frequency.md R110). -/
def Obligations.FeedCounts : Prop :=
  ∀ (c : Symbol) (s : State),
    decode (0x10#8 ++ (c ++ 0#48)) = .ok (.feed c) ∧
    (s.phase ≠ .collect →
      exec (.feed c) s = .next { s with pherr := true, lasterr := .phaseError, resp := reported .phaseError }) ∧
    (s.phase = .collect → (s.freqAt c).toNat = 4294967295 →
      exec (.feed c) s = .next { s with wovf := true, lasterr := .weightOverflow, resp := reported .weightOverflow }) ∧
    (s.phase = .collect → (s.freqAt c).toNat < 4294967295 → ∃ t, exec (.feed c) s = .next t ∧
      t = { s with freq := t.freq, resp := answer 0#64 } ∧ (t.freqAt c).toNat = (s.freqAt c).toNat + 1 ∧
      ∀ d, d ≠ c → t.freqAt d = s.freqAt d)

/-- SETF: its word, its write, PhaseError outside COLLECT (41_frequency.md R111). -/
def Obligations.SetfWrites : Prop :=
  ∀ (c : Symbol) (n : Imm) (s : State),
    decode (0x11#8 ++ (c ++ (0#16 ++ n))) = .ok (.setf c n) ∧
    (s.phase ≠ .collect →
      exec (.setf c n) s = .next { s with pherr := true, lasterr := .phaseError, resp := reported .phaseError }) ∧
    (s.phase = .collect → ∃ t, exec (.setf c n) s = .next t ∧ t = { s with freq := t.freq, resp := answer 0#64 } ∧
      t.freqAt c = n ∧ ∀ d, d ≠ c → t.freqAt d = s.freqAt d)

/-- RDFREQ: its word, its value in every phase, and nothing changes (41_frequency.md R112). -/
def Obligations.RdfreqReads : Prop :=
  ∀ (c : Symbol) (s : State),
    decode (0x41#8 ++ (c ++ 0#48)) = .ok (.rdfreq c) ∧
    exec (.rdfreq c) s = .next { s with resp := answer ((s.freqAt c).setWidth 64) }

/-! ## The tree builder -/

/-- BUILD with a total above `WMAX`: WeightOverflow and nothing else (42_treebuilder.md R125, R130; 60_exceptions.md R203). -/
def Obligations.BuildOverflow : Prop :=
  ∀ s : State, s.phase = .collect →
    4294967295 < ((List.range 256).map (fun c => (s.freqAt (BitVec.ofNat 8 c)).toNat)).sum →
    exec .build s = .next { s with wovf := true, lasterr := .weightOverflow, resp := reported .weightOverflow }

/-- BUILD of an empty FrequencyTable, and what GEN and ENC then make of it (42_treebuilder.md R126). -/
def Obligations.BuildEmptyTable : Prop :=
  ∀ s : State, s.phase = .collect → (∀ c, s.freqAt c = 0#32) →
    exec .build s = .next { s with
      rootv := false, rootidx := 0#9, nnodes := 0#10, nsyms := 0#9, empty := true, degen := false, phase := .built
      pq := [], lasterr := .emptyCorpus, resp := reported .emptyCorpus } ∧
    ∃ u, execAll construct s = .next u ∧ u.phase = .ready ∧ u.NoCodes ∧
      ∀ c, ∃ v, exec (.enc c) u = .next v ∧ v.resp = reported .unknownSymbol ∧
        v.outLen = u.outLen ∧ v.outCap = u.outCap ∧ v.outBlk = u.outBlk

/-- BUILD of one distinct symbol (42_treebuilder.md R127). -/
def Obligations.BuildOneSymbol : Prop :=
  ∀ (s : State) (c : Symbol), s.phase = .collect → s.freqAt c ≠ 0#32 → (∀ d, d ≠ c → s.freqAt d = 0#32) →
    ∃ t, exec .build s = .next t ∧
      t = { s with
        node := t.node, rootv := true, rootidx := 0#9, nnodes := 1#10, nsyms := 1#9, empty := false, degen := true
        phase := .built, pq := [], lasterr := .degenerateAlphabet
        resp := some { err := .degenerateAlphabet, data := 1#64 } } ∧
      t.nodeAt 0 = .leaf c (s.freqAt c) ∧ ∀ i, 0 < i → t.nodeAt i = s.nodeAt i

/-- BUILD of at least two symbols: the registers, the leaves, the root and its weight, and what it leaves unchanged
(42_treebuilder.md R123, R125, R128, R130). -/
def Obligations.BuildCompletes : Prop :=
  ∀ s : State, s.phase = .collect → s.freqTotal ≤ 4294967295 → 2 ≤ s.presentSymbols.length →
    ∃ t, exec .build s = .next t ∧
      t = { s with
        node := t.node, rootv := true, rootidx := BitVec.ofNat 9 (2 * s.presentSymbols.length - 2)
        nnodes := BitVec.ofNat 10 (2 * s.presentSymbols.length - 1), nsyms := BitVec.ofNat 9 s.presentSymbols.length
        empty := false, degen := false, phase := .built, pq := []
        resp := answer (BitVec.ofNat 64 s.presentSymbols.length) } ∧
      (∀ i c, s.presentSymbols[i]? = some c → t.nodeAt i = .leaf c (s.freqAt c)) ∧
      (t.nodeAt (2 * s.presentSymbols.length - 2)).weight.toNat = s.freqTotal ∧
      ∀ i, 2 * s.presentSymbols.length - 1 ≤ i → t.nodeAt i = s.nodeAt i

/-- The extraction order picks the one element that precedes every other, and removes it (42_treebuilder.md R120, R122). -/
def Obligations.ExtractMinIsLeast : Prop :=
  ∀ (node : Table TreeNode) (pq : List Nat), pq.Nodup → pq ≠ [] →
    ∃ i rest, pqExtractMin node pq = some (i, rest) ∧ i ∈ pq ∧ (∀ j, j ∈ rest ↔ j ∈ pq ∧ j ≠ i) ∧
      rest.length + 1 = pq.length ∧
      ∀ j ∈ rest, (nodeRead node i).weight.toNat < (nodeRead node j).weight.toNat ∨
        ((nodeRead node i).weight.toNat = (nodeRead node j).weight.toNat ∧ i < j)

/-- BUILD leaves the tree of the Huffman merge: shape, weights, parents and merge order (42_treebuilder.md R124, R128;
10_state.md R37; 46_properties.md R186). That the internal weights are non-decreasing (`rising`) is the sentence R186 marks
as general knowledge. -/
def Obligations.BuildMakesTree : Prop :=
  ∀ s : State, s.phase = .collect → s.freqTotal ≤ 4294967295 → ∃ t, exec .build s = .next t ∧ t.TreeOk

/-- RDNODE: its word, the packing of its data, zero for an index that is not allocated (in a good state every index in COLLECT
and every index from 511 on), and nothing changes (42_treebuilder.md R129). -/
def Obligations.RdnodeFields : Prop :=
  ∀ (n : Imm) (s : State),
    decode (0x42#8 ++ (0#24 ++ n)) = .ok (.rdnode n) ∧
    (s.nnodes.toNat ≤ n.toNat → exec (.rdnode n) s = .next { s with resp := answer 0#64 }) ∧
    (n.toNat < s.nnodes.toNat → ∃ v : Word, exec (.rdnode n) s = .next { s with resp := answer v } ∧
      v.extractLsb' 0 32 = (s.nodeAt n.toNat).weight ∧ v.extractLsb' 32 9 = (s.nodeAt n.toNat).left ∧
      v.extractLsb' 41 9 = (s.nodeAt n.toNat).right ∧ v.extractLsb' 50 8 = (s.nodeAt n.toNat).sym ∧
      v.extractLsb' 58 4 = 0#4 ∧ v.getLsbD 62 = (s.nodeAt n.toNat).tag ∧ v.getLsbD 63 = true) ∧
    (s.Inv → s.phase = .collect ∨ 511 ≤ n.toNat → exec (.rdnode n) s = .next { s with resp := answer 0#64 })

/-! ## The code generator -/

/-- GEN without a root writes no code and completes with count 0 (43_codegen.md R144). -/
def Obligations.GenWithoutRoot : Prop :=
  ∀ s : State, s.phase = .built → s.rootv = false → s.bfsq = [] →
    ∃ t, exec .gen s = .next t ∧ t = { s with ct := t.ct, phase := .ready, resp := answer 0#64 } ∧
      ∀ c, (t.ctAt c).valid = false

/-- GEN with a leaf root gives its symbol the one-bit Code "0" (43_codegen.md R143). -/
def Obligations.GenLeafRoot : Prop :=
  ∀ (s : State) (c : Symbol) (w : Weight), s.phase = .built → s.rootv = true → s.nodeAt s.rootidx.toNat = .leaf c w →
    s.bfsq = [] →
    ∃ t, exec .gen s = .next t ∧ t = { s with ct := t.ct, phase := .ready, resp := answer 1#64 } ∧
      (t.ctAt c).valid = true ∧ (t.ctAt c).len = 1#9 ∧ Memory.read (t.ctAt c).blk 0 = 0x00#8 ∧ t.codeBits c = [false] ∧
      ∀ d, d ≠ c → (t.ctAt d).valid = false

/-- GEN from a good state: it completes, counts k, writes only `CT` and `PHASE`, and gives exactly the present symbols the
branch bits of their leaves (43_codegen.md R141, R142, R145, R148; 46_properties.md R187). -/
def Obligations.GenMakesCodes : Prop :=
  ∀ s : State, s.Inv → s.phase = .built →
    ∃ t, exec .gen s = .next t ∧
      t = { s with ct := t.ct, phase := .ready, resp := answer (s.nsyms.setWidth 64) } ∧ t.CodesOk

/-- RDLEN: its word, its data, not valid before READY, and nothing changes (43_codegen.md R146). -/
def Obligations.RdlenReads : Prop :=
  ∀ (c : Symbol) (s : State),
    decode (0x43#8 ++ (c ++ 0#48)) = .ok (.rdlen c) ∧
    ((s.ctAt c).valid = false → exec (.rdlen c) s = .next { s with resp := answer 0#64 }) ∧
    ((s.ctAt c).valid = true → ∃ v : Word, exec (.rdlen c) s = .next { s with resp := answer v } ∧
      v.extractLsb' 0 9 = (s.ctAt c).len ∧ v.extractLsb' 9 22 = 0#22 ∧ v.getLsbD 31 = true ∧ v.extractLsb' 32 32 = 0#32) ∧
    (s.Inv → s.phase ≠ .ready → exec (.rdlen c) s = .next { s with resp := answer 0#64 })

/-- RDCODE: its word, its block, zero for a symbol without a code, outside the record and at ranks beyond the code, bit
7 - j of block b being rank 8 b + j of the code, and nothing changes (43_codegen.md R147). -/
def Obligations.RdcodeReads : Prop :=
  ∀ (c : Symbol) (b : Imm) (s : State),
    decode (0x44#8 ++ (c ++ (0#16 ++ b))) = .ok (.rdcode c b) ∧
    ((s.ctAt c).valid = false ∨ 32 ≤ b.toNat → exec (.rdcode c b) s = .next { s with resp := answer 0#64 }) ∧
    ((s.ctAt c).valid = true → b.toNat < 32 →
      exec (.rdcode c b) s = .next { s with resp := answer ((Memory.read (s.ctAt c).blk b.toNat).setWidth 64) }) ∧
    (s.Inv → ∃ v : Word, exec (.rdcode c b) s = .next { s with resp := answer v } ∧
      ∀ j < 8, ((s.ctAt c).len.toNat ≤ 8 * b.toNat + j → v.getLsbD (7 - j) = false) ∧
        ((s.ctAt c).valid = true → 8 * b.toNat + j < (s.ctAt c).len.toNat →
          (s.codeBits c)[8 * b.toNat + j]? = some (v.getLsbD (7 - j))))

/-! ## The encoder -/

/-- ENC of a known symbol whose code fits appends exactly its code to `OUT` and changes nothing else; the bits and blocks
outside the appended ranks stay (44_encoder.md R155; 40_bitvector_code.md R92). -/
def Obligations.EncAppendsCode : Prop :=
  ∀ (c : Symbol) (s : State), s.OutWf → s.phase = .ready → (s.ctAt c).valid = true →
    s.outLen.toNat + (s.ctAt c).len.toNat ≤ 65536 →
    ∃ t, exec (.enc c) s = .next t ∧
      t = { s with outLen := t.outLen, outCap := t.outCap, outBlk := t.outBlk, resp := answer ((s.ctAt c).len.setWidth 64) } ∧
      t.outLen.toNat = s.outLen.toNat + (s.ctAt c).len.toNat ∧
      t.outBits = s.outBits ++ s.codeBits c ∧
      (s.outLen.toNat + (s.ctAt c).len.toNat ≤ s.outCap.toNat → t.outCap = s.outCap) ∧
      (s.outCap.toNat < s.outLen.toNat + (s.ctAt c).len.toNat →
        t.outLen.toNat ≤ t.outCap.toNat ∧ t.outCap.toNat < 2 * t.outLen.toNat ∧
          ∃ j, t.outCap.toNat = s.outCap.toNat * 2 ^ j) ∧
      (∀ r, r < s.outLen.toNat ∨ t.outLen.toNat ≤ r → Memory.bit t.outBlk r = Memory.bit s.outBlk r) ∧
      ∀ b, 8 * b + 8 ≤ s.outLen.toNat ∨ t.outLen.toNat ≤ 8 * b → Memory.read t.outBlk b = Memory.read s.outBlk b

/-- ENC of a symbol without a code skips it, with the warning, the flag and the saturating count (44_encoder.md R156,
60_exceptions.md R207). -/
def Obligations.EncSkipsUnknown : Prop :=
  ∀ (c : Symbol) (s : State), s.phase = .ready → (s.ctAt c).valid = false → ∃ t, exec (.enc c) s = .next t ∧
    t = { s with unk := true, unkcnt := t.unkcnt, lasterr := .unknownSymbol, resp := reported .unknownSymbol } ∧
    t.unkcnt.toNat = min (s.unkcnt.toNat + 1) 4294967295

/-- ENC of a code that does not fit appends nothing: OutputOverflow (44_encoder.md R157, 60_exceptions.md R204). -/
def Obligations.EncOverflow : Prop :=
  ∀ (c : Symbol) (s : State), s.phase = .ready → (s.ctAt c).valid = true →
    65536 < s.outLen.toNat + (s.ctAt c).len.toNat →
    exec (.enc c) s = .next { s with oovf := true, lasterr := .outputOverflow, resp := reported .outputOverflow }

/-- A sequence of ENC appends the codes of the known characters in order, the length grows by their sum, and the skipped
characters are counted (44_encoder.md R158). -/
def Obligations.EncSequence : Prop :=
  ∀ (text : List Symbol) (s : State), s.OutWf → s.phase = .ready →
    s.outLen.toNat + ((s.knownText text).map (fun c => (s.ctAt c).len.toNat)).sum ≤ 65536 →
    ∃ t, execAll (encodeText text) s = .next t ∧
      t.outBits = s.outBits ++ (s.knownText text).flatMap s.codeBits ∧
      t.outLen.toNat = s.outLen.toNat + ((s.knownText text).map (fun c => (s.ctAt c).len.toNat)).sum ∧
      t.unkcnt.toNat = min (s.unkcnt.toNat + (text.length - (s.knownText text).length)) 4294967295 ∧
      t.ct = s.ct ∧ t.node = s.node ∧ t.freq = s.freq ∧ t.phase = .ready

/-! ## Reads and frames over all commands -/

/-- A read changes nothing but the response port, and its response does not depend on that port: repeating it gives the same
response until a writing command intervenes (20_memory.md R56). -/
def Obligations.ReadsChangeNothing : Prop :=
  ∀ (i : Instr) (s : State), isRead i = true → i.wellFormed = true → ∃ d : Word, ∀ r : Option Response,
    exec i { s with resp := r } = .next { s with resp := answer d }

/-- Reads outside a memory return zero (20_memory.md R54). -/
def Obligations.OutOfRangeReadsZero : Prop :=
  ∀ (s : State) (n : Imm) (c : Symbol),
    (s.outCap.toNat ≤ n.toNat → exec (.test n) s = .next { s with resp := answer 0#64 }) ∧
    (s.outCap.toNat / 8 ≤ n.toNat → 8 ∣ s.outCap.toNat → exec (.rdout n) s = .next { s with resp := answer 0#64 }) ∧
    (32 ≤ n.toNat ∨ (s.ctAt c).valid = false → exec (.rdcode c n) s = .next { s with resp := answer 0#64 }) ∧
    ((s.ctAt c).valid = false → exec (.rdlen c) s = .next { s with resp := answer 0#64 }) ∧
    (s.nnodes.toNat ≤ n.toNat → exec (.rdnode n) s = .next { s with resp := answer 0#64 })

/-- Immutability by phase: who may write `FREQ`, the tree and its registers, and `CT` (20_memory.md R65). -/
def Obligations.ImmutableByPhase : Prop :=
  ∀ (i : Instr) (s t : State), exec i s = .next t →
    (s.phase ≠ .collect → i ≠ .clrall → t.freq = s.freq) ∧
    (i ≠ .build → i ≠ .clrall → t.rootidx = s.rootidx ∧ t.rootv = s.rootv ∧ t.nnodes = s.nnodes ∧ t.nsyms = s.nsyms ∧
      t.empty = s.empty ∧ t.degen = s.degen) ∧
    (i ≠ .build → t.node = s.node) ∧
    (i ≠ .gen → i ≠ .clrall → t.ct = s.ct) ∧
    (s.phase = .ready → i ≠ .clrall → t.freq = s.freq ∧ t.node = s.node ∧ t.ct = s.ct ∧ t.rootidx = s.rootidx ∧
      t.rootv = s.rootv ∧ t.nnodes = s.nnodes ∧ t.nsyms = s.nsyms ∧ t.empty = s.empty ∧ t.degen = s.degen)

/-- Stickiness: no command but CLRERR, legal or not, lowers a sticky flag or `UNKCNT` (46_properties.md R190). -/
def Obligations.StickyFlagsStay : Prop :=
  ∀ s t : State, step s = .next t → s.nextCommand ≠ some (encode .clrerr) → s.host.head? ≠ some .reset →
    (s.ill = true → t.ill = true) ∧ (s.pherr = true → t.pherr = true) ∧ (s.wovf = true → t.wovf = true) ∧
    (s.oovf = true → t.oovf = true) ∧ (s.unk = true → t.unk = true) ∧ s.unkcnt.toNat ≤ t.unkcnt.toNat

/-! ## Invariants -/

/-- Reset is a good state (70_reset_and_hazards.md R231). The canonical form of the memories in `Inv` is the model's
representation (log 7). -/
def Obligations.ResetIsGood : Prop := State.reset.Inv

/-- Every step keeps every memory, the blocks of each code-table record among them, inside its address space (20_memory.md
R50) and in canonical form: the form is the model's representation, its own choice (log 7), no rule of the spec. -/
def Obligations.StepKeepsMemories : Prop := ∀ s t : State, s.MemoriesWf → step s = .next t → t.MemoriesWf

/-- The invariants of the bit store hold at reset and are kept by every step, and stored bits and capacity are only lowered
by CLROUT, CLRALL and reset (46_properties.md R189). -/
def Obligations.StepKeepsBitStore : Prop :=
  State.reset.OutWf ∧
  ∀ s t : State, s.OutWf → step s = .next t → t.OutWf ∧
    (s.nextCommand ≠ some (encode .clrout) → s.nextCommand ≠ some (encode .clrall) → s.host.head? ≠ some .reset →
      (∀ r < s.outLen.toNat, Memory.bit t.outBlk r = Memory.bit s.outBlk r) ∧ s.outLen.toNat ≤ t.outLen.toNat ∧
        s.outCap.toNat ≤ t.outCap.toNat)

/-- The headline invariant: every step from a good state, whatever the host does next, leaves a good state: memories, bit
store, life cycle registers, tree and code table (10_state.md R36 to R42, 46_properties.md R186, R187, R189). The canonical form
of the memories in `Inv` is the model's representation (log 7), and `rising` in `TreeOk` is R186's general-knowledge
sentence. -/
def Obligations.StepKeepsGoodState : Prop := ∀ s t : State, s.Inv → step s = .next t → t.Inv

/-! ## Headline properties of the code -/

/-- Prefix-freeness: no code is a beginning of another (46_properties.md R180). -/
def Obligations.CodesPrefixFree : Prop :=
  ∀ s : State, s.Inv → s.phase = .ready → 2 ≤ s.leafCount → PrefixFree s.presentSymbols s.codeBits

/-- The Kraft sum of the codes is 1 (46_properties.md R185, marked there as general knowledge), and 1/2 for one symbol. -/
def Obligations.CodesKraftEquality : Prop :=
  ∀ s : State, s.Inv → s.phase = .ready →
    (2 ≤ s.leafCount → s.kraftSum = 2 ^ 256) ∧ (s.leafCount = 1 → s.kraftSum = 2 ^ 255)

/-- The total weighted code length is the sum of the internal nodes' weights (46_properties.md R181, marked there as general
knowledge). -/
def Obligations.WeightedLengthIsInternalWeight : Prop :=
  ∀ s : State, s.Inv → s.phase = .ready → 2 ≤ s.leafCount → s.weightedLength = s.internalWeight

/-- Optimality: no prefix-free code of the present symbols has a smaller total weighted length; one symbol costs its count
(46_properties.md R181). -/
def Obligations.CodesOptimal : Prop :=
  ∀ s : State, s.Inv → s.phase = .ready →
    (2 ≤ s.leafCount → ∀ code : Symbol → List Bool, PrefixFree s.presentSymbols code →
      s.weightedLength ≤ (s.presentSymbols.map (fun c => (s.freqAt c).toNat * (code c).length)).sum) ∧
    (s.leafCount = 1 → s.weightedLength = s.freqTotal)

/-- Round trip: decoding what ENC made of a text, from an empty `OUT`, gives the characters that have a code
(46_properties.md R183). -/
def Obligations.DecodeRoundTrip : Prop :=
  ∀ (text : List Symbol) (s : State), s.Inv → s.phase = .ready → s.outLen = 0#17 →
    ((s.knownText text).map (fun c => (s.ctAt c).len.toNat)).sum ≤ 65536 →
    ∃ t, execAll (encodeText text) s = .next t ∧ t.decodeText t.outBits = s.knownText text

/-- Encoding the corpus itself from an empty `OUT` gives the total weighted length (46_properties.md R188). -/
def Obligations.CorpusEncodedLength : Prop :=
  ∀ (text : List Symbol) (s : State), s.Inv → s.phase = .ready → s.outLen = 0#17 → s.weightedLength ≤ 65536 →
    (∀ c ∈ s.presentSymbols, text.count c = (s.freqAt c).toNat) →
    ∃ t, execAll (encodeText text) s = .next t ∧ t.outLen.toNat = s.weightedLength

/-- Determinism: two good states with the same `FREQ` have the same tree and the same codes after BUILD and GEN
(46_properties.md R182). -/
def Obligations.ConstructionDeterministic : Prop :=
  ∀ s t s' : State, s.Inv → t.Inv → s.phase = .collect → t.phase = .collect → (∀ c, s.freqAt c = t.freqAt c) →
    execAll construct s = .next s' → ∃ t', execAll construct t = .next t' ∧
      t'.rootidx = s'.rootidx ∧ t'.rootv = s'.rootv ∧ t'.nnodes = s'.nnodes ∧ t'.nsyms = s'.nsyms ∧ t'.phase = s'.phase ∧
      (∀ i < s'.nnodes.toNat, t'.nodeAt i = s'.nodeAt i) ∧
      ∀ c, (t'.ctAt c).valid = (s'.ctAt c).valid ∧ ((s'.ctAt c).valid = true → t'.ctAt c = s'.ctAt c)

/-- No response depends on contents the spec leaves unspecified: two states that differ only in masked contents, the first
of them good, answer alike and stay alike, whatever the host does; `FREQ` and `OUT.blk` are zero after reset
(70_reset_and_hazards.md R232). -/
def Obligations.UnspecifiedContentsUnobservable : Prop :=
  (∀ s t s' : State, s.Inv → s.Agree t → step s = .next s' → ∃ t', step t = .next t' ∧ s'.Agree t') ∧
  (∀ c, State.reset.freqAt c = 0#32) ∧ ∀ b, Memory.read State.reset.outBlk b = 0x00#8

/-- CLRALL is reset but for the sticky flags, `UNKCNT`, `LASTERR` and the response; after CLRALL and CLRERR every sequence of
commands answers as it does after reset and ends in the same state, masked contents apart (70_reset_and_hazards.md R234). -/
def Obligations.ClrallClrerrIsReset : Prop :=
  ∀ s : State, s.TransientEmpty →
    (∃ t, exec .clrall s = .next t ∧ State.Agree { State.reset with
      ill := s.ill, pherr := s.pherr, wovf := s.wovf, oovf := s.oovf, unk := s.unk, unkcnt := s.unkcnt
      lasterr := s.lasterr, resp := answer 0#64, host := s.host } t) ∧
    ∀ (cmds : List Instr) (u : State),
      execAll cmds { State.reset with resp := answer 0#64, host := s.host } = .next u →
      ∃ t, execAll (.clrall :: .clrerr :: cmds) s = .next t ∧ u.Agree t
end

