-- ==== Sys2Proof/Laws/Table.lean ====
section
/-! SUPPORT. The laws of memories: a read after a write, and every memory operation keeps the canonical form. -/

namespace Sys2Proof.Machine

variable {α : Type} {d v : α} {m : Table α} {a b bound : Nat}

@[simp] theorem Table.read_nil : Table.read d [] a = d := rfl

@[simp] theorem Table.read_cons (c : Nat × α) :
    Table.read d (c :: m) a = if c.1 = a then c.2 else Table.read d m a := rfl

/-- An index that is not listed reads as the default. -/
theorem Table.read_of_not_mem (h : ∀ c ∈ m, c.1 ≠ a) : Table.read d m a = d := by
  induction m with
  | nil => rfl
  | cons c m ih =>
    rw [Table.read_cons, if_neg (h c (List.mem_cons_self ..))]
    exact ih fun x hx => h x (List.mem_cons_of_mem _ hx)

/-- A listed entry of a table with rising indices is what its index reads as. -/
theorem Table.read_of_mem (hs : m.Pairwise (fun x y => x.1 < y.1)) (h : (a, v) ∈ m) : Table.read d m a = v := by
  induction m with
  | nil => cases h
  | cons c m ih =>
    rw [List.pairwise_cons] at hs
    rcases List.mem_cons.1 h with rfl | h
    · simp
    · have : c.1 ≠ a := Nat.ne_of_lt (hs.1 _ h)
      rw [Table.read_cons, if_neg this, ih hs.2 h]

theorem Table.read_filter_ne (h : b ≠ a) :
    Table.read d (m.filter (fun c => c.1 != a)) b = Table.read d m b := by
  induction m with
  | nil => rfl
  | cons c m ih =>
    by_cases hc : c.1 = a
    · have : c.1 ≠ b := by omega
      simp [hc, ih, Ne.symm h]
    · simp [hc, ih]

theorem Table.read_insert_same (h : ∀ c ∈ m, c.1 ≠ a) : Table.read d (Table.insert a v m) a = v := by
  induction m with
  | nil => simp [Table.insert]
  | cons c m ih =>
    have hc := h c (List.mem_cons_self ..)
    have ih := ih fun x hx => h x (List.mem_cons_of_mem _ hx)
    by_cases hlt : a < c.1 <;> simp [Table.insert, hlt, hc, ih]

theorem Table.read_insert_other (h : b ≠ a) : Table.read d (Table.insert a v m) b = Table.read d m b := by
  induction m with
  | nil => simp [Table.insert, Ne.symm h]
  | cons c m ih => by_cases hlt : a < c.1 <;> simp [Table.insert, hlt, Ne.symm h, ih]

variable [DecidableEq α]

/-- Read after write, same index. -/
@[simp] theorem Table.read_write_same : Table.read d (Table.write d m a v) a = v := by
  have hno : ∀ c ∈ m.filter (fun c => c.1 != a), c.1 ≠ a := by simp
  unfold Table.write
  by_cases hv : v = d
  · simp only [hv, if_true]; exact Table.read_of_not_mem hno
  · simp only [hv, if_false]; exact Table.read_insert_same hno

/-- Read after write, another index. -/
theorem Table.read_write_other (h : b ≠ a) : Table.read d (Table.write d m a v) b = Table.read d m b := by
  unfold Table.write
  by_cases hv : v = d
  · simp only [hv, if_true]; exact Table.read_filter_ne h
  · simp only [hv, if_false]; rw [Table.read_insert_other h, Table.read_filter_ne h]

/-- Read after write, any index. -/
theorem Table.read_write : Table.read d (Table.write d m a v) b = if b = a then v else Table.read d m b := by
  by_cases h : b = a
  · subst h; simp
  · rw [if_neg h, Table.read_write_other h]

omit [DecidableEq α] in
theorem Table.mem_insert {c : Nat × α} : c ∈ Table.insert a v m ↔ c = (a, v) ∨ c ∈ m := by
  induction m with
  | nil => simp [Table.insert]
  | cons e m ih =>
    by_cases hlt : a < e.1
    · simp [Table.insert, hlt]
    · simp only [Table.insert, hlt, if_false, List.mem_cons, ih]; tauto

omit [DecidableEq α] in
theorem Table.rising_insert (hs : m.Pairwise (fun x y => x.1 < y.1)) (hno : ∀ c ∈ m, c.1 ≠ a) :
    (Table.insert a v m).Pairwise (fun x y => x.1 < y.1) := by
  induction m with
  | nil => simp [Table.insert]
  | cons e m ih =>
    have he := hno e (List.mem_cons_self ..)
    have hm := List.pairwise_cons.1 hs
    by_cases hlt : a < e.1
    · simp only [Table.insert, hlt, if_true]
      refine List.pairwise_cons.2 ⟨?_, hs⟩
      intro x hx
      rcases List.mem_cons.1 hx with rfl | hx
      · exact hlt
      · exact Nat.lt_trans hlt (hm.1 x hx)
    · simp only [Table.insert, hlt, if_false]
      refine List.pairwise_cons.2 ⟨?_, ih hm.2 fun x hx => hno x (List.mem_cons_of_mem _ hx)⟩
      intro x hx
      rcases Table.mem_insert.1 hx with rfl | hx
      · show e.1 < a; omega
      · exact hm.1 x hx

/-- A listed entry after a write is the written one or an old one. -/
theorem Table.mem_write {c : Nat × α} (h : c ∈ Table.write d m a v) : c = (a, v) ∨ c ∈ m := by
  unfold Table.write at h
  by_cases hv : v = d
  · simp only [hv, if_true] at h; exact .inr (List.mem_of_mem_filter h)
  · simp only [hv, if_false] at h
    rcases Table.mem_insert.1 h with h | h
    · exact .inl h
    · exact .inr (List.mem_of_mem_filter h)

/-- A write keeps the canonical form. -/
theorem Table.canonical_write (h : Table.canonical d m) : Table.canonical d (Table.write d m a v) := by
  have hs := h.1.filter (fun c => c.1 != a)
  have hd : ∀ c ∈ m.filter (fun c => c.1 != a), c.2 ≠ d := fun c hc => h.2 c (List.mem_of_mem_filter hc)
  unfold Table.write
  by_cases hv : v = d
  · simp only [hv, if_true]; exact ⟨hs, hd⟩
  · simp only [hv, if_false]
    refine ⟨Table.rising_insert hs (by simp), ?_⟩
    intro c hc
    rcases Table.mem_insert.1 hc with rfl | hc
    · exact hv
    · exact hd c hc

/-- A write inside the bound keeps every index inside the bound. -/
theorem Table.within_write (h : Table.within bound m) (ha : a < bound) : Table.within bound (Table.write d m a v) := by
  intro c hc
  rcases Table.mem_write hc with rfl | hc
  · exact ha
  · exact h c hc

/-- A write inside the bound keeps a memory well formed. -/
theorem Table.wf_write (h : Table.wf d bound m) (ha : a < bound) : Table.wf d bound (Table.write d m a v) :=
  ⟨Table.canonical_write h.1, Table.within_write h.2 ha⟩

@[simp] theorem Table.wf_nil : Table.wf d bound ([] : Table α) := by simp [Table.wf, Table.canonical, Table.within]

/-- A listed index of a canonical table does not read as the default. -/
theorem Table.read_ne_of_mem (h : Table.canonical d m) {c : Nat × α} (hc : c ∈ m) : Table.read d m c.1 ≠ d := by
  rw [Table.read_of_mem h.1 (show (c.1, c.2) ∈ m from hc)]; exact h.2 c hc

/-- Canonical tables that read alike are equal: equal memories are equal data. -/
theorem Table.ext_of_read {m' : Table α} (h : Table.canonical d m) (h' : Table.canonical d m')
    (heq : ∀ a, Table.read d m a = Table.read d m' a) : m = m' := by
  induction m generalizing m' with
  | nil =>
    cases m' with
    | nil => rfl
    | cons c m' => exact absurd (heq c.1).symm (Table.read_ne_of_mem h' (List.mem_cons_self ..))
  | cons c m ih =>
    cases m' with
    | nil => exact absurd (heq c.1) (Table.read_ne_of_mem h (List.mem_cons_self ..))
    | cons c' m' =>
      have hc := List.pairwise_cons.1 h.1
      have hc' := List.pairwise_cons.1 h'.1
      have low : ∀ {e : Nat × α} {l : Table α}, (∀ x ∈ l, e.1 < x.1) → ∀ k, k < e.1 → Table.read d (e :: l) k = d := by
        intro e l hl k hk
        apply Table.read_of_not_mem
        intro x hx
        rcases List.mem_cons.1 hx with rfl | hx
        · omega
        · have := hl x hx; omega
      have hkey : c.1 = c'.1 := by
        rcases Nat.lt_trichotomy c.1 c'.1 with hlt | heq' | hlt
        · exact absurd ((heq c.1).trans (low hc'.1 _ hlt)) (Table.read_ne_of_mem h (List.mem_cons_self ..))
        · exact heq'
        · exact absurd ((heq c'.1).symm.trans (low hc.1 _ hlt)) (Table.read_ne_of_mem h' (List.mem_cons_self ..))
      have hval : c.2 = c'.2 := by simpa [hkey] using heq c.1
      have hcc : c = c' := Prod.ext hkey hval
      subst hcc
      have htail : m = m' := by
        refine ih ⟨hc.2, fun x hx => h.2 x (List.mem_cons_of_mem _ hx)⟩
          ⟨hc'.2, fun x hx => h'.2 x (List.mem_cons_of_mem _ hx)⟩ fun k => ?_
        by_cases hk : c.1 = k
        · rw [Table.read_of_not_mem (m := m) (fun x hx => by have := hc.1 x hx; omega),
            Table.read_of_not_mem (m := m') (fun x hx => by have := hc'.1 x hx; omega)]
        · simpa [hk] using heq k
      rw [htail]

/-- What an index reads as after a function is applied at a list of distinct indices. -/
theorem Table.read_updateAt (f : α → α) (l : List Nat) (hl : l.Nodup) :
    Table.read d (Table.updateAt d f m l) b = if b ∈ l then f (Table.read d m b) else Table.read d m b := by
  induction l generalizing m with
  | nil => simp [Table.updateAt]
  | cons a l ih =>
    have hl' := List.nodup_cons.1 hl
    show Table.read d (Table.updateAt d f (Table.write d m a (f (Table.read d m a))) l) b = _
    rw [ih hl'.2, Table.read_write]
    by_cases hb : b = a
    · subst hb; simp [hl'.1]
    · simp [hb]

/-- Applying a function at indices inside the bound keeps a memory well formed. -/
theorem Table.wf_updateAt (f : α → α) (l : List Nat) (hl : ∀ a ∈ l, a < bound) (h : Table.wf d bound m) :
    Table.wf d bound (Table.updateAt d f m l) := by
  induction l generalizing m with
  | nil => exact h
  | cons a l ih =>
    exact ih (fun x hx => hl x (List.mem_cons_of_mem _ hx)) (Table.wf_write h (hl a (List.mem_cons_self ..)))

/-! ## The engine's memories -/

@[simp] theorem Memory.read_write_same {m : Memory} {b : Nat} {v : Block} :
    Memory.read (Memory.write m b v) b = v := Table.read_write_same

theorem Memory.read_write {m : Memory} {b b' : Nat} {v : Block} :
    Memory.read (Memory.write m b v) b' = if b' = b then v else Memory.read m b' := Table.read_write

@[simp] theorem Memory.read_nil {b : Nat} : Memory.read [] b = 0#8 := rfl

theorem Memory.wf_write {m : Memory} {n b : Nat} {v : Block} (h : Memory.wf n m) (hb : b < n) :
    Memory.wf n (Memory.write m b v) := Table.wf_write h hb

theorem Memory.canonical_write {m : Memory} {b : Nat} {v : Block} (h : Table.canonical blockDefault m) :
    Table.canonical blockDefault (Memory.write m b v) := Table.canonical_write h

theorem nodeRead_nodeWrite {m : Table TreeNode} {i j : Nat} {v : TreeNode} :
    nodeRead (nodeWrite m i v) j = if j = i then v else nodeRead m j := Table.read_write

/-- `FREQ[c]` after `FREQ[sym] <- v`. -/
theorem State.freqAt_setFreq (s : State) (sym c : Symbol) (v : Weight) :
    (s.setFreq sym v).freqAt c = if c = sym then v else s.freqAt c := by
  show Table.read _ (Table.write _ _ _ _) _ = _
  rw [Table.read_write]
  by_cases h : c = sym
  · simp [h]
  · have : c.toNat ≠ sym.toNat := fun e => h (BitVec.eq_of_toNat_eq e)
    simp [h, this, State.freqAt]

/-- Writing one count keeps the frequency memory well formed. -/
theorem State.freq_wf_setFreq {s : State} (sym : Symbol) (v : Weight) (h : Table.wf weightDefault Config.nsym s.freq) :
    Table.wf weightDefault Config.nsym (s.setFreq sym v).freq := Table.wf_write h sym.isLt

/-- Every record of an invalidated code table is as it was but not valid. -/
theorem read_invalidateCt (ct : Table CodeEntry) (sym : Symbol) :
    Table.read entryDefault (invalidateCt ct) sym.toNat =
      { Table.read entryDefault ct sym.toNat with valid := false } := by
  unfold invalidateCt
  rw [Table.read_updateAt _ _ List.nodup_range, if_pos (List.mem_range.2 sym.isLt)]

/-- Invalidating keeps the code table well formed. -/
theorem wf_invalidateCt {ct : Table CodeEntry} (h : Table.wf entryDefault Config.nsym ct) :
    Table.wf entryDefault Config.nsym (invalidateCt ct) :=
  Table.wf_updateAt _ _ (fun _ ha => List.mem_range.1 ha) h

end Sys2Proof.Machine
end

