-- ==== Sys2Proof/Laws/BitVector.lean ====
section
/-! SUPPORT. The laws of BitVectors and Codes: growth, set and clear at a rank, and appending as a pure value. -/

namespace Sys2Proof.Machine

/-! ## Growth -/

/-- The doubling loop never lowers the capacity. -/
theorem le_growCap (fuel cap r : Nat) : cap ≤ growCap fuel cap r := by
  induction fuel generalizing cap with
  | zero => exact Nat.le_refl _
  | succ n ih =>
    unfold growCap
    split
    · exact Nat.le_trans (by omega) (ih (2 * cap))
    · exact Nat.le_refl _

/-- Enough doublings cover the rank. -/
theorem lt_growCap {fuel cap r : Nat} (h : r < cap * 2 ^ fuel) : r < growCap fuel cap r := by
  induction fuel generalizing cap with
  | zero => simpa [growCap] using h
  | succ n ih =>
    unfold growCap
    split
    · exact ih (by rw [Nat.pow_succ] at h; rw [Nat.mul_comm 2 cap, Nat.mul_assoc, Nat.mul_comm 2]; exact h)
    · omega

/-- A positive capacity is made to cover the rank (40_bitvector_code.md R92). -/
theorem lt_growCap_self {cap r : Nat} (h : 0 < cap) : r < growCap (r + 1) cap r := by
  apply lt_growCap
  have h1 : r + 1 < 2 ^ (r + 1) := Nat.lt_two_pow_self
  have h2 : 1 * 2 ^ (r + 1) ≤ cap * 2 ^ (r + 1) := Nat.mul_le_mul_right _ h
  omega

/-- A capacity that covers the rank stays. -/
theorem growCap_of_lt {fuel cap r : Nat} (h : r < cap) : growCap fuel cap r = cap := by
  cases fuel with
  | zero => rfl
  | succ n => unfold growCap; rw [if_neg (by omega)]

/-- Growth doubles: from `c * 2 ^ i`, below a limit `c * 2 ^ n` above the rank, the result is some `c * 2 ^ j`, `j ≤ n`. -/
theorem growCap_pow {fuel c i n r : Nat} (hi : i ≤ n) (hr : r < c * 2 ^ n) :
    ∃ j ≤ n, growCap fuel (c * 2 ^ i) r = c * 2 ^ j := by
  induction fuel generalizing i with
  | zero => exact ⟨i, hi, rfl⟩
  | succ k ih =>
    unfold growCap
    split
    · rename_i hle
      have hin : i < n := by
        rcases Nat.lt_or_ge i n with h | h
        · exact h
        · have : i = n := Nat.le_antisymm hi h
          subst this; omega
      obtain ⟨j, hj, he⟩ := ih (i := i + 1) hin
      refine ⟨j, hj, ?_⟩
      rw [← he, Nat.pow_succ]; congr 1; ring
    · exact ⟨i, hi, rfl⟩

@[simp] theorem BitVector.grow_blk (b : BitVector) (r : Nat) : (b.grow r).blk = b.blk := rfl
@[simp] theorem BitVector.grow_cap (b : BitVector) (r : Nat) : (b.grow r).cap = growCap (r + 1) b.cap r := rfl
@[simp] theorem BitVector.set_cap (b : BitVector) (r : Nat) : (b.set r).cap = growCap (r + 1) b.cap r := rfl
@[simp] theorem BitVector.clear_cap (b : BitVector) (r : Nat) : (b.clear r).cap = growCap (r + 1) b.cap r := rfl

/-! ## Bits at ranks -/

theorem and_rankMask_ne_zero : ∀ x : Block, ∀ j < 8, ((x &&& (0x80#8 >>> j)) != 0#8) = x.getLsbD (7 - j) := by
  decide +kernel

theorem rankMask_getLsbD : ∀ j < 8, ∀ i < 8, (0x80#8 >>> j).getLsbD i = decide (i + j = 7) := by decide +kernel

theorem blkidx_eq (r : Nat) : blkidx r = r / 8 := by simp [blkidx, Nat.shiftRight_eq_div_pow]

/-- Rank r is bit 7 - r % 8 of block r / 8 (20_memory.md R51). -/
theorem Memory.bit_eq (m : Memory) (r : Nat) : Memory.bit m r = (Memory.read m (r / 8)).getLsbD (7 - r % 8) := by
  unfold Memory.bit rankMask
  rw [and_rankMask_ne_zero _ _ (Nat.mod_lt _ (by omega)), blkidx_eq]

@[simp] theorem Memory.bit_nil (r : Nat) : Memory.bit [] r = false := by simp [Memory.bit_eq]

/-- The bits after the or-in of `bv_set`: the rank reads 1, every other rank as before (40_bitvector_code.md R93). -/
theorem Memory.bit_set (m : Memory) (r q : Nat) :
    Memory.bit (Memory.write m (blkidx r) (Memory.read m (blkidx r) ||| rankMask r)) q =
      if q = r then true else Memory.bit m q := by
  rw [Memory.bit_eq, Memory.bit_eq, Memory.read_write, blkidx_eq]
  by_cases hb : q / 8 = r / 8
  · rw [if_pos hb, BitVec.getLsbD_or, rankMask, rankMask_getLsbD _ (Nat.mod_lt _ (by omega)) _ (by omega), hb]
    by_cases hq : q = r
    · subst hq; rw [decide_eq_true (by omega)]; simp
    · rw [decide_eq_false (by omega)]; simp [hq]
  · rw [if_neg hb, if_neg (by rintro rfl; exact hb rfl)]

/-- The bits after the and-out of `bv_clear`: the rank reads 0, every other rank as before (40_bitvector_code.md R94). -/
theorem Memory.bit_clear (m : Memory) (r q : Nat) :
    Memory.bit (Memory.write m (blkidx r) (Memory.read m (blkidx r) &&& ~~~ (rankMask r))) q =
      if q = r then false else Memory.bit m q := by
  rw [Memory.bit_eq, Memory.bit_eq, Memory.read_write, blkidx_eq]
  by_cases hb : q / 8 = r / 8
  · rw [if_pos hb, BitVec.getLsbD_and, BitVec.getLsbD_not, rankMask,
      rankMask_getLsbD _ (Nat.mod_lt _ (by omega)) _ (by omega), hb, decide_eq_true (by omega : 7 - q % 8 < 8)]
    by_cases hq : q = r
    · have he : 7 - q % 8 + r % 8 = 7 := by omega
      rw [decide_eq_true he, if_pos hq]; simp
    · have he : ¬ (7 - q % 8 + r % 8 = 7) := by omega
      rw [decide_eq_false he, if_neg hq]; simp
  · rw [if_neg hb, if_neg (by rintro rfl; exact hb rfl)]

/-! ## Codes as pure values -/

/-- A Code whose length is inside its positive capacity and whose bits at or beyond its length are 0. -/
structure Code.Ok (c : Code) : Prop where
  cap_pos : 0 < c.bv.cap
  len_le : c.len ≤ c.bv.cap
  tail_zero : ∀ r, c.len ≤ r → Memory.bit c.bv.blk r = false

theorem Code.empty_ok : Code.empty.Ok := ⟨by decide, by decide, fun _ _ => Memory.bit_nil _⟩

@[simp] theorem Code.append_len (c : Code) (b : Bool) : (c.append b).len = c.len + 1 := rfl

@[simp] theorem Code.append_cap (c : Code) (b : Bool) : (c.append b).bv.cap = growCap (c.len + 1) c.bv.cap c.len := by
  cases b <;> rfl

/-- The bits of the storage after an append: the appended bit at rank `len`, every other rank as before
(40_bitvector_code.md R97). -/
theorem Code.bit_append (c : Code) (b : Bool) (q : Nat) :
    Memory.bit (c.append b).bv.blk q = if q = c.len then b else Memory.bit c.bv.blk q := by
  cases b
  · exact Memory.bit_clear _ _ _
  · exact Memory.bit_set _ _ _

theorem Code.append_ok {c : Code} (h : c.Ok) (b : Bool) : (c.append b).Ok where
  cap_pos := by
    rw [Code.append_cap]; exact Nat.lt_of_lt_of_le h.cap_pos (le_growCap _ _ _)
  len_le := by rw [Code.append_cap, Code.append_len]; exact lt_growCap_self h.cap_pos
  tail_zero := by
    intro r hr
    rw [Code.append_len] at hr
    rw [Code.bit_append, if_neg (by omega)]
    exact h.tail_zero r (by omega)

/-- The rendering of a Code whose length is inside its capacity, straight from its blocks. -/
theorem Code.render_eq {c : Code} (h : c.len ≤ c.bv.cap) : c.render = (List.range c.len).map (Memory.bit c.bv.blk) := by
  unfold Code.render BitVector.render
  apply List.map_congr_left
  intro r hr
  have := List.mem_range.1 hr
  rw [BitVector.test, if_neg (by omega)]

/-- As a pure value, `code_append` adds one bit at the end (40_bitvector_code.md R97). -/
theorem Code.render_append {c : Code} (h : c.Ok) (b : Bool) : (c.append b).render = c.render ++ [b] := by
  rw [Code.render_eq (Code.append_ok h b).len_le, Code.render_eq h.len_le, Code.append_len, List.range_succ,
    List.map_append]
  congr 1
  · apply List.map_congr_left
    intro r hr
    have := List.mem_range.1 hr
    rw [Code.bit_append, if_neg (by omega)]
  · simp [Code.bit_append]

@[simp] theorem Code.appendAll_nil (c : Code) : c.appendAll [] = c := rfl
@[simp] theorem Code.appendAll_cons (c : Code) (b : Bool) (bits : List Bool) :
    c.appendAll (b :: bits) = (c.append b).appendAll bits := rfl

@[simp] theorem Code.appendAll_len (c : Code) (bits : List Bool) : (c.appendAll bits).len = c.len + bits.length := by
  induction bits generalizing c with
  | nil => rfl
  | cons b bits ih => rw [Code.appendAll_cons, ih, Code.append_len, List.length_cons]; omega

theorem Code.appendAll_ok {c : Code} (h : c.Ok) (bits : List Bool) : (c.appendAll bits).Ok := by
  induction bits generalizing c with
  | nil => exact h
  | cons b bits ih => exact ih (Code.append_ok h b)

/-- As a pure value, appending bits one by one concatenates. -/
theorem Code.render_appendAll {c : Code} (h : c.Ok) (bits : List Bool) :
    (c.appendAll bits).render = c.render ++ bits := by
  induction bits generalizing c with
  | nil => simp
  | cons b bits ih => rw [Code.appendAll_cons, ih (Code.append_ok h b), Code.render_append h]; simp

/-- The capacity after appending stays a doubling of `c` below a limit the new length does not pass. -/
theorem Code.appendAll_cap_pow {c : Code} {base i n : Nat} (bits : List Bool) (hi : i ≤ n)
    (hcap : c.bv.cap = base * 2 ^ i) (hlen : c.len + bits.length ≤ base * 2 ^ n) :
    ∃ j ≤ n, (c.appendAll bits).bv.cap = base * 2 ^ j := by
  induction bits generalizing c i with
  | nil => exact ⟨i, hi, hcap⟩
  | cons b bits ih =>
    rw [List.length_cons] at hlen
    obtain ⟨j, hj, he⟩ := growCap_pow (fuel := c.len + 1) (c := base) (r := c.len) hi (by omega)
    refine ih (c := c.append b) hj (by rw [Code.append_cap, hcap, he]) ?_
    rw [Code.append_len]; omega

/-- Appending writes only blocks that hold ranks below the new length, and keeps the canonical form. -/
theorem Code.appendAll_wf {c : Code} {blocks : Nat} (bits : List Bool) (h : Memory.wf blocks c.bv.blk)
    (hlen : c.len + bits.length ≤ 8 * blocks) : Memory.wf blocks (c.appendAll bits).bv.blk := by
  induction bits generalizing c with
  | nil => exact h
  | cons b bits ih =>
    rw [List.length_cons] at hlen
    have hb : blkidx c.len < blocks := by rw [blkidx_eq]; omega
    refine ih (c := c.append b) ?_ (by rw [Code.append_len]; omega)
    cases b <;> exact Memory.wf_write h hb

/-- The bits at ranks below the old length stay (46_properties.md R189: a Code is append-only). -/
theorem Code.bit_appendAll_lt (c : Code) (bits : List Bool) {q : Nat} (hq : q < c.len) :
    Memory.bit (c.appendAll bits).bv.blk q = Memory.bit c.bv.blk q := by
  induction bits generalizing c with
  | nil => rfl
  | cons b bits ih =>
    rw [Code.appendAll_cons, ih _ (by rw [Code.append_len]; omega), Code.bit_append, if_neg (by omega)]

@[simp] theorem CodeEntry.bits_length (e : CodeEntry) : e.bits.length = e.len.toNat := by simp [CodeEntry.bits]

end Sys2Proof.Machine
end

