-- ==== Sys2Proof/Laws/TreeBuilder.lean ====
section
/-! SUPPORT. The laws of the tree builder: the extraction order, the priority queue, leaf creation and the merge loop. -/

namespace Sys2Proof.Machine

/-! ## The extraction order (42_treebuilder.md R120) -/

/-- The weight of a node as a natural number. -/
def weightAt (node : Table TreeNode) (i : Nat) : Nat := (nodeRead node i).weight.toNat

theorem precedes_iff {node : Table TreeNode} {i j : Nat} : precedes node i j = true ↔
    weightAt node i < weightAt node j ∨ (weightAt node i = weightAt node j ∧ i < j) := by
  simp [precedes, weightAt]

theorem precedes_trans {node : Table TreeNode} {i j l : Nat} (h1 : precedes node i j = true)
    (h2 : precedes node j l = true) : precedes node i l = true := by
  rw [precedes_iff] at *; omega

/-- Of two distinct nodes one precedes the other. -/
theorem precedes_of_not {node : Table TreeNode} {i j : Nat} (hne : i ≠ j) (h : ¬ precedes node i j = true) :
    precedes node j i = true := by
  rw [precedes_iff] at *; omega

/-! ## The priority queue (42_treebuilder.md R121, R122) -/

theorem mem_pqInsert {i j : Nat} {pq : List Nat} : j ∈ pqInsert i pq ↔ j = i ∨ j ∈ pq := by
  unfold pqInsert; split
  · rename_i h; constructor
    · exact .inr
    · rintro (rfl | h') <;> assumption
  · simp

theorem pqInsert_of_not_mem {i : Nat} {pq : List Nat} (h : i ∉ pq) : pqInsert i pq = i :: pq := by simp [pqInsert, h]

/-- The minimum of a set is an element that precedes every other element; only the empty set has none. -/
theorem pqMin_spec (node : Table TreeNode) (pq : List Nat) :
    (pqMin node pq = none ∧ pq = []) ∨
    ∃ i, pqMin node pq = some i ∧ i ∈ pq ∧ ∀ j ∈ pq, j ≠ i → precedes node i j = true := by
  induction pq with
  | nil => exact .inl ⟨rfl, rfl⟩
  | cons a rest ih =>
    right
    rcases ih with ⟨hn, rfl⟩ | ⟨m, hm, hmem, hmin⟩
    · exact ⟨a, by simp [pqMin], by simp, by simp⟩
    · simp only [pqMin, hm]
      by_cases hp : precedes node a m = true
      · refine ⟨a, by simp [hp], by simp, ?_⟩
        intro j hj hne
        rcases List.mem_cons.1 hj with rfl | hj
        · exact absurd rfl hne
        · by_cases hjm : j = m
          · exact hjm ▸ hp
          · exact precedes_trans hp (hmin j hj hjm)
      · refine ⟨m, by simp [hp], by simp [hmem], ?_⟩
        intro j hj hne
        rcases List.mem_cons.1 hj with rfl | hj
        · exact precedes_of_not hne hp
        · exact hmin j hj hne

/-- Removing one element of a list without repeats. -/
theorem perm_filter_ne {a : Nat} {l : List Nat} (hn : l.Nodup) (ha : a ∈ l) :
    l.Perm (a :: l.filter (fun j => j != a)) := by
  have := List.perm_cons_erase ha
  rwa [hn.erase_eq_filter] at this

/-- `pq_extract_min` of a non-empty set: the element that precedes every other, and the set without it. -/
theorem pqExtractMin_spec (node : Table TreeNode) {pq : List Nat} (hne : pq ≠ []) :
    ∃ i, pqExtractMin node pq = some (i, pq.filter (fun j => j != i)) ∧ i ∈ pq ∧
      ∀ j ∈ pq, j ≠ i → precedes node i j = true := by
  rcases pqMin_spec node pq with ⟨_, h⟩ | ⟨i, hi, hmem, hmin⟩
  · exact absurd h hne
  · exact ⟨i, by simp [pqExtractMin, hi], hmem, hmin⟩

@[simp] theorem pqExtractMin_nil (node : Table TreeNode) : pqExtractMin node [] = none := rfl

@[simp] theorem pqExtractMin_singleton (node : Table TreeNode) (i : Nat) : pqExtractMin node [i] = some (i, []) := by
  simp [pqExtractMin, pqMin]

/-! ## Leaf creation (42_treebuilder.md R123) -/

/-- What leaf creation has done after the symbols `done`: node i is the leaf of the i-th present one, and `PQ` holds exactly
those nodes. -/
structure LeavesOf (s : State) (done : List Symbol) (c : BuildCtx) : Prop where
  next : c.next = (done.filter (fun x => s.freqAt x != 0#32)).length
  pq : c.pq = (List.range c.next).reverse
  leaf : ∀ i < c.next, ∃ x, (done.filter (fun x => s.freqAt x != 0#32))[i]? = some x ∧
    nodeRead c.node i = .leaf x (s.freqAt x)
  other : ∀ i, c.next ≤ i → nodeRead c.node i = s.nodeAt i

theorem LeavesOf.start (s : State) : LeavesOf s [] { node := s.node, pq := [], next := 0 } where
  next := rfl
  pq := rfl
  leaf := by intro i hi; exact absurd hi (Nat.not_lt_zero _)
  other := by intro i _; rfl

theorem LeavesOf.addLeaf {s : State} {done : List Symbol} {c : BuildCtx} (h : LeavesOf s done c) (x : Symbol) :
    LeavesOf s (done ++ [x]) (addLeaf s c x) := by
  unfold Machine.addLeaf
  by_cases hx : s.freqAt x = 0#32
  · rw [if_neg (by simp [hx])]
    have hf : (done ++ [x]).filter (fun x => s.freqAt x != 0#32) = done.filter (fun x => s.freqAt x != 0#32) := by
      simp [List.filter_append, hx]
    exact ⟨by rw [hf]; exact h.next, h.pq, by rw [hf]; exact h.leaf, h.other⟩
  · have hpos : (s.freqAt x).toNat > 0 := by
      rcases Nat.eq_zero_or_pos (s.freqAt x).toNat with h0 | h0
      · exact absurd (BitVec.eq_of_toNat_eq (by simpa using h0)) hx
      · exact h0
    have hf : (done ++ [x]).filter (fun x => s.freqAt x != 0#32) = done.filter (fun x => s.freqAt x != 0#32) ++ [x] := by
      simp [List.filter_append, hx]
    rw [if_pos hpos]
    refine ⟨?_, ?_, ?_, ?_⟩
    · simp only [hf, List.length_append, List.length_singleton, h.next]
    · simp only []
      rw [pqInsert_of_not_mem (by rw [h.pq]; simp), h.pq, List.range_succ, List.reverse_append]; rfl
    · intro i hi
      simp only [] at hi ⊢
      rw [hf, nodeRead_nodeWrite]
      by_cases hin : i = c.next
      · subst hin
        refine ⟨x, ?_, by rw [if_pos rfl]⟩
        rw [List.getElem?_append_right (by rw [h.next]), h.next]; simp
      · have hlt : i < c.next := by omega
        obtain ⟨y, hy, hn⟩ := h.leaf i hlt
        refine ⟨y, ?_, by rw [if_neg hin]; exact hn⟩
        rw [List.getElem?_append_left (by rw [← h.next]; exact hlt)]; exact hy
    · intro i hi
      simp only [] at hi ⊢
      rw [nodeRead_nodeWrite, if_neg (by omega)]
      exact h.other i (by omega)

theorem LeavesOf.foldl {s : State} (l : List Symbol) {done : List Symbol} {c : BuildCtx} (h : LeavesOf s done c) :
    LeavesOf s (done ++ l) (l.foldl (Machine.addLeaf s) c) := by
  induction l generalizing done c with
  | nil => simpa using h
  | cons x l ih => simpa using ih (h.addLeaf x)

/-- Leaf creation: k leaves in ascending symbol order at nodes 0 to k - 1, all of them in `PQ`, the rest of the node memory
as it was. -/
theorem createLeaves_spec (s : State) : LeavesOf s allSymbols (createLeaves s) := by
  have h := (LeavesOf.start s).foldl allSymbols
  rwa [List.nil_append] at h

/-- k, the next free node after leaf creation, counts the present symbols. -/
theorem createLeaves_next (s : State) : (createLeaves s).next = s.presentSymbols.length := (createLeaves_spec s).next

theorem presentSymbols_length_le (s : State) : s.presentSymbols.length ≤ 256 := by
  refine Nat.le_trans (List.length_filter_le _ _) ?_
  simp [allSymbols]

theorem mem_allSymbols (c : Symbol) : c ∈ allSymbols :=
  List.mem_map.2 ⟨c.toNat, List.mem_range.2 c.isLt, by simp⟩

theorem nodup_allSymbols : allSymbols.Nodup := by
  refine List.Nodup.map_on ?_ List.nodup_range
  intro x hx y hy h
  have hx := List.mem_range.1 hx
  have hy := List.mem_range.1 hy
  have := congrArg BitVec.toNat h
  simp only [BitVec.toNat_ofNat] at this
  change x < 256 at hx
  change y < 256 at hy
  omega

/-- A symbol is present exactly when its count is not 0 (41_frequency.md R113). -/
theorem mem_presentSymbols {s : State} {c : Symbol} : c ∈ s.presentSymbols ↔ s.freqAt c ≠ 0#32 := by
  simp [State.presentSymbols, mem_allSymbols]

theorem nodup_presentSymbols (s : State) : s.presentSymbols.Nodup := nodup_allSymbols.filter _

/-- T is the sum of the counts of the present symbols. -/
theorem freqTotal_eq (s : State) : s.freqTotal = (s.presentSymbols.map (fun c => (s.freqAt c).toNat)).sum := by
  unfold State.freqTotal State.presentSymbols
  generalize allSymbols = l
  induction l with
  | nil => rfl
  | cons c l ih =>
    by_cases h : s.freqAt c = 0#32
    · simp [h, ih]
    · simp [h, ih]

/-! ## The merge loop (42_treebuilder.md R124, R125) -/

/-- A node memory's record i as an internal node of the merge engine. -/
structure Merged (node : Table TreeNode) (i : Nat) : Prop where
  tag : (nodeRead node i).tag = true
  left_lt : (nodeRead node i).left.toNat < i
  right_lt : (nodeRead node i).right.toNat < i
  order : precedes node (nodeRead node i).left.toNat (nodeRead node i).right.toNat = true
  weight : weightAt node i = weightAt node (nodeRead node i).left.toNat + weightAt node (nodeRead node i).right.toNat

/-- What holds of a build with k leaves of total weight T at every turn of the merge loop. -/
structure MergeInv (k T : Nat) (leaves : Table TreeNode) (c : BuildCtx) : Prop where
  k_le : k ≤ c.next
  nodup : c.pq.Nodup
  lt_next : ∀ i ∈ c.pq, i < c.next
  count : c.pq.length + c.next = 2 * k
  total : (c.pq.map (weightAt c.node)).sum = T
  merged : ∀ i, k ≤ i → i < c.next → Merged c.node i
  parent : ∀ j < c.next, (childrenOf c.node k c.next).count j + (if j ∈ c.pq then 1 else 0) = 1
  rising : ∀ i, k ≤ i → i + 1 < c.next → weightAt c.node i ≤ weightAt c.node (i + 1)
  heavy : ∀ j ∈ c.pq, ∀ i, k ≤ i → i < c.next → weightAt c.node i ≤ 2 * weightAt c.node j
  leaf : ∀ i < k, nodeRead c.node i = nodeRead leaves i
  greedy : ∀ i, k ≤ i → i < c.next → ∀ j < i, j ∉ childrenOf c.node k i → j ≠ (nodeRead c.node i).left.toNat →
    j ≠ (nodeRead c.node i).right.toNat → precedes c.node (nodeRead c.node i).right.toNat j = true
  newest : k < c.next → c.next - 1 ∈ c.pq

theorem weightAt_nodeWrite {node : Table TreeNode} {i j : Nat} {v : TreeNode} :
    weightAt (nodeWrite node i v) j = if j = i then v.weight.toNat else weightAt node j := by
  unfold weightAt; rw [nodeRead_nodeWrite]; split <;> rfl

/-- Writing a fresh record keeps the merged records below it. -/
theorem Merged.nodeWrite {node : Table TreeNode} {i n : Nat} {v : TreeNode} (h : Merged node i) (hi : i < n) :
    Merged (nodeWrite node n v) i := by
  have hr : nodeRead (Machine.nodeWrite node n v) i = nodeRead node i := by
    rw [nodeRead_nodeWrite, if_neg (by omega)]
  have hw : ∀ j, j < n → weightAt (Machine.nodeWrite node n v) j = weightAt node j := by
    intro j hj; rw [weightAt_nodeWrite, if_neg (by omega)]
  have hl := h.left_lt
  have hrt := h.right_lt
  refine ⟨by rw [hr]; exact h.tag, by rw [hr]; exact hl, by rw [hr]; exact hrt, ?_, ?_⟩
  · rw [hr, precedes_iff, hw _ (by omega), hw _ (by omega)]
    exact precedes_iff.1 h.order
  · rw [hr, hw _ hi, hw _ (by omega), hw _ (by omega)]
    exact h.weight

/-- The children lists of nodes below a fresh record do not see it. -/
theorem childrenOf_nodeWrite {node : Table TreeNode} {k m n : Nat} {v : TreeNode} (hm : m ≤ n) :
    childrenOf (nodeWrite node n v) k m = childrenOf node k m := by
  unfold childrenOf
  apply List.flatMap_congr
  intro i hi
  have hi := List.mem_range'_1.1 hi
  rw [nodeRead_nodeWrite, if_neg (by omega)]

theorem childrenOf_succ {node : Table TreeNode} {k n : Nat} (h : k ≤ n) :
    childrenOf node k (n + 1) =
      childrenOf node k n ++ [(nodeRead node n).left.toNat, (nodeRead node n).right.toNat] := by
  unfold childrenOf
  rw [show n + 1 - k = (n - k) + 1 by omega, List.range'_concat, List.flatMap_append]
  simp [show k + (n - k) = n by omega]

/-- What one merge step does: the two elements that precede all others become the children of the next node. -/
theorem mergeStep_spec (c : BuildCtx) (hn : c.pq.Nodup) (h2 : 2 ≤ c.pq.length) :
    ∃ a b rest, c.pq.Perm (a :: b :: rest) ∧ precedes c.node a b = true ∧
      (∀ j ∈ rest, precedes c.node b j = true) ∧
      mergeStep c = {
        node := nodeWrite c.node c.next
          (.internal ((nodeRead c.node a).weight + (nodeRead c.node b).weight) (BitVec.ofNat 9 a) (BitVec.ofNat 9 b))
        pq := pqInsert c.next rest
        next := c.next + 1 } := by
  have hne : c.pq ≠ [] := by intro h; rw [h] at h2; simp at h2
  obtain ⟨a, ha, hamem, hamin⟩ := pqExtractMin_spec c.node hne
  have hp1 := perm_filter_ne hn hamem
  have hn1 : (c.pq.filter (fun j => j != a)).Nodup := hn.filter _
  have hne1 : c.pq.filter (fun j => j != a) ≠ [] := by
    intro h; have := hp1.length_eq; rw [h] at this; simp at this; omega
  obtain ⟨b, hb, hbmem, hbmin⟩ := pqExtractMin_spec c.node hne1
  have hp2 := perm_filter_ne hn1 hbmem
  have hba : b ∈ c.pq ∧ b ≠ a := by simpa using hbmem
  refine ⟨a, b, _, hp1.trans (List.Perm.cons a hp2), hamin b hba.1 hba.2, ?_, ?_⟩
  · intro j hj
    have hj' := List.mem_filter.1 hj
    exact hbmin j hj'.1 (by simpa using hj'.2)
  · unfold mergeStep; rw [ha]; simp only []; rw [hb]

/-- One merge step keeps the invariant of the merge loop (42_treebuilder.md R124, R128, R130). -/
theorem MergeInv.mergeStep {k T : Nat} {leaves : Table TreeNode} {c : BuildCtx} (h : MergeInv k T leaves c)
    (hk : k ≤ 256) (hT : T ≤ 4294967295) (h2 : 2 ≤ c.pq.length) :
    MergeInv k T leaves (Machine.mergeStep c) ∧ (Machine.mergeStep c).next = c.next + 1 := by
  obtain ⟨a, b, rest, hperm, hab, hrest, hstep⟩ := mergeStep_spec c h.nodup h2
  have hnd : (a :: b :: rest).Nodup := hperm.nodup_iff.1 h.nodup
  have hmem : ∀ j, j ∈ c.pq ↔ j = a ∨ j = b ∨ j ∈ rest := fun j => by rw [hperm.mem_iff]; simp
  have hlen : c.pq.length = rest.length + 2 := by rw [hperm.length_eq]; simp
  have hcnt := h.count
  have ha : a < c.next := h.lt_next a ((hmem a).2 (by simp))
  have hb : b < c.next := h.lt_next b ((hmem b).2 (by simp))
  have hlt : ∀ j ∈ rest, j < c.next := fun j hj => h.lt_next j ((hmem j).2 (by simp [hj]))
  have hfresh : c.next ∉ rest := fun hj => Nat.lt_irrefl _ (hlt _ hj)
  have hnd' : a ≠ b ∧ a ∉ rest ∧ b ∉ rest ∧ rest.Nodup := by
    simp only [List.nodup_cons, List.mem_cons, not_or] at hnd
    exact ⟨hnd.1.1, hnd.1.2, hnd.2.1, hnd.2.2⟩
  have htot : weightAt c.node a + (weightAt c.node b + (rest.map (weightAt c.node)).sum) = T := by
    rw [← h.total, (hperm.map _).sum_eq]; simp
  have hsum : ((nodeRead c.node a).weight + (nodeRead c.node b).weight).toNat = weightAt c.node a + weightAt c.node b := by
    rw [BitVec.toNat_add, Nat.mod_eq_of_lt]; · rfl
    · change weightAt c.node a + weightAt c.node b < 2 ^ 32; omega
  have hia : (BitVec.ofNat 9 a).toNat = a := by rw [BitVec.toNat_ofNat]; exact Nat.mod_eq_of_lt (by omega)
  have hib : (BitVec.ofNat 9 b).toNat = b := by rw [BitVec.toNat_ofNat]; exact Nat.mod_eq_of_lt (by omega)
  have hwa : weightAt c.node a ≤ weightAt c.node b := by rcases precedes_iff.1 hab with h | h <;> omega
  have hwb : ∀ j ∈ rest, weightAt c.node b ≤ weightAt c.node j := by
    intro j hj; rcases precedes_iff.1 (hrest j hj) with h | h <;> omega
  have hk' := h.k_le
  rw [hstep, pqInsert_of_not_mem hfresh]
  refine ⟨?_, rfl⟩
  generalize hv : TreeNode.internal ((nodeRead c.node a).weight + (nodeRead c.node b).weight) (BitVec.ofNat 9 a)
    (BitVec.ofNat 9 b) = v
  have hvl : v.left.toNat = a := by rw [← hv]; exact hia
  have hvr : v.right.toNat = b := by rw [← hv]; exact hib
  have hvw : v.weight.toNat = weightAt c.node a + weightAt c.node b := by rw [← hv]; exact hsum
  have hvt : v.tag = true := by rw [← hv]; rfl
  have hw : ∀ j, j < c.next → weightAt (nodeWrite c.node c.next v) j = weightAt c.node j := by
    intro j hj; rw [weightAt_nodeWrite, if_neg (by omega)]
  have hwn : weightAt (nodeWrite c.node c.next v) c.next = weightAt c.node a + weightAt c.node b := by
    rw [weightAt_nodeWrite, if_pos rfl, hvw]
  have hrn : nodeRead (nodeWrite c.node c.next v) c.next = v := by rw [nodeRead_nodeWrite, if_pos rfl]
  refine ⟨by simp only []; omega, List.nodup_cons.2 ⟨hfresh, hnd'.2.2.2⟩, ?_, ?_, ?_, ?_, ?_, ?_, ?_, ?_, ?_, ?_⟩
  · intro i hi
    rcases List.mem_cons.1 hi with rfl | hi
    · exact Nat.lt_succ_self _
    · exact Nat.lt_succ_of_lt (hlt i hi)
  · simp only [List.length_cons]; omega
  · simp only [List.map_cons, List.sum_cons, hwn]
    rw [List.map_congr_left fun j hj => hw j (hlt j hj)]; omega
  · intro i hki hi
    simp only [] at hi ⊢
    rcases Nat.lt_or_eq_of_le (Nat.le_of_lt_succ hi) with hi | rfl
    · exact (h.merged i hki hi).nodeWrite hi
    · refine ⟨by rw [hrn]; exact hvt, by rw [hrn, hvl]; exact ha, by rw [hrn, hvr]; exact hb, ?_, ?_⟩
      · rw [hrn, hvl, hvr, precedes_iff, hw _ ha, hw _ hb]; exact precedes_iff.1 hab
      · rw [hrn, hvl, hvr, hwn, hw _ ha, hw _ hb]
  · intro j hj
    simp only [] at hj ⊢
    rw [childrenOf_succ hk', childrenOf_nodeWrite (Nat.le_refl _), hrn, hvl, hvr, List.count_append]
    rcases Nat.lt_or_eq_of_le (Nat.le_of_lt_succ hj) with hj | rfl
    · have hp := h.parent j hj
      have hjn : j ≠ c.next := by omega
      by_cases hja : j = a
      · subst hja
        have hjb := hnd'.1
        rw [if_pos ((hmem j).2 (by simp))] at hp
        rw [if_neg (by simp [hjn, hnd'.2.1])]
        simp [Ne.symm hjb]; omega
      by_cases hjb : j = b
      · subst hjb
        rw [if_pos ((hmem j).2 (by simp))] at hp
        rw [if_neg (by simp [hjn, hnd'.2.2.1])]
        simp [hnd'.1]; omega
      · have hiff : (j ∈ c.next :: rest) ↔ j ∈ c.pq := by rw [hmem]; simp [hjn, hja, hjb]
        simp only [hiff]
        simpa [Ne.symm hja, Ne.symm hjb] using hp
    · have hzero : (childrenOf c.node k c.next).count c.next = 0 := by
        apply List.count_eq_zero_of_not_mem
        intro hin
        obtain ⟨i, hi, hin⟩ := List.mem_flatMap.1 hin
        have hi := List.mem_range'_1.1 hi
        have hm := h.merged i hi.1 (by omega)
        have := hm.left_lt
        have := hm.right_lt
        simp only [List.mem_cons, List.not_mem_nil, or_false] at hin
        omega
      rw [hzero, if_pos (by simp)]
      simp [show a ≠ c.next by omega, show b ≠ c.next by omega]
  · intro i hki hi
    simp only [] at hi ⊢
    rw [hw i (by omega)]
    rcases Nat.lt_or_eq_of_le (Nat.le_of_lt_succ hi) with hi | hi
    · rw [hw _ hi]; exact h.rising i hki hi
    · rw [hi, hwn]
      have h1 := h.heavy a ((hmem a).2 (by simp)) i hki (by omega)
      have h2 := h.heavy b ((hmem b).2 (by simp)) i hki (by omega)
      omega
  · intro j hj i hki hi
    simp only [] at hj hi ⊢
    have hi' : weightAt (nodeWrite c.node c.next v) i ≤ weightAt c.node a + weightAt c.node b := by
      rcases Nat.lt_or_eq_of_le (Nat.le_of_lt_succ hi) with hi | rfl
      · rw [hw i hi]
        have h1 := h.heavy a ((hmem a).2 (by simp)) i hki hi
        have h2 := h.heavy b ((hmem b).2 (by simp)) i hki hi
        omega
      · rw [hwn]
    rcases List.mem_cons.1 hj with rfl | hj
    · rw [hwn]; omega
    · rw [hw j (hlt j hj)]
      have := hwb j hj
      omega
  · intro i hi
    simp only []
    rw [nodeRead_nodeWrite, if_neg (by omega)]
    exact h.leaf i hi
  · intro i hki hi j hj hjc hjl hjr
    simp only [] at hi hjc hjl hjr ⊢
    rcases Nat.lt_or_eq_of_le (Nat.le_of_lt_succ hi) with hi | rfl
    · have hr : nodeRead (nodeWrite c.node c.next v) i = nodeRead c.node i := by
        rw [nodeRead_nodeWrite, if_neg (by omega)]
      rw [childrenOf_nodeWrite (by omega)] at hjc
      rw [hr] at hjl hjr ⊢
      have := h.greedy i hki hi j hj hjc hjl hjr
      have hrt := (h.merged i hki hi).right_lt
      rw [precedes_iff, hw _ (by omega), hw _ (by omega)]
      exact precedes_iff.1 this
    · rw [childrenOf_nodeWrite (Nat.le_refl _)] at hjc
      rw [hrn] at hjl hjr ⊢
      rw [hvl] at hjl
      rw [hvr] at hjr ⊢
      have hp := h.parent j hj
      rw [List.count_eq_zero_of_not_mem hjc] at hp
      have hjq : j ∈ c.pq := by
        by_contra hn
        rw [if_neg hn] at hp
        omega
      rcases (hmem j).1 hjq with h | h | h
      · exact absurd h hjl
      · exact absurd h hjr
      · rw [precedes_iff, hw _ hb, hw _ hj]
        exact precedes_iff.1 (hrest j h)
  · intro _
    simp

/-- The merge loop, with turns enough: it ends with one element in `PQ`, after k - 1 merges (42_treebuilder.md R128). -/
theorem MergeInv.mergeLoop {k T : Nat} {leaves : Table TreeNode} {c : BuildCtx} (fuel : Nat) (h : MergeInv k T leaves c)
    (hk : k ≤ 256) (hT : T ≤ 4294967295) (hf : c.pq.length ≤ fuel + 1) :
    MergeInv k T leaves (Machine.mergeLoop fuel c) ∧ (Machine.mergeLoop fuel c).pq.length ≤ 1 := by
  induction fuel generalizing c with
  | zero => exact ⟨h, hf⟩
  | succ n ih =>
    unfold Machine.mergeLoop
    split
    · rename_i h2
      obtain ⟨hi, hnext⟩ := h.mergeStep hk hT h2
      refine ih hi ?_
      have := hi.count
      have := h.count
      omega
    · rename_i h2
      exact ⟨h, by omega⟩

/-- The invariant holds when the leaves are created. -/
theorem mergeInv_createLeaves (s : State) :
    MergeInv s.presentSymbols.length s.freqTotal (createLeaves s).node (createLeaves s) := by
  have hl := createLeaves_spec s
  have hnext := createLeaves_next s
  refine ⟨by omega, ?_, ?_, ?_, ?_, ?_, ?_, ?_, ?_, ?_, ?_, ?_⟩
  · rw [hl.pq]; exact (List.nodup_reverse.2 List.nodup_range)
  · intro i hi; rw [hl.pq] at hi; simpa using hi
  · rw [hl.pq]; simp; omega
  · rw [hl.pq, List.map_reverse, List.sum_reverse, freqTotal_eq, hnext]
    congr 1
    apply List.ext_getElem
    · simp
    · intro i h1 h2
      simp only [List.length_map, List.length_range] at h1
      obtain ⟨x, hx, hn⟩ := hl.leaf i (by omega)
      have hx' : s.presentSymbols[i]? = some x := hx
      rw [List.getElem?_eq_some_iff] at hx'
      obtain ⟨_, hx'⟩ := hx'
      simp [weightAt, hn, hx', TreeNode.weight]
  · intro i hki hi; omega
  · intro j hj
    have : childrenOf (createLeaves s).node s.presentSymbols.length (createLeaves s).next = [] := by
      simp [childrenOf, hnext]
    rw [this, if_pos (by rw [hl.pq]; simpa using hj)]; simp
  · intro i hki hi; omega
  · intro j _ i hki hi; omega
  · intro i _; rfl
  · intro i hki hi; omega
  · intro h; omega

end Sys2Proof.Machine
end

