-- ==== Sys2Proof/Laws/CodeGenerator.lean ====
section
/-! SUPPORT. The laws of the code generator: walks down the tree, and what holds at every turn of the traversal. -/

namespace Sys2Proof.Machine

/-! ## Walks and codes -/

theorem State.walk_append (s : State) (i : Nat) (xs ys : List Bool) :
    s.walk i (xs ++ ys) = (s.walk i xs).bind (fun j => s.walk j ys) := by
  induction xs generalizing i with
  | nil => rfl
  | cons b xs ih =>
    simp only [List.cons_append, State.walk]
    split
    · exact ih _
    · rfl

/-- From an internal node one bit leads to the child it selects. -/
theorem State.walk_snoc {s : State} {r i : Nat} {xs : List Bool} (h : s.walk r xs = some i) (ht : (s.nodeAt i).tag = true)
    (b : Bool) : s.walk r (xs ++ [b]) = some (s.child i b) := by
  rw [State.walk_append, h]; simp [State.walk, ht]

/-- Nothing follows a leaf. -/
theorem State.walk_leaf {s : State} {i : Nat} (h : (s.nodeAt i).tag = false) {bits : List Bool} (hb : bits ≠ []) :
    s.walk i bits = none := by
  cases bits with
  | nil => exact absurd rfl hb
  | cons b bits => simp [State.walk, h]

/-- Appending below rank 256 keeps a code's blocks inside its record. -/
theorem Code.append_wf {c : Code} {n : Nat} (h : Memory.wf n c.bv.blk) (hl : c.len < 8 * n) (b : Bool) :
    Memory.wf n (c.append b).bv.blk :=
  Code.appendAll_wf (c := c) [b] h (by simp; omega)

/-- The record of a Code holds the Code's bits. -/
theorem Code.toEntry_bits {c : Code} (h : c.Ok) (hl : c.len < 512) : c.toEntry.bits = c.render := by
  rw [Code.render_eq h.len_le]
  have : c.toEntry.len.toNat = c.len := by
    show (BitVec.ofNat 9 c.len).toNat = c.len
    rw [BitVec.toNat_ofNat]; exact Nat.mod_eq_of_lt hl
  unfold CodeEntry.bits
  rw [this]; rfl

theorem Code.toEntry_len {c : Code} (hl : c.len < 512) : c.toEntry.len.toNat = c.len := by
  show (BitVec.ofNat 9 c.len).toNat = c.len
  rw [BitVec.toNat_ofNat]; exact Nat.mod_eq_of_lt hl

@[simp] theorem Code.render_empty : Code.empty.render = [] := rfl

/-- Read a record of a code table. -/
def ctRead (ct : Table CodeEntry) (sym : Symbol) : CodeEntry := Table.read entryDefault ct sym.toNat

theorem ctRead_ctWrite {ct : Table CodeEntry} {sym c : Symbol} {e : CodeEntry} :
    ctRead (ctWrite ct sym e) c = if c = sym then e else ctRead ct c := by
  unfold ctRead ctWrite
  rw [Table.read_write]
  by_cases h : c = sym
  · simp [h]
  · rw [if_neg h, if_neg fun e => h (BitVec.eq_of_toNat_eq e)]

/-- Reading a table of records with well-formed blocks gives well-formed blocks. -/
theorem ctRead_blk {m : Table CodeEntry} (hm : ∀ e ∈ m, Memory.wf Config.codeBlocks e.2.blk) (a : Nat) :
    Memory.wf Config.codeBlocks (Table.read entryDefault m a).blk := by
  induction m with
  | nil => exact Table.wf_nil
  | cons c m ih =>
    rw [Table.read_cons]
    split
    · exact hm c (List.mem_cons_self ..)
    · exact ih fun e he => hm e (List.mem_cons_of_mem _ he)

/-- Invalidating keeps the blocks of every record well formed. -/
theorem invalidateCt_blk {ct : Table CodeEntry} (h : ∀ e ∈ ct, Memory.wf Config.codeBlocks e.2.blk) :
    ∀ e ∈ invalidateCt ct, Memory.wf Config.codeBlocks e.2.blk := by
  unfold invalidateCt
  generalize List.range Config.nsym = l
  induction l generalizing ct with
  | nil => exact h
  | cons a l ih =>
    refine ih ?_
    intro e he
    rcases Table.mem_write he with rfl | he
    · exact ctRead_blk h a
    · exact h e he

/-! ## The traversal (43_codegen.md R141, R142, R145, R148) -/

/-- The children of a list of nodes. -/
def State.childrenIn (s : State) (l : List Nat) : List Nat :=
  l.flatMap (fun i => [(s.nodeAt i).left.toNat, (s.nodeAt i).right.toNat])

/-- The internal nodes of a list. -/
def State.internalsOf (s : State) (l : List Nat) : List Nat := l.filter (fun i => decide (s.leafCount ≤ i))

/-- A Code that leads from the root to node i, short enough for its record. -/
structure State.Leads (s : State) (i : Nat) (c : Code) : Prop where
  ok : c.Ok
  wf : Memory.wf Config.codeBlocks c.bv.blk
  walk : s.walk s.rootidx.toNat c.render = some i
  lt : i < 2 * s.leafCount - 1
  short : c.len + max i (s.leafCount - 1) ≤ 2 * s.leafCount - 2

/-- What holds at every turn of the traversal of a tree of at least two leaves, after the nodes `visited`. -/
structure State.GenInv (s : State) (visited : List Nat) (g : GenCtx) : Prop where
  leads : ∀ p ∈ g.bfsq, s.Leads p.1 p.2
  seen_lt : ∀ i ∈ visited, i < 2 * s.leafCount - 1
  nodup : (visited ++ g.bfsq.map Prod.fst).Nodup
  perm : (visited ++ g.bfsq.map Prod.fst).Perm (s.rootidx.toNat :: s.childrenIn (s.internalsOf visited))
  cnt : g.cnt = (visited.filter (fun i => decide (i < s.leafCount))).length
  wf : Table.wf entryDefault Config.nsym g.ct
  blk : ∀ e ∈ g.ct, Memory.wf Config.codeBlocks e.2.blk
  valid : ∀ sym, (ctRead g.ct sym).valid = true ↔ ∃ i ∈ visited, i < s.leafCount ∧ s.nodeAt i = .leaf sym (s.freqAt sym)
  entry : ∀ sym, (ctRead g.ct sym).valid = true → ∃ i c, i < s.leafCount ∧ s.nodeAt i = .leaf sym (s.freqAt sym) ∧
    s.Leads i c ∧ 1 ≤ c.len ∧ ctRead g.ct sym = c.toEntry

theorem State.TreeOk.leafCount_le {s : State} (h : s.TreeOk) : s.leafCount ≤ 256 := by
  rw [h.count]; exact presentSymbols_length_le s

/-- Below the leaf count the node memory holds leaves. -/
theorem State.TreeOk.tag_leaf {s : State} (h : s.TreeOk) {i : Nat} (hi : i < s.leafCount) : (s.nodeAt i).tag = false := by
  obtain ⟨c, _, hc⟩ := h.leaves i hi
  rw [hc]; rfl

/-- Two leaves of one symbol are one leaf. -/
theorem State.TreeOk.leaf_unique {s : State} (h : s.TreeOk) {i j : Nat} {c : Symbol} {v w : Weight}
    (hi : i < s.leafCount) (hj : j < s.leafCount) (h1 : s.nodeAt i = .leaf c v) (h2 : s.nodeAt j = .leaf c w) : i = j := by
  obtain ⟨x, hx, hxn⟩ := h.leaves i hi
  obtain ⟨y, hy, hyn⟩ := h.leaves j hj
  rw [hxn] at h1
  rw [hyn] at h2
  injection h1 with h1 _
  injection h2 with h2 _
  subst h1; subst h2
  rw [List.getElem?_eq_some_iff] at hx hy
  obtain ⟨hxl, hx⟩ := hx
  obtain ⟨hyl, hy⟩ := hy
  exact (List.Nodup.getElem_inj_iff (nodup_presentSymbols s)).1 (hx.trans hy.symm)

/-- A child of an internal node has a smaller index. -/
theorem State.TreeOk.child_lt {s : State} (h : s.TreeOk) {i : Nat} (hi : s.leafCount ≤ i) (hi' : i < 2 * s.leafCount - 1)
    (b : Bool) : s.child i b < i := by
  have := h.internals i hi hi'
  unfold State.child
  split
  · exact this.right_lt
  · exact this.left_lt

/-- How many visited internal nodes have a child is at most how many internal nodes have it. -/
theorem State.count_children_le {s : State} {visited : List Nat} (hn : visited.Nodup)
    (hlt : ∀ i ∈ visited, i < 2 * s.leafCount - 1) (j : Nat) :
    (s.childrenIn (s.internalsOf visited)).count j ≤ s.parentCount j := by
  have hsub : s.internalsOf visited ⊆ List.range' s.leafCount (2 * s.leafCount - 1 - s.leafCount) := by
    intro i hi
    have hi' := List.mem_filter.1 hi
    have := hlt i hi'.1
    have h2 : s.leafCount ≤ i := by simpa using hi'.2
    exact List.mem_range'_1.2 ⟨h2, by omega⟩
  have hsp : (s.internalsOf visited).Subperm (List.range' s.leafCount (2 * s.leafCount - 1 - s.leafCount)) :=
    (hn.filter _).subperm hsub
  obtain ⟨l, hl, hls⟩ := hsp
  have h1 : (s.childrenIn (s.internalsOf visited)).count j = (s.childrenIn l).count j :=
    ((hl.flatMap_right _).count_eq j).symm
  rw [h1]
  exact (hls.flatMap _).count_le j

/-- The nodes seen or waiting are without repeats. -/
theorem State.nodup_of_perm {s : State} (h : s.TreeOk) (hk : 2 ≤ s.leafCount) {visited l : List Nat}
    (hn : visited.Nodup) (hlt : ∀ i ∈ visited, i < 2 * s.leafCount - 1)
    (hp : l.Perm (s.rootidx.toNat :: s.childrenIn (s.internalsOf visited))) : l.Nodup := by
  rw [hp.nodup_iff, List.nodup_iff_count_le_one]
  intro j
  have hle := State.count_children_le hn hlt j
  rw [List.count_cons]
  have hroot := h.rootidx
  by_cases hj : s.rootidx.toNat = j
  · have hz : (s.childrenIn (s.internalsOf visited)).count j = 0 := by
      apply List.count_eq_zero_of_not_mem
      intro hin
      obtain ⟨i, hi, hin⟩ := List.mem_flatMap.1 hin
      have hi' := List.mem_filter.1 hi
      have hlt' := hlt i hi'.1
      have hio := h.internals i (by simpa using hi'.2) hlt'
      have := hio.left_lt
      have := hio.right_lt
      simp only [List.mem_cons, List.not_mem_nil, or_false] at hin
      omega
    simp [hz]; split <;> omega
  · have : (s.rootidx.toNat == j) = false := by simpa using hj
    rw [this]
    simp only [Bool.false_eq_true, if_false]
    by_cases hj2 : j < 2 * s.leafCount - 2
    · have := h.parents j hj2; omega
    · have hz : s.parentCount j = 0 := by
        apply List.count_eq_zero_of_not_mem
        intro hin
        obtain ⟨i, hi, hin⟩ := List.mem_flatMap.1 hin
        have hi' := List.mem_range'_1.1 hi
        have hio := h.internals i hi'.1 (by omega)
        have := hio.left_lt
        have := hio.right_lt
        have hin : j = (s.nodeAt i).left.toNat ∨ j = (s.nodeAt i).right.toNat := by simpa [State.nodeAt] using hin
        omega
      omega

/-- The traversal starts at the root, with a code table of no valid record. -/
theorem State.GenInv.start {s : State} (h : s.TreeOk) (hk : 2 ≤ s.leafCount) {ct : Table CodeEntry}
    (hwf : Table.wf entryDefault Config.nsym ct) (hblk : ∀ e ∈ ct, Memory.wf Config.codeBlocks e.2.blk)
    (hinv : ∀ sym, (ctRead ct sym).valid = false) :
    s.GenInv [] { ct := ct, bfsq := [(s.rootidx.toNat, Code.empty)], cnt := 0 } := by
  refine ⟨?_, by simp, by simp, List.Perm.refl _, rfl, hwf, hblk, ?_, ?_⟩
  · intro p hp
    rw [List.mem_singleton] at hp
    subst hp
    have := h.rootidx
    refine ⟨Code.empty_ok, Table.wf_nil, rfl, ?_, ?_⟩
    · show s.rootidx.toNat < _; omega
    · show 0 + max s.rootidx.toNat (s.leafCount - 1) ≤ _; omega
  · intro sym; simp [hinv]
  · intro sym hv; simp [hinv] at hv

theorem ctRead_invalidateCt_valid (ct : Table CodeEntry) (sym : Symbol) : (ctRead (invalidateCt ct) sym).valid = false := by
  unfold ctRead; rw [read_invalidateCt]

/-- A Code that leads to an internal node leads to each child with the bit of that child appended (43_codegen.md R141). -/
theorem State.Leads.child {s : State} (h : s.TreeOk) {i : Nat} {c : Code} (hl : s.Leads i c) (hi : s.leafCount ≤ i)
    (b : Bool) : s.Leads (s.child i b) (c.append b) := by
  have hc := h.child_lt hi hl.lt b
  have hlt := hl.lt
  have hs := hl.short
  have hk := h.leafCount_le
  refine ⟨Code.append_ok hl.ok b, Code.append_wf hl.wf ?_ b, ?_, by omega, ?_⟩
  · show c.len < 8 * 32; omega
  · rw [Code.render_append hl.ok]; exact State.walk_snoc hl.walk (h.internals i hi hl.lt).tag b
  · rw [Code.append_len]; omega

/-- One visit step keeps the invariant of the traversal and sees one more node. -/
theorem State.GenInv.visitStep {s : State} (h : s.TreeOk) (hk : 2 ≤ s.leafCount) {visited : List Nat} {g : GenCtx}
    (hg : s.GenInv visited g) (hne : g.bfsq ≠ []) :
    ∃ i, s.GenInv (visited ++ [i]) (Machine.visitStep s.node g) := by
  obtain ⟨ct, bfsq, cnt⟩ := g
  cases bfsq with
  | nil => exact absurd rfl hne
  | cons p rest =>
    obtain ⟨i, c⟩ := p
    have hl : s.Leads i c := hg.leads (i, c) (List.mem_cons_self ..)
    have hrest : ∀ p ∈ rest, s.Leads p.1 p.2 := fun p hp => hg.leads p (List.mem_cons_of_mem _ hp)
    have hnd := hg.nodup
    have hperm := hg.perm
    simp only [List.map_cons] at hnd hperm
    have hvn : (visited ++ [i]).Nodup := by
      have := hnd
      rw [show visited ++ i :: rest.map Prod.fst = (visited ++ [i]) ++ rest.map Prod.fst by simp] at this
      exact (List.nodup_append.1 this).1
    have hseen : ∀ j ∈ visited ++ [i], j < 2 * s.leafCount - 1 := by
      intro j hj
      rcases List.mem_append.1 hj with hj | hj
      · exact hg.seen_lt j hj
      · rw [List.mem_singleton] at hj; subst hj; exact hl.lt
    refine ⟨i, ?_⟩
    have hnode : nodeRead s.node i = s.nodeAt i := rfl
    by_cases hik : i < s.leafCount
    · obtain ⟨x, hx, hxn⟩ := h.leaves i hik
      have hint : s.internalsOf (visited ++ [i]) = s.internalsOf visited := by
        simp [State.internalsOf, List.filter_append, hik]
      have hstep : Machine.visitStep s.node ⟨ct, (i, c) :: rest, cnt⟩ =
          { ct := ctWrite ct x c.toEntry, bfsq := rest, cnt := cnt + 1 } := by
        simp only [Machine.visitStep, hnode, hxn]
      have hlen : 1 ≤ c.len := by
        rcases Nat.eq_zero_or_pos c.len with h0 | h0
        · have hr : c.render = [] := by simp [Code.render, BitVector.render, h0]
          have hw := hl.walk
          rw [hr] at hw
          injection hw with hw
          have := h.rootidx
          omega
        · exact h0
      have hvalid : ∀ sym, (ctRead (ctWrite ct x c.toEntry) sym).valid = true ↔
          sym = x ∨ (ctRead ct sym).valid = true := by
        intro sym
        rw [ctRead_ctWrite]
        by_cases hs : sym = x
        · simp [hs, Code.toEntry]
        · simp [hs]
      rw [hstep]
      have hwf : Table.wf entryDefault Config.nsym ct := hg.wf
      refine ⟨hrest, hseen, ?_, ?_, ?_, ?_, ?_, ?_, ?_⟩
      · simpa using hnd
      · rw [hint]; simpa using hperm
      · have := hg.cnt
        simp only [] at this ⊢
        rw [List.filter_append, List.length_append, ← this]; simp [hik]
      · show Table.wf entryDefault Config.nsym (Table.write entryDefault ct x.toNat c.toEntry)
        exact Table.wf_write hwf x.isLt
      · intro e he
        have he : e ∈ Table.write entryDefault ct x.toNat c.toEntry := he
        rcases Table.mem_write he with rfl | he
        · exact hl.wf
        · exact hg.blk e he
      · intro sym
        rw [hvalid]
        constructor
        · rintro (rfl | hv)
          · exact ⟨i, by simp, hik, hxn⟩
          · obtain ⟨j, hj, hjk, hjn⟩ := (hg.valid sym).1 hv
            exact ⟨j, by simp [hj], hjk, hjn⟩
        · rintro ⟨j, hj, hjk, hjn⟩
          rcases List.mem_append.1 hj with hj | hj
          · exact .inr ((hg.valid sym).2 ⟨j, hj, hjk, hjn⟩)
          · rw [List.mem_singleton] at hj
            subst hj
            rw [hxn] at hjn
            injection hjn with hjn _
            exact .inl hjn.symm
      · intro sym hv
        by_cases hs : sym = x
        · subst hs
          exact ⟨i, c, hik, hxn, hl, hlen, by rw [ctRead_ctWrite, if_pos rfl]⟩
        · have hv' : (ctRead ct sym).valid = true := by
            rcases (hvalid sym).1 hv with h | h
            · exact absurd h hs
            · exact h
          obtain ⟨j, d, hjk, hjn, hjl, hd, he⟩ := hg.entry sym hv'
          exact ⟨j, d, hjk, hjn, hjl, hd, by rw [ctRead_ctWrite, if_neg hs]; exact he⟩
    · have hik : s.leafCount ≤ i := by omega
      have hio := h.internals i hik hl.lt
      obtain ⟨w, l, r, hxn⟩ : ∃ w l r, s.nodeAt i = .internal w l r := by
        cases hn : s.nodeAt i with
        | leaf y w => have := hio.tag; rw [hn] at this; cases this
        | internal w l r => exact ⟨w, l, r, rfl⟩
      have hleft : s.child i false = l.toNat := by simp [State.child, hxn, TreeNode.left]
      have hright : s.child i true = r.toNat := by simp [State.child, hxn, TreeNode.right]
      have hint : s.internalsOf (visited ++ [i]) = s.internalsOf visited ++ [i] := by
        simp [State.internalsOf, List.filter_append, hik]
      have hch : s.childrenIn (s.internalsOf visited ++ [i]) =
          s.childrenIn (s.internalsOf visited) ++ [l.toNat, r.toNat] := by
        simp [State.childrenIn, hxn, TreeNode.left, TreeNode.right]
      have hstep : Machine.visitStep s.node ⟨ct, (i, c) :: rest, cnt⟩ =
          { ct := ct, bfsq := rest ++ [(l.toNat, c.append false), (r.toNat, c.append true)], cnt := cnt } := by
        simp only [Machine.visitStep, hnode, hxn, Code.copy]
      have hfilter : (visited ++ [i]).filter (fun j => decide (j < s.leafCount)) =
          visited.filter (fun j => decide (j < s.leafCount)) := by
        simp [List.filter_append, Nat.not_lt.2 hik]
      rw [hstep]
      have hperm' : (visited ++ [i] ++ (rest ++ [(l.toNat, c.append false), (r.toNat, c.append true)]).map Prod.fst).Perm
          (s.rootidx.toNat :: s.childrenIn (s.internalsOf (visited ++ [i]))) := by
        rw [hint, hch]
        have := hperm.append_right [l.toNat, r.toNat]
        simpa using this
      refine ⟨?_, hseen, State.nodup_of_perm h hk hvn hseen hperm', hperm', ?_, hg.wf, hg.blk, ?_, hg.entry⟩
      · intro p hp
        rcases List.mem_append.1 hp with hp | hp
        · exact hrest p hp
        · simp only [List.mem_cons, List.not_mem_nil, or_false] at hp
          rcases hp with rfl | rfl
          · rw [← hleft]; exact hl.child h hik false
          · rw [← hright]; exact hl.child h hik true
      · rw [hfilter]; exact hg.cnt
      · intro sym
        rw [hg.valid sym]
        constructor
        · rintro ⟨j, hj, hr⟩; exact ⟨j, by simp [hj], hr⟩
        · rintro ⟨j, hj, hjk, hjn⟩
          rcases List.mem_append.1 hj with hj | hj
          · exact ⟨j, hj, hjk, hjn⟩
          · rw [List.mem_singleton] at hj; omega

/-- The traversal, with turns enough: it ends with an empty queue (43_codegen.md R145). -/
theorem State.GenInv.visitLoop {s : State} (h : s.TreeOk) (hk : 2 ≤ s.leafCount) (fuel : Nat) {visited : List Nat}
    {g : GenCtx} (hg : s.GenInv visited g) (hf : 2 * s.leafCount - 1 ≤ fuel + visited.length) :
    ∃ seen, s.GenInv seen (Machine.visitLoop s.node fuel g) ∧ (Machine.visitLoop s.node fuel g).bfsq = [] := by
  have hbound : ∀ {v : List Nat} {g : GenCtx}, s.GenInv v g → v.length + g.bfsq.length ≤ 2 * s.leafCount - 1 := by
    intro v g hg
    have hsub : (v ++ g.bfsq.map Prod.fst) ⊆ List.range (2 * s.leafCount - 1) := by
      intro j hj
      rw [List.mem_range]
      rcases List.mem_append.1 hj with hj | hj
      · exact hg.seen_lt j hj
      · obtain ⟨p, hp, rfl⟩ := List.mem_map.1 hj
        exact (hg.leads p hp).lt
    have := (hg.nodup.subperm hsub).length_le
    simpa using this
  induction fuel generalizing visited g with
  | zero =>
    refine ⟨visited, hg, ?_⟩
    have := hbound hg
    show g.bfsq = []
    exact List.length_eq_zero_iff.1 (by omega)
  | succ n ih =>
    unfold Machine.visitLoop
    by_cases hq : g.bfsq = []
    · rw [if_pos (by simp [hq])]; exact ⟨visited, hg, hq⟩
    · rw [if_neg (by simpa using hq)]
      obtain ⟨i, hi⟩ := hg.visitStep h hk hq
      exact ih hi (by simp; omega)

/-- When the queue is empty every node has been seen. -/
theorem State.GenInv.all_seen {s : State} (h : s.TreeOk) (hk : 2 ≤ s.leafCount) {visited : List Nat} {g : GenCtx}
    (hg : s.GenInv visited g) (hq : g.bfsq = []) : ∀ j < 2 * s.leafCount - 1, j ∈ visited := by
  have hperm : visited.Perm (s.rootidx.toNat :: s.childrenIn (s.internalsOf visited)) := by
    have := hg.perm; rw [hq] at this; simpa using this
  have key : ∀ n j, j + n = 2 * s.leafCount - 2 → j ∈ visited := by
    intro n
    induction n using Nat.strong_induction_on with
    | _ n ih =>
      intro j hj
      rw [hperm.mem_iff]
      by_cases hr : j = s.rootidx.toNat
      · rw [hr]; exact List.mem_cons_self ..
      · have hroot := h.rootidx
        have hpar := h.parents j (by omega)
        have hmem := List.one_le_count_iff.1 (show 1 ≤ List.count j _ from Nat.le_of_eq hpar.symm)
        obtain ⟨i, hi, hji⟩ := List.mem_flatMap.1 hmem
        have hi := List.mem_range'_1.1 hi
        have hio := h.internals i hi.1 (by omega)
        have := hio.left_lt
        have := hio.right_lt
        have hji' : j = (s.nodeAt i).left.toNat ∨ j = (s.nodeAt i).right.toNat := by simpa [State.nodeAt] using hji
        have hiv : i ∈ visited := ih (2 * s.leafCount - 2 - i) (by omega) i (by omega)
        refine List.mem_cons_of_mem _ (List.mem_flatMap.2 ⟨i, List.mem_filter.2 ⟨hiv, by simpa using hi.1⟩, hji⟩)
  intro j hj
  exact key (2 * s.leafCount - 2 - j) j (by omega)

/-! ## The blocks of the records, for any node memory (20_memory.md R50, 43_codegen.md R145) -/

/-- What bounds the codes after `n` visits, whatever the node memory holds: the node at position `p` of the queue is visited
as number `n + p + 1`, and each level above it has had two visits or more, so its code has at most half as many bits; the
last of the queue is a right child (or the root) and has a visit to spare. -/
structure GenCtx.Shallow (n : Nat) (g : GenCtx) : Prop where
  queue : ∀ p i c, g.bfsq[p]? = some (i, c) → Memory.wf Config.codeBlocks c.bv.blk ∧ 2 * c.len ≤ n + p + 1 ∧
    (p + 1 = g.bfsq.length → 2 * c.len ≤ n + p)
  ct : ∀ e ∈ g.ct, Memory.wf Config.codeBlocks e.2.blk

/-- Writing a record with well-formed blocks keeps the blocks of every record well formed. -/
theorem ctWrite_blk {ct : Table CodeEntry} (h : ∀ e ∈ ct, Memory.wf Config.codeBlocks e.2.blk) (sym : Symbol)
    {e : CodeEntry} (he : Memory.wf Config.codeBlocks e.blk) :
    ∀ x ∈ ctWrite ct sym e, Memory.wf Config.codeBlocks x.2.blk := by
  intro x hx
  rcases Table.mem_write (show x ∈ Table.write entryDefault ct sym.toNat e from hx) with rfl | hx
  · exact he
  · exact h x hx

/-- A visit among the first `NNODEMAX` keeps every code inside its record, whatever the node memory holds. -/
theorem GenCtx.Shallow.visitStep {node : Table TreeNode} {n : Nat} {g : GenCtx} (h : g.Shallow n)
    (hn : n < Config.nnodemax) : (Machine.visitStep node g).Shallow (n + 1) := by
  obtain ⟨ct, bfsq, cnt⟩ := g
  cases bfsq with
  | nil => exact ⟨fun p i c hp => by simp [Machine.visitStep] at hp, h.ct⟩
  | cons front rest =>
    obtain ⟨i, c⟩ := front
    obtain ⟨hwf, hle, hlast⟩ := h.queue 0 i c rfl
    have hrest : ∀ p j d, rest[p]? = some (j, d) → Memory.wf Config.codeBlocks d.bv.blk ∧ 2 * d.len ≤ n + 1 + p + 1 ∧
        (p + 1 = rest.length → 2 * d.len ≤ n + 1 + p) := by
      intro p j d hp
      obtain ⟨h1, h2, h3⟩ := h.queue (p + 1) j d (by simpa using hp)
      refine ⟨h1, by omega, fun hl => ?_⟩
      have := h3 (by simpa using hl)
      omega
    cases hnode : nodeRead node i with
    | leaf sym w =>
      simp only [Machine.visitStep, hnode]
      exact ⟨hrest, ctWrite_blk h.ct sym (e := c.toEntry) hwf⟩
    | internal w l r =>
      simp only [Machine.visitStep, hnode, Code.copy]
      have hlen : c.len < 8 * Config.codeBlocks := by
        simp only [Config.codeBlocks, Config.nnodemax] at hn ⊢; omega
      have hdeep : 2 * c.len ≤ n + rest.length := by
        cases rest with
        | nil => exact hlast rfl
        | cons x xs => rw [List.length_cons]; omega
      refine ⟨fun p j d hp => ?_, h.ct⟩
      simp only [List.length_append, List.length_cons, List.length_nil]
      rcases Nat.lt_or_ge p rest.length with hlt | hge
      · rw [List.getElem?_append_left hlt] at hp
        obtain ⟨h1, h2, _⟩ := hrest p j d hp
        exact ⟨h1, h2, fun hl => by omega⟩
      · rw [List.getElem?_append_right hge] at hp
        match hq : p - rest.length with
        | 0 =>
          rw [hq] at hp
          simp only [List.getElem?_cons_zero, Option.some.injEq, Prod.mk.injEq] at hp
          obtain ⟨_, rfl⟩ := hp
          refine ⟨Code.append_wf hwf hlen _, ?_, fun hl => ?_⟩ <;> rw [Code.append_len] <;> omega
        | 1 =>
          rw [hq] at hp
          simp only [List.getElem?_cons_succ, List.getElem?_cons_zero, Option.some.injEq, Prod.mk.injEq] at hp
          obtain ⟨_, rfl⟩ := hp
          refine ⟨Code.append_wf hwf hlen _, ?_, fun hl => ?_⟩ <;> rw [Code.append_len] <;> omega
        | k + 2 => rw [hq] at hp; simp at hp

/-- The whole traversal keeps every code inside its record. -/
theorem GenCtx.Shallow.visitLoop {node : Table TreeNode} {fuel n : Nat} {g : GenCtx} (h : g.Shallow n)
    (hn : n + fuel ≤ Config.nnodemax) : ∀ e ∈ (Machine.visitLoop node fuel g).ct, Memory.wf Config.codeBlocks e.2.blk := by
  induction fuel generalizing n g with
  | zero => exact h.ct
  | succ fuel ih =>
    unfold Machine.visitLoop
    split
    · exact h.ct
    · exact ih (h.visitStep (by omega)) (by omega)

/-- GEN's traversal without a root (43_codegen.md R144). -/
theorem State.traverse_of_no_root {s : State} (h : s.rootv = false) :
    s.traverse = { ct := invalidateCt s.ct, bfsq := [], cnt := 0 } := by
  simp only [State.traverse, h, Bool.false_eq_true, if_false]

/-- GEN's traversal of a leaf root (43_codegen.md R143). -/
theorem State.traverse_of_leaf {s : State} {sym : Symbol} {w : Weight} (h : s.rootv = true)
    (hn : s.nodeAt s.rootidx.toNat = .leaf sym w) :
    s.traverse = { ct := ctWrite (invalidateCt s.ct) sym (Code.empty.append false).toEntry, bfsq := [], cnt := 1 } := by
  simp only [State.traverse, h, hn, if_true]

/-- GEN's traversal of an internal root (43_codegen.md R142). -/
theorem State.traverse_of_internal {s : State} {w : Weight} {l r : NodeIdx} (h : s.rootv = true)
    (hn : s.nodeAt s.rootidx.toNat = .internal w l r) :
    s.traverse = Machine.visitLoop s.node Config.nnodemax
      { ct := invalidateCt s.ct, bfsq := [(s.rootidx.toNat, Code.empty)], cnt := 0 } := by
  simp only [State.traverse, h, hn, if_true]

/-- A traversal starts shallow. -/
theorem GenCtx.Shallow.start {ct : Table CodeEntry} (h : ∀ e ∈ ct, Memory.wf Config.codeBlocks e.2.blk) (root : Nat) :
    GenCtx.Shallow 0 { ct := ct, bfsq := [(root, Code.empty)], cnt := 0 } := by
  refine ⟨fun p i c hp => ?_, h⟩
  match p with
  | 0 =>
    simp only [List.getElem?_cons_zero, Option.some.injEq, Prod.mk.injEq] at hp
    obtain ⟨_, rfl⟩ := hp
    exact ⟨Table.wf_nil, Nat.zero_le _, fun _ => Nat.zero_le _⟩
  | p + 1 => simp at hp

/-- GEN keeps the blocks of every record inside the record and canonical, whatever the node memory holds. -/
theorem State.traverse_blk {s : State} (h : ∀ e ∈ s.ct, Memory.wf Config.codeBlocks e.2.blk) :
    ∀ e ∈ s.traverse.ct, Memory.wf Config.codeBlocks e.2.blk := by
  have hinv := invalidateCt_blk h
  have hone : Memory.wf Config.codeBlocks (Code.empty.append false).bv.blk :=
    Code.append_wf Table.wf_nil (show 0 < 8 * Config.codeBlocks by decide) false
  cases hr : s.rootv with
  | false =>
    rw [State.traverse_of_no_root hr]
    generalize invalidateCt s.ct = ct at hinv ⊢
    exact hinv
  | true =>
    cases hn : s.nodeAt s.rootidx.toNat with
    | leaf sym w =>
      rw [State.traverse_of_leaf hr hn]
      generalize invalidateCt s.ct = ct at hinv ⊢
      exact ctWrite_blk hinv sym (e := (Code.empty.append false).toEntry) hone
    | internal w l r =>
      rw [State.traverse_of_internal hr hn]
      generalize invalidateCt s.ct = ct at hinv ⊢
      exact (GenCtx.Shallow.start hinv _).visitLoop (Nat.le_of_eq (Nat.zero_add _))

end Sys2Proof.Machine
end

