-- ==== Sys2Proof/Laws/Decode.lean ====
section
/-! SUPPORT. The laws of the command word: its fields, the opcode map, and what a decoded word says. -/

namespace Sys2Proof

@[simp] theorem opField_packWord (op : BitVec 8) (sym : Symbol) (rsv : BitVec 16) (imm : Imm) :
    opField (packWord op sym rsv imm) = op := by
  apply BitVec.eq_of_getLsbD_eq
  intro i hi
  simp only [opField, packWord, BitVec.getLsbD_extractLsb', BitVec.getLsbD_append]
  simp [hi, show ¬ (56 + i < 56) by omega]

@[simp] theorem symField_packWord (op : BitVec 8) (sym : Symbol) (rsv : BitVec 16) (imm : Imm) :
    symField (packWord op sym rsv imm) = sym := by
  apply BitVec.eq_of_getLsbD_eq
  intro i hi
  simp only [symField, packWord, BitVec.getLsbD_extractLsb', BitVec.getLsbD_append]
  simp [hi, show 48 + i < 56 by omega, show ¬ (48 + i < 48) by omega]

@[simp] theorem rsvField_packWord (op : BitVec 8) (sym : Symbol) (rsv : BitVec 16) (imm : Imm) :
    rsvField (packWord op sym rsv imm) = rsv := by
  apply BitVec.eq_of_getLsbD_eq
  intro i hi
  simp only [rsvField, packWord, BitVec.getLsbD_extractLsb', BitVec.getLsbD_append]
  simp [hi, show 32 + i < 56 by omega, show 32 + i < 48 by omega, show ¬ (32 + i < 32) by omega]

@[simp] theorem immField_packWord (op : BitVec 8) (sym : Symbol) (rsv : BitVec 16) (imm : Imm) :
    immField (packWord op sym rsv imm) = imm := by
  apply BitVec.eq_of_getLsbD_eq
  intro i hi
  simp only [immField, packWord, BitVec.getLsbD_extractLsb', BitVec.getLsbD_append]
  simp [hi, show i < 56 by omega, show i < 48 by omega]

/-- A word is the packing of its fields (30_encoding.md R71). -/
theorem packWord_fields (w : Word) : packWord (opField w) (symField w) (rsvField w) (immField w) = w := by
  apply BitVec.eq_of_getLsbD_eq
  intro i hi
  simp only [opField, symField, rsvField, immField, packWord, BitVec.getLsbD_extractLsb', BitVec.getLsbD_append]
  by_cases h1 : i < 32
  · simp [h1, show i < 56 by omega, show i < 48 by omega]
  by_cases h2 : i < 48
  · simp [h1, h2, show i < 56 by omega, show i - 32 < 16 by omega, show 32 + (i - 32) = i by omega]
  by_cases h3 : i < 56
  · simp [h2, h3, show i - 48 < 8 by omega, show 48 + (i - 48) = i by omega]
  · simp [h3, show i - 56 < 8 by omega, show 56 + (i - 56) = i by omega]

/-- Two words with the same fields are equal. -/
theorem word_ext {v w : Word} (h1 : opField v = opField w) (h2 : symField v = symField w)
    (h3 : rsvField v = rsvField w) (h4 : immField v = immField w) : v = w := by
  rw [← packWord_fields v, ← packWord_fields w, h1, h2, h3, h4]

/-- The opcode map is one to one: each code selects its opcode (30_encoding.md R76). -/
@[simp] theorem Opcode.ofByte_code (o : Opcode) : Opcode.ofByte o.code = some o := by cases o <;> decide

/-- The opcode a byte selects has that byte as its code. -/
theorem Opcode.code_of_ofByte {b : BitVec 8} {o : Opcode} (h : Opcode.ofByte b = some o) : o.code = b := by
  have := List.find?_some h
  simpa using this

@[simp] theorem Opcode.toInstr_opcode (o : Opcode) (sym : Symbol) (imm : Imm) : (o.toInstr sym imm).opcode = o := by
  cases o <;> rfl

@[simp] theorem Instr.toInstr_operands (i : Instr) : i.opcode.toInstr i.symOperand i.immOperand = i := by
  cases i <;> rfl

theorem Instr.symOperand_eq_zero {i : Instr} (h : i.opcode.format.hasSym = false) : i.symOperand = 0 := by
  cases i <;> first | rfl | simp [Instr.opcode, Opcode.format, Format.hasSym] at h

theorem Instr.immOperand_eq_zero {i : Instr} (h : i.opcode.format.hasImm = false) : i.immOperand = 0 := by
  cases i <;> first | rfl | simp [Instr.opcode, Opcode.format, Format.hasImm] at h

@[simp] theorem opField_encode (i : Instr) : opField (encode i) = i.opcode.code := by simp [encode]
@[simp] theorem symField_encode (i : Instr) : symField (encode i) = i.symOperand := by simp [encode]
@[simp] theorem rsvField_encode (i : Instr) : rsvField (encode i) = 0 := by simp [encode]
@[simp] theorem immField_encode (i : Instr) : immField (encode i) = i.immOperand := by simp [encode]

/-- What a word that decodes says of its fields: the five tests of the decode function (30_encoding.md R76). -/
theorem decode_ok_cases {w : Word} {i : Instr} (h : decode w = .ok i) :
    ∃ o, Opcode.ofByte (opField w) = some o ∧ rsvField w = 0 ∧
      (o.format.hasSym = false → symField w = 0) ∧ (o.format.hasImm = false → immField w = 0) ∧
      (o = .rdstat → registerNumberOk (immField w) = true) ∧ i = o.toInstr (symField w) (immField w) := by
  unfold decode at h
  split at h
  · cases h
  · rename_i o ho
    split at h; · cases h
    rename_i hr
    split at h; · cases h
    rename_i hs
    split at h; · cases h
    rename_i hm
    split at h; · cases h
    rename_i hn
    injection h with h
    refine ⟨o, ho, by simpa using hr, fun hf => ?_, fun hf => ?_, fun hf => ?_, h.symm⟩
    · by_contra hne; exact hs ⟨hf, hne⟩
    · by_contra hne; exact hm ⟨hf, hne⟩
    · by_contra hne; exact hn ⟨hf, by simpa using hne⟩

/-- A word whose fields pass the five tests decodes to the command they make (30_encoding.md R76). -/
theorem decode_of_fields {w : Word} {o : Opcode} (ho : Opcode.ofByte (opField w) = some o) (hr : rsvField w = 0)
    (hs : o.format.hasSym = false → symField w = 0) (hm : o.format.hasImm = false → immField w = 0)
    (hn : o = .rdstat → registerNumberOk (immField w) = true) : decode w = .ok (o.toInstr (symField w) (immField w)) := by
  unfold decode
  rw [ho]
  simp only []
  rw [if_neg (by simpa using hr), if_neg (fun ⟨hf, hne⟩ => hne (hs hf)), if_neg (fun ⟨hf, hne⟩ => hne (hm hf)),
    if_neg (fun ⟨hf, hne⟩ => by rw [hn hf] at hne; cases hne)]

end Sys2Proof
end

