-- ==== Sys2Proof/Laws/State.lean ====
section
/-! SUPPORT. One lemma per field of State per update, and the update that two updates make. -/

namespace Sys2Proof.Machine

/-! ## respond -/

@[simp] theorem State.respond_phase (s : State) (d : Word) : (s.respond d).phase = s.phase := rfl
@[simp] theorem State.respond_rootv (s : State) (d : Word) : (s.respond d).rootv = s.rootv := rfl
@[simp] theorem State.respond_empty (s : State) (d : Word) : (s.respond d).empty = s.empty := rfl
@[simp] theorem State.respond_degen (s : State) (d : Word) : (s.respond d).degen = s.degen := rfl
@[simp] theorem State.respond_ill (s : State) (d : Word) : (s.respond d).ill = s.ill := rfl
@[simp] theorem State.respond_pherr (s : State) (d : Word) : (s.respond d).pherr = s.pherr := rfl
@[simp] theorem State.respond_wovf (s : State) (d : Word) : (s.respond d).wovf = s.wovf := rfl
@[simp] theorem State.respond_oovf (s : State) (d : Word) : (s.respond d).oovf = s.oovf := rfl
@[simp] theorem State.respond_unk (s : State) (d : Word) : (s.respond d).unk = s.unk := rfl
@[simp] theorem State.respond_rootidx (s : State) (d : Word) : (s.respond d).rootidx = s.rootidx := rfl
@[simp] theorem State.respond_nnodes (s : State) (d : Word) : (s.respond d).nnodes = s.nnodes := rfl
@[simp] theorem State.respond_nsyms (s : State) (d : Word) : (s.respond d).nsyms = s.nsyms := rfl
@[simp] theorem State.respond_unkcnt (s : State) (d : Word) : (s.respond d).unkcnt = s.unkcnt := rfl
@[simp] theorem State.respond_lasterr (s : State) (d : Word) : (s.respond d).lasterr = s.lasterr := rfl
@[simp] theorem State.respond_freq (s : State) (d : Word) : (s.respond d).freq = s.freq := rfl
@[simp] theorem State.respond_node (s : State) (d : Word) : (s.respond d).node = s.node := rfl
@[simp] theorem State.respond_ct (s : State) (d : Word) : (s.respond d).ct = s.ct := rfl
@[simp] theorem State.respond_outLen (s : State) (d : Word) : (s.respond d).outLen = s.outLen := rfl
@[simp] theorem State.respond_outCap (s : State) (d : Word) : (s.respond d).outCap = s.outCap := rfl
@[simp] theorem State.respond_outBlk (s : State) (d : Word) : (s.respond d).outBlk = s.outBlk := rfl
@[simp] theorem State.respond_pq (s : State) (d : Word) : (s.respond d).pq = s.pq := rfl
@[simp] theorem State.respond_bfsq (s : State) (d : Word) : (s.respond d).bfsq = s.bfsq := rfl
@[simp] theorem State.respond_resp (s : State) (d : Word) : (s.respond d).resp = some ⟨.ok, d⟩ := rfl
@[simp] theorem State.respond_host (s : State) (d : Word) : (s.respond d).host = s.host := rfl

/-! ## markCondition -/

@[simp] theorem State.markCondition_phase (s : State) (c : Condition) :
    (s.markCondition c).phase = s.phase := by cases c <;> rfl
@[simp] theorem State.markCondition_rootv (s : State) (c : Condition) :
    (s.markCondition c).rootv = s.rootv := by cases c <;> rfl
@[simp] theorem State.markCondition_empty (s : State) (c : Condition) :
    (s.markCondition c).empty = s.empty := by cases c <;> rfl
@[simp] theorem State.markCondition_degen (s : State) (c : Condition) :
    (s.markCondition c).degen = s.degen := by cases c <;> rfl
@[simp] theorem State.markCondition_rootidx (s : State) (c : Condition) :
    (s.markCondition c).rootidx = s.rootidx := by cases c <;> rfl
@[simp] theorem State.markCondition_nnodes (s : State) (c : Condition) :
    (s.markCondition c).nnodes = s.nnodes := by cases c <;> rfl
@[simp] theorem State.markCondition_nsyms (s : State) (c : Condition) :
    (s.markCondition c).nsyms = s.nsyms := by cases c <;> rfl
@[simp] theorem State.markCondition_lasterr (s : State) (c : Condition) :
    (s.markCondition c).lasterr = s.lasterr := by cases c <;> rfl
@[simp] theorem State.markCondition_freq (s : State) (c : Condition) :
    (s.markCondition c).freq = s.freq := by cases c <;> rfl
@[simp] theorem State.markCondition_node (s : State) (c : Condition) :
    (s.markCondition c).node = s.node := by cases c <;> rfl
@[simp] theorem State.markCondition_ct (s : State) (c : Condition) :
    (s.markCondition c).ct = s.ct := by cases c <;> rfl
@[simp] theorem State.markCondition_outLen (s : State) (c : Condition) :
    (s.markCondition c).outLen = s.outLen := by cases c <;> rfl
@[simp] theorem State.markCondition_outCap (s : State) (c : Condition) :
    (s.markCondition c).outCap = s.outCap := by cases c <;> rfl
@[simp] theorem State.markCondition_outBlk (s : State) (c : Condition) :
    (s.markCondition c).outBlk = s.outBlk := by cases c <;> rfl
@[simp] theorem State.markCondition_pq (s : State) (c : Condition) :
    (s.markCondition c).pq = s.pq := by cases c <;> rfl
@[simp] theorem State.markCondition_bfsq (s : State) (c : Condition) :
    (s.markCondition c).bfsq = s.bfsq := by cases c <;> rfl
@[simp] theorem State.markCondition_resp (s : State) (c : Condition) :
    (s.markCondition c).resp = s.resp := by cases c <;> rfl
@[simp] theorem State.markCondition_host (s : State) (c : Condition) :
    (s.markCondition c).host = s.host := by cases c <;> rfl

@[simp] theorem State.markCondition_ill (s : State) (c : Condition) :
    (s.markCondition c).ill = (s.ill || decide (c = .illegalCommand)) := by cases c <;> simp [State.markCondition]
@[simp] theorem State.markCondition_pherr (s : State) (c : Condition) :
    (s.markCondition c).pherr = (s.pherr || decide (c = .phaseError)) := by cases c <;> simp [State.markCondition]
@[simp] theorem State.markCondition_wovf (s : State) (c : Condition) :
    (s.markCondition c).wovf = (s.wovf || decide (c = .weightOverflow)) := by cases c <;> simp [State.markCondition]
@[simp] theorem State.markCondition_oovf (s : State) (c : Condition) :
    (s.markCondition c).oovf = (s.oovf || decide (c = .outputOverflow)) := by cases c <;> simp [State.markCondition]
@[simp] theorem State.markCondition_unk (s : State) (c : Condition) :
    (s.markCondition c).unk = (s.unk || decide (c = .unknownSymbol)) := by cases c <;> simp [State.markCondition]
@[simp] theorem State.markCondition_unkcnt (s : State) (c : Condition) :
    (s.markCondition c).unkcnt = if c = .unknownSymbol then saturatingInc s.unkcnt else s.unkcnt := by
  cases c <;> simp [State.markCondition]

/-! ## deliver -/

@[simp] theorem State.deliver_phase (s : State) (c : Condition) (d : Word) :
    (s.deliver c d).phase = s.phase := by cases c <;> rfl
@[simp] theorem State.deliver_rootv (s : State) (c : Condition) (d : Word) :
    (s.deliver c d).rootv = s.rootv := by cases c <;> rfl
@[simp] theorem State.deliver_empty (s : State) (c : Condition) (d : Word) :
    (s.deliver c d).empty = s.empty := by cases c <;> rfl
@[simp] theorem State.deliver_degen (s : State) (c : Condition) (d : Word) :
    (s.deliver c d).degen = s.degen := by cases c <;> rfl
@[simp] theorem State.deliver_ill (s : State) (c : Condition) (d : Word) :
    (s.deliver c d).ill = (s.markCondition c).ill := by cases c <;> rfl
@[simp] theorem State.deliver_pherr (s : State) (c : Condition) (d : Word) :
    (s.deliver c d).pherr = (s.markCondition c).pherr := by cases c <;> rfl
@[simp] theorem State.deliver_wovf (s : State) (c : Condition) (d : Word) :
    (s.deliver c d).wovf = (s.markCondition c).wovf := by cases c <;> rfl
@[simp] theorem State.deliver_oovf (s : State) (c : Condition) (d : Word) :
    (s.deliver c d).oovf = (s.markCondition c).oovf := by cases c <;> rfl
@[simp] theorem State.deliver_unk (s : State) (c : Condition) (d : Word) :
    (s.deliver c d).unk = (s.markCondition c).unk := by cases c <;> rfl
@[simp] theorem State.deliver_rootidx (s : State) (c : Condition) (d : Word) :
    (s.deliver c d).rootidx = s.rootidx := by cases c <;> rfl
@[simp] theorem State.deliver_nnodes (s : State) (c : Condition) (d : Word) :
    (s.deliver c d).nnodes = s.nnodes := by cases c <;> rfl
@[simp] theorem State.deliver_nsyms (s : State) (c : Condition) (d : Word) :
    (s.deliver c d).nsyms = s.nsyms := by cases c <;> rfl
@[simp] theorem State.deliver_unkcnt (s : State) (c : Condition) (d : Word) :
    (s.deliver c d).unkcnt = (s.markCondition c).unkcnt := by cases c <;> rfl
@[simp] theorem State.deliver_lasterr (s : State) (c : Condition) (d : Word) :
    (s.deliver c d).lasterr = c := by cases c <;> rfl
@[simp] theorem State.deliver_freq (s : State) (c : Condition) (d : Word) :
    (s.deliver c d).freq = s.freq := by cases c <;> rfl
@[simp] theorem State.deliver_node (s : State) (c : Condition) (d : Word) :
    (s.deliver c d).node = s.node := by cases c <;> rfl
@[simp] theorem State.deliver_ct (s : State) (c : Condition) (d : Word) :
    (s.deliver c d).ct = s.ct := by cases c <;> rfl
@[simp] theorem State.deliver_outLen (s : State) (c : Condition) (d : Word) :
    (s.deliver c d).outLen = s.outLen := by cases c <;> rfl
@[simp] theorem State.deliver_outCap (s : State) (c : Condition) (d : Word) :
    (s.deliver c d).outCap = s.outCap := by cases c <;> rfl
@[simp] theorem State.deliver_outBlk (s : State) (c : Condition) (d : Word) :
    (s.deliver c d).outBlk = s.outBlk := by cases c <;> rfl
@[simp] theorem State.deliver_pq (s : State) (c : Condition) (d : Word) :
    (s.deliver c d).pq = s.pq := by cases c <;> rfl
@[simp] theorem State.deliver_bfsq (s : State) (c : Condition) (d : Word) :
    (s.deliver c d).bfsq = s.bfsq := by cases c <;> rfl
@[simp] theorem State.deliver_resp (s : State) (c : Condition) (d : Word) :
    (s.deliver c d).resp = some ⟨c, d⟩ := by cases c <;> rfl
@[simp] theorem State.deliver_host (s : State) (c : Condition) (d : Word) :
    (s.deliver c d).host = s.host := by cases c <;> rfl

/-! ## setFreq -/

@[simp] theorem State.setFreq_phase (s : State) (sym : Symbol) (v : Weight) : (s.setFreq sym v).phase = s.phase := rfl
@[simp] theorem State.setFreq_rootv (s : State) (sym : Symbol) (v : Weight) : (s.setFreq sym v).rootv = s.rootv := rfl
@[simp] theorem State.setFreq_empty (s : State) (sym : Symbol) (v : Weight) : (s.setFreq sym v).empty = s.empty := rfl
@[simp] theorem State.setFreq_degen (s : State) (sym : Symbol) (v : Weight) : (s.setFreq sym v).degen = s.degen := rfl
@[simp] theorem State.setFreq_ill (s : State) (sym : Symbol) (v : Weight) : (s.setFreq sym v).ill = s.ill := rfl
@[simp] theorem State.setFreq_pherr (s : State) (sym : Symbol) (v : Weight) : (s.setFreq sym v).pherr = s.pherr := rfl
@[simp] theorem State.setFreq_wovf (s : State) (sym : Symbol) (v : Weight) : (s.setFreq sym v).wovf = s.wovf := rfl
@[simp] theorem State.setFreq_oovf (s : State) (sym : Symbol) (v : Weight) : (s.setFreq sym v).oovf = s.oovf := rfl
@[simp] theorem State.setFreq_unk (s : State) (sym : Symbol) (v : Weight) : (s.setFreq sym v).unk = s.unk := rfl
@[simp] theorem State.setFreq_rootidx (s : State) (sym : Symbol) (v : Weight) :
    (s.setFreq sym v).rootidx = s.rootidx := rfl
@[simp] theorem State.setFreq_nnodes (s : State) (sym : Symbol) (v : Weight) :
    (s.setFreq sym v).nnodes = s.nnodes := rfl
@[simp] theorem State.setFreq_nsyms (s : State) (sym : Symbol) (v : Weight) : (s.setFreq sym v).nsyms = s.nsyms := rfl
@[simp] theorem State.setFreq_unkcnt (s : State) (sym : Symbol) (v : Weight) :
    (s.setFreq sym v).unkcnt = s.unkcnt := rfl
@[simp] theorem State.setFreq_lasterr (s : State) (sym : Symbol) (v : Weight) :
    (s.setFreq sym v).lasterr = s.lasterr := rfl
@[simp] theorem State.setFreq_freq (s : State) (sym : Symbol) (v : Weight) :
    (s.setFreq sym v).freq = Table.write weightDefault s.freq sym.toNat v := rfl
@[simp] theorem State.setFreq_node (s : State) (sym : Symbol) (v : Weight) : (s.setFreq sym v).node = s.node := rfl
@[simp] theorem State.setFreq_ct (s : State) (sym : Symbol) (v : Weight) : (s.setFreq sym v).ct = s.ct := rfl
@[simp] theorem State.setFreq_outLen (s : State) (sym : Symbol) (v : Weight) :
    (s.setFreq sym v).outLen = s.outLen := rfl
@[simp] theorem State.setFreq_outCap (s : State) (sym : Symbol) (v : Weight) :
    (s.setFreq sym v).outCap = s.outCap := rfl
@[simp] theorem State.setFreq_outBlk (s : State) (sym : Symbol) (v : Weight) :
    (s.setFreq sym v).outBlk = s.outBlk := rfl
@[simp] theorem State.setFreq_pq (s : State) (sym : Symbol) (v : Weight) : (s.setFreq sym v).pq = s.pq := rfl
@[simp] theorem State.setFreq_bfsq (s : State) (sym : Symbol) (v : Weight) : (s.setFreq sym v).bfsq = s.bfsq := rfl
@[simp] theorem State.setFreq_resp (s : State) (sym : Symbol) (v : Weight) : (s.setFreq sym v).resp = s.resp := rfl
@[simp] theorem State.setFreq_host (s : State) (sym : Symbol) (v : Weight) : (s.setFreq sym v).host = s.host := rfl

/-! ## setOut -/

@[simp] theorem State.setOut_phase (s : State) (c : Code) : (s.setOut c).phase = s.phase := rfl
@[simp] theorem State.setOut_rootv (s : State) (c : Code) : (s.setOut c).rootv = s.rootv := rfl
@[simp] theorem State.setOut_empty (s : State) (c : Code) : (s.setOut c).empty = s.empty := rfl
@[simp] theorem State.setOut_degen (s : State) (c : Code) : (s.setOut c).degen = s.degen := rfl
@[simp] theorem State.setOut_ill (s : State) (c : Code) : (s.setOut c).ill = s.ill := rfl
@[simp] theorem State.setOut_pherr (s : State) (c : Code) : (s.setOut c).pherr = s.pherr := rfl
@[simp] theorem State.setOut_wovf (s : State) (c : Code) : (s.setOut c).wovf = s.wovf := rfl
@[simp] theorem State.setOut_oovf (s : State) (c : Code) : (s.setOut c).oovf = s.oovf := rfl
@[simp] theorem State.setOut_unk (s : State) (c : Code) : (s.setOut c).unk = s.unk := rfl
@[simp] theorem State.setOut_rootidx (s : State) (c : Code) : (s.setOut c).rootidx = s.rootidx := rfl
@[simp] theorem State.setOut_nnodes (s : State) (c : Code) : (s.setOut c).nnodes = s.nnodes := rfl
@[simp] theorem State.setOut_nsyms (s : State) (c : Code) : (s.setOut c).nsyms = s.nsyms := rfl
@[simp] theorem State.setOut_unkcnt (s : State) (c : Code) : (s.setOut c).unkcnt = s.unkcnt := rfl
@[simp] theorem State.setOut_lasterr (s : State) (c : Code) : (s.setOut c).lasterr = s.lasterr := rfl
@[simp] theorem State.setOut_freq (s : State) (c : Code) : (s.setOut c).freq = s.freq := rfl
@[simp] theorem State.setOut_node (s : State) (c : Code) : (s.setOut c).node = s.node := rfl
@[simp] theorem State.setOut_ct (s : State) (c : Code) : (s.setOut c).ct = s.ct := rfl
@[simp] theorem State.setOut_outLen (s : State) (c : Code) : (s.setOut c).outLen = BitVec.ofNat 17 c.len := rfl
@[simp] theorem State.setOut_outCap (s : State) (c : Code) : (s.setOut c).outCap = BitVec.ofNat 17 c.bv.cap := rfl
@[simp] theorem State.setOut_outBlk (s : State) (c : Code) : (s.setOut c).outBlk = c.bv.blk := rfl
@[simp] theorem State.setOut_pq (s : State) (c : Code) : (s.setOut c).pq = s.pq := rfl
@[simp] theorem State.setOut_bfsq (s : State) (c : Code) : (s.setOut c).bfsq = s.bfsq := rfl
@[simp] theorem State.setOut_resp (s : State) (c : Code) : (s.setOut c).resp = s.resp := rfl
@[simp] theorem State.setOut_host (s : State) (c : Code) : (s.setOut c).host = s.host := rfl

/-! ## clearOut -/

@[simp] theorem State.clearOut_phase (s : State) : (s.clearOut).phase = s.phase := rfl
@[simp] theorem State.clearOut_rootv (s : State) : (s.clearOut).rootv = s.rootv := rfl
@[simp] theorem State.clearOut_empty (s : State) : (s.clearOut).empty = s.empty := rfl
@[simp] theorem State.clearOut_degen (s : State) : (s.clearOut).degen = s.degen := rfl
@[simp] theorem State.clearOut_ill (s : State) : (s.clearOut).ill = s.ill := rfl
@[simp] theorem State.clearOut_pherr (s : State) : (s.clearOut).pherr = s.pherr := rfl
@[simp] theorem State.clearOut_wovf (s : State) : (s.clearOut).wovf = s.wovf := rfl
@[simp] theorem State.clearOut_oovf (s : State) : (s.clearOut).oovf = s.oovf := rfl
@[simp] theorem State.clearOut_unk (s : State) : (s.clearOut).unk = s.unk := rfl
@[simp] theorem State.clearOut_rootidx (s : State) : (s.clearOut).rootidx = s.rootidx := rfl
@[simp] theorem State.clearOut_nnodes (s : State) : (s.clearOut).nnodes = s.nnodes := rfl
@[simp] theorem State.clearOut_nsyms (s : State) : (s.clearOut).nsyms = s.nsyms := rfl
@[simp] theorem State.clearOut_unkcnt (s : State) : (s.clearOut).unkcnt = s.unkcnt := rfl
@[simp] theorem State.clearOut_lasterr (s : State) : (s.clearOut).lasterr = s.lasterr := rfl
@[simp] theorem State.clearOut_freq (s : State) : (s.clearOut).freq = s.freq := rfl
@[simp] theorem State.clearOut_node (s : State) : (s.clearOut).node = s.node := rfl
@[simp] theorem State.clearOut_ct (s : State) : (s.clearOut).ct = s.ct := rfl
@[simp] theorem State.clearOut_outLen (s : State) : (s.clearOut).outLen = 0#17 := rfl
@[simp] theorem State.clearOut_outCap (s : State) : (s.clearOut).outCap = 64#17 := rfl
@[simp] theorem State.clearOut_outBlk (s : State) : (s.clearOut).outBlk = [] := rfl
@[simp] theorem State.clearOut_pq (s : State) : (s.clearOut).pq = s.pq := rfl
@[simp] theorem State.clearOut_bfsq (s : State) : (s.clearOut).bfsq = s.bfsq := rfl
@[simp] theorem State.clearOut_resp (s : State) : (s.clearOut).resp = s.resp := rfl
@[simp] theorem State.clearOut_host (s : State) : (s.clearOut).host = s.host := rfl

/-! ## clearConditions -/

@[simp] theorem State.clearConditions_phase (s : State) : (s.clearConditions).phase = s.phase := rfl
@[simp] theorem State.clearConditions_rootv (s : State) : (s.clearConditions).rootv = s.rootv := rfl
@[simp] theorem State.clearConditions_empty (s : State) : (s.clearConditions).empty = s.empty := rfl
@[simp] theorem State.clearConditions_degen (s : State) : (s.clearConditions).degen = s.degen := rfl
@[simp] theorem State.clearConditions_ill (s : State) : (s.clearConditions).ill = false := rfl
@[simp] theorem State.clearConditions_pherr (s : State) : (s.clearConditions).pherr = false := rfl
@[simp] theorem State.clearConditions_wovf (s : State) : (s.clearConditions).wovf = false := rfl
@[simp] theorem State.clearConditions_oovf (s : State) : (s.clearConditions).oovf = false := rfl
@[simp] theorem State.clearConditions_unk (s : State) : (s.clearConditions).unk = false := rfl
@[simp] theorem State.clearConditions_rootidx (s : State) : (s.clearConditions).rootidx = s.rootidx := rfl
@[simp] theorem State.clearConditions_nnodes (s : State) : (s.clearConditions).nnodes = s.nnodes := rfl
@[simp] theorem State.clearConditions_nsyms (s : State) : (s.clearConditions).nsyms = s.nsyms := rfl
@[simp] theorem State.clearConditions_unkcnt (s : State) : (s.clearConditions).unkcnt = 0#32 := rfl
@[simp] theorem State.clearConditions_lasterr (s : State) : (s.clearConditions).lasterr = .ok := rfl
@[simp] theorem State.clearConditions_freq (s : State) : (s.clearConditions).freq = s.freq := rfl
@[simp] theorem State.clearConditions_node (s : State) : (s.clearConditions).node = s.node := rfl
@[simp] theorem State.clearConditions_ct (s : State) : (s.clearConditions).ct = s.ct := rfl
@[simp] theorem State.clearConditions_outLen (s : State) : (s.clearConditions).outLen = s.outLen := rfl
@[simp] theorem State.clearConditions_outCap (s : State) : (s.clearConditions).outCap = s.outCap := rfl
@[simp] theorem State.clearConditions_outBlk (s : State) : (s.clearConditions).outBlk = s.outBlk := rfl
@[simp] theorem State.clearConditions_pq (s : State) : (s.clearConditions).pq = s.pq := rfl
@[simp] theorem State.clearConditions_bfsq (s : State) : (s.clearConditions).bfsq = s.bfsq := rfl
@[simp] theorem State.clearConditions_resp (s : State) : (s.clearConditions).resp = s.resp := rfl
@[simp] theorem State.clearConditions_host (s : State) : (s.clearConditions).host = s.host := rfl

/-! ## clearAll -/

@[simp] theorem State.clearAll_phase (s : State) : (s.clearAll).phase = .collect := rfl
@[simp] theorem State.clearAll_rootv (s : State) : (s.clearAll).rootv = false := rfl
@[simp] theorem State.clearAll_empty (s : State) : (s.clearAll).empty = false := rfl
@[simp] theorem State.clearAll_degen (s : State) : (s.clearAll).degen = false := rfl
@[simp] theorem State.clearAll_ill (s : State) : (s.clearAll).ill = s.ill := rfl
@[simp] theorem State.clearAll_pherr (s : State) : (s.clearAll).pherr = s.pherr := rfl
@[simp] theorem State.clearAll_wovf (s : State) : (s.clearAll).wovf = s.wovf := rfl
@[simp] theorem State.clearAll_oovf (s : State) : (s.clearAll).oovf = s.oovf := rfl
@[simp] theorem State.clearAll_unk (s : State) : (s.clearAll).unk = s.unk := rfl
@[simp] theorem State.clearAll_rootidx (s : State) : (s.clearAll).rootidx = 0#9 := rfl
@[simp] theorem State.clearAll_nnodes (s : State) : (s.clearAll).nnodes = 0#10 := rfl
@[simp] theorem State.clearAll_nsyms (s : State) : (s.clearAll).nsyms = 0#9 := rfl
@[simp] theorem State.clearAll_unkcnt (s : State) : (s.clearAll).unkcnt = s.unkcnt := rfl
@[simp] theorem State.clearAll_lasterr (s : State) : (s.clearAll).lasterr = s.lasterr := rfl
@[simp] theorem State.clearAll_freq (s : State) : (s.clearAll).freq = [] := rfl
@[simp] theorem State.clearAll_node (s : State) : (s.clearAll).node = s.node := rfl
@[simp] theorem State.clearAll_ct (s : State) :
    (s.clearAll).ct = invalidateCt s.ct := by simp only [State.clearAll, State.clearOut]
@[simp] theorem State.clearAll_outLen (s : State) : (s.clearAll).outLen = 0#17 := rfl
@[simp] theorem State.clearAll_outCap (s : State) : (s.clearAll).outCap = 64#17 := rfl
@[simp] theorem State.clearAll_outBlk (s : State) : (s.clearAll).outBlk = [] := rfl
@[simp] theorem State.clearAll_pq (s : State) : (s.clearAll).pq = s.pq := rfl
@[simp] theorem State.clearAll_bfsq (s : State) : (s.clearAll).bfsq = s.bfsq := rfl
@[simp] theorem State.clearAll_resp (s : State) : (s.clearAll).resp = s.resp := rfl
@[simp] theorem State.clearAll_host (s : State) : (s.clearAll).host = s.host := rfl

/-! ## resetEvent -/

@[simp] theorem State.resetEvent_phase (s : State) : (s.resetEvent).phase = State.reset.phase := rfl
@[simp] theorem State.resetEvent_rootv (s : State) : (s.resetEvent).rootv = State.reset.rootv := rfl
@[simp] theorem State.resetEvent_empty (s : State) : (s.resetEvent).empty = State.reset.empty := rfl
@[simp] theorem State.resetEvent_degen (s : State) : (s.resetEvent).degen = State.reset.degen := rfl
@[simp] theorem State.resetEvent_ill (s : State) : (s.resetEvent).ill = State.reset.ill := rfl
@[simp] theorem State.resetEvent_pherr (s : State) : (s.resetEvent).pherr = State.reset.pherr := rfl
@[simp] theorem State.resetEvent_wovf (s : State) : (s.resetEvent).wovf = State.reset.wovf := rfl
@[simp] theorem State.resetEvent_oovf (s : State) : (s.resetEvent).oovf = State.reset.oovf := rfl
@[simp] theorem State.resetEvent_unk (s : State) : (s.resetEvent).unk = State.reset.unk := rfl
@[simp] theorem State.resetEvent_rootidx (s : State) : (s.resetEvent).rootidx = State.reset.rootidx := rfl
@[simp] theorem State.resetEvent_nnodes (s : State) : (s.resetEvent).nnodes = State.reset.nnodes := rfl
@[simp] theorem State.resetEvent_nsyms (s : State) : (s.resetEvent).nsyms = State.reset.nsyms := rfl
@[simp] theorem State.resetEvent_unkcnt (s : State) : (s.resetEvent).unkcnt = State.reset.unkcnt := rfl
@[simp] theorem State.resetEvent_lasterr (s : State) : (s.resetEvent).lasterr = State.reset.lasterr := rfl
@[simp] theorem State.resetEvent_freq (s : State) : (s.resetEvent).freq = State.reset.freq := rfl
@[simp] theorem State.resetEvent_node (s : State) : (s.resetEvent).node = State.reset.node := rfl
@[simp] theorem State.resetEvent_ct (s : State) : (s.resetEvent).ct = State.reset.ct := rfl
@[simp] theorem State.resetEvent_outLen (s : State) : (s.resetEvent).outLen = State.reset.outLen := rfl
@[simp] theorem State.resetEvent_outCap (s : State) : (s.resetEvent).outCap = State.reset.outCap := rfl
@[simp] theorem State.resetEvent_outBlk (s : State) : (s.resetEvent).outBlk = State.reset.outBlk := rfl
@[simp] theorem State.resetEvent_pq (s : State) : (s.resetEvent).pq = State.reset.pq := rfl
@[simp] theorem State.resetEvent_bfsq (s : State) : (s.resetEvent).bfsq = State.reset.bfsq := rfl
@[simp] theorem State.resetEvent_resp (s : State) : (s.resetEvent).resp = State.reset.resp := rfl
@[simp] theorem State.resetEvent_host (s : State) : (s.resetEvent).host = s.host := rfl

/-! ## buildTree -/

@[simp] theorem State.buildTree_phase (s : State) : (s.buildTree).phase = .built := rfl
@[simp] theorem State.buildTree_empty (s : State) : (s.buildTree).empty = decide ((createLeaves s).next = 0) := rfl
@[simp] theorem State.buildTree_degen (s : State) : (s.buildTree).degen = decide ((createLeaves s).next = 1) := rfl
@[simp] theorem State.buildTree_ill (s : State) : (s.buildTree).ill = s.ill := rfl
@[simp] theorem State.buildTree_pherr (s : State) : (s.buildTree).pherr = s.pherr := rfl
@[simp] theorem State.buildTree_wovf (s : State) : (s.buildTree).wovf = s.wovf := rfl
@[simp] theorem State.buildTree_oovf (s : State) : (s.buildTree).oovf = s.oovf := rfl
@[simp] theorem State.buildTree_unk (s : State) : (s.buildTree).unk = s.unk := rfl
@[simp] theorem State.buildTree_nnodes (s : State) :
    (s.buildTree).nnodes = BitVec.ofNat 10 (mergeLoop Config.mergeMax (createLeaves s)).next := rfl
@[simp] theorem State.buildTree_nsyms (s : State) : (s.buildTree).nsyms = BitVec.ofNat 9 (createLeaves s).next := rfl
@[simp] theorem State.buildTree_unkcnt (s : State) : (s.buildTree).unkcnt = s.unkcnt := rfl
@[simp] theorem State.buildTree_lasterr (s : State) : (s.buildTree).lasterr = s.lasterr := rfl
@[simp] theorem State.buildTree_freq (s : State) : (s.buildTree).freq = s.freq := rfl
@[simp] theorem State.buildTree_node (s : State) :
    (s.buildTree).node = (mergeLoop Config.mergeMax (createLeaves s)).node := rfl
@[simp] theorem State.buildTree_ct (s : State) : (s.buildTree).ct = s.ct := rfl
@[simp] theorem State.buildTree_outLen (s : State) : (s.buildTree).outLen = s.outLen := rfl
@[simp] theorem State.buildTree_outCap (s : State) : (s.buildTree).outCap = s.outCap := rfl
@[simp] theorem State.buildTree_outBlk (s : State) : (s.buildTree).outBlk = s.outBlk := rfl
@[simp] theorem State.buildTree_bfsq (s : State) : (s.buildTree).bfsq = s.bfsq := rfl
@[simp] theorem State.buildTree_resp (s : State) : (s.buildTree).resp = s.resp := rfl
@[simp] theorem State.buildTree_host (s : State) : (s.buildTree).host = s.host := rfl

/-! ## genTable -/

@[simp] theorem State.genTable_phase (s : State) : (s.genTable).phase = .ready := rfl
@[simp] theorem State.genTable_rootv (s : State) : (s.genTable).rootv = s.rootv := rfl
@[simp] theorem State.genTable_empty (s : State) : (s.genTable).empty = s.empty := rfl
@[simp] theorem State.genTable_degen (s : State) : (s.genTable).degen = s.degen := rfl
@[simp] theorem State.genTable_ill (s : State) : (s.genTable).ill = s.ill := rfl
@[simp] theorem State.genTable_pherr (s : State) : (s.genTable).pherr = s.pherr := rfl
@[simp] theorem State.genTable_wovf (s : State) : (s.genTable).wovf = s.wovf := rfl
@[simp] theorem State.genTable_oovf (s : State) : (s.genTable).oovf = s.oovf := rfl
@[simp] theorem State.genTable_unk (s : State) : (s.genTable).unk = s.unk := rfl
@[simp] theorem State.genTable_rootidx (s : State) : (s.genTable).rootidx = s.rootidx := rfl
@[simp] theorem State.genTable_nnodes (s : State) : (s.genTable).nnodes = s.nnodes := rfl
@[simp] theorem State.genTable_nsyms (s : State) : (s.genTable).nsyms = s.nsyms := rfl
@[simp] theorem State.genTable_unkcnt (s : State) : (s.genTable).unkcnt = s.unkcnt := rfl
@[simp] theorem State.genTable_lasterr (s : State) : (s.genTable).lasterr = s.lasterr := rfl
@[simp] theorem State.genTable_freq (s : State) : (s.genTable).freq = s.freq := rfl
@[simp] theorem State.genTable_node (s : State) : (s.genTable).node = s.node := rfl
@[simp] theorem State.genTable_ct (s : State) : (s.genTable).ct = s.traverse.ct := rfl
@[simp] theorem State.genTable_outLen (s : State) : (s.genTable).outLen = s.outLen := rfl
@[simp] theorem State.genTable_outCap (s : State) : (s.genTable).outCap = s.outCap := rfl
@[simp] theorem State.genTable_outBlk (s : State) : (s.genTable).outBlk = s.outBlk := rfl
@[simp] theorem State.genTable_pq (s : State) : (s.genTable).pq = s.pq := rfl
@[simp] theorem State.genTable_bfsq (s : State) : (s.genTable).bfsq = s.traverse.bfsq := rfl
@[simp] theorem State.genTable_resp (s : State) : (s.genTable).resp = s.resp := rfl
@[simp] theorem State.genTable_host (s : State) : (s.genTable).host = s.host := rfl

/-! ## appendOut -/

@[simp] theorem State.appendOut_phase (s : State) (bits : List Bool) : (s.appendOut bits).phase = s.phase := rfl
@[simp] theorem State.appendOut_rootv (s : State) (bits : List Bool) : (s.appendOut bits).rootv = s.rootv := rfl
@[simp] theorem State.appendOut_empty (s : State) (bits : List Bool) : (s.appendOut bits).empty = s.empty := rfl
@[simp] theorem State.appendOut_degen (s : State) (bits : List Bool) : (s.appendOut bits).degen = s.degen := rfl
@[simp] theorem State.appendOut_ill (s : State) (bits : List Bool) : (s.appendOut bits).ill = s.ill := rfl
@[simp] theorem State.appendOut_pherr (s : State) (bits : List Bool) : (s.appendOut bits).pherr = s.pherr := rfl
@[simp] theorem State.appendOut_wovf (s : State) (bits : List Bool) : (s.appendOut bits).wovf = s.wovf := rfl
@[simp] theorem State.appendOut_oovf (s : State) (bits : List Bool) : (s.appendOut bits).oovf = s.oovf := rfl
@[simp] theorem State.appendOut_unk (s : State) (bits : List Bool) : (s.appendOut bits).unk = s.unk := rfl
@[simp] theorem State.appendOut_rootidx (s : State) (bits : List Bool) : (s.appendOut bits).rootidx = s.rootidx := rfl
@[simp] theorem State.appendOut_nnodes (s : State) (bits : List Bool) : (s.appendOut bits).nnodes = s.nnodes := rfl
@[simp] theorem State.appendOut_nsyms (s : State) (bits : List Bool) : (s.appendOut bits).nsyms = s.nsyms := rfl
@[simp] theorem State.appendOut_unkcnt (s : State) (bits : List Bool) : (s.appendOut bits).unkcnt = s.unkcnt := rfl
@[simp] theorem State.appendOut_lasterr (s : State) (bits : List Bool) : (s.appendOut bits).lasterr = s.lasterr := rfl
@[simp] theorem State.appendOut_freq (s : State) (bits : List Bool) : (s.appendOut bits).freq = s.freq := rfl
@[simp] theorem State.appendOut_node (s : State) (bits : List Bool) : (s.appendOut bits).node = s.node := rfl
@[simp] theorem State.appendOut_ct (s : State) (bits : List Bool) : (s.appendOut bits).ct = s.ct := rfl
@[simp] theorem State.appendOut_outLen (s : State) (bits : List Bool) :
    (s.appendOut bits).outLen = BitVec.ofNat 17 (s.outCode.appendAll bits).len := rfl
@[simp] theorem State.appendOut_outCap (s : State) (bits : List Bool) :
    (s.appendOut bits).outCap = BitVec.ofNat 17 (s.outCode.appendAll bits).bv.cap := rfl
@[simp] theorem State.appendOut_outBlk (s : State) (bits : List Bool) :
    (s.appendOut bits).outBlk = (s.outCode.appendAll bits).bv.blk := rfl
@[simp] theorem State.appendOut_pq (s : State) (bits : List Bool) : (s.appendOut bits).pq = s.pq := rfl
@[simp] theorem State.appendOut_bfsq (s : State) (bits : List Bool) : (s.appendOut bits).bfsq = s.bfsq := rfl
@[simp] theorem State.appendOut_resp (s : State) (bits : List Bool) : (s.appendOut bits).resp = s.resp := rfl
@[simp] theorem State.appendOut_host (s : State) (bits : List Bool) : (s.appendOut bits).host = s.host := rfl

/-! ## Reading what an update does not write -/

@[simp] theorem State.freqAt_respond (s : State) (d : Word) (c : Symbol) : (s.respond d).freqAt c = s.freqAt c := rfl
@[simp] theorem State.ctAt_respond (s : State) (d : Word) (c : Symbol) : (s.respond d).ctAt c = s.ctAt c := rfl
@[simp] theorem State.nodeAt_respond (s : State) (d : Word) (i : Nat) : (s.respond d).nodeAt i = s.nodeAt i := rfl
@[simp] theorem State.outCode_respond (s : State) (d : Word) : (s.respond d).outCode = s.outCode := rfl

/-- A condition's delivery changes only sticky flags, `UNKCNT`, `LASTERR` and the response (60_exceptions.md R205, R206). -/
theorem State.deliver_frame (s : State) (c : Condition) (d : Word) :
    s.deliver c d = { s with
      ill := (s.markCondition c).ill, pherr := (s.markCondition c).pherr, wovf := (s.markCondition c).wovf,
      oovf := (s.markCondition c).oovf, unk := (s.markCondition c).unk, unkcnt := (s.markCondition c).unkcnt,
      lasterr := c, resp := some ⟨c, d⟩ } := by cases c <;> rfl

/-! ## The phase condition and the dispatch -/

theorem inPhase_of_eq {p : Phase} {s : State} {k : State → Result} (h : s.phase = p) : inPhase p s k = k s := by
  simp [inPhase, h]

theorem inPhase_of_ne {p : Phase} {s : State} {k : State → Result} (h : s.phase ≠ p) :
    inPhase p s k = raiseError .phaseError s := by simp [inPhase, h]

theorem raiseError_eq (c : Condition) (s : State) : raiseError c s = .next (s.deliver c 0#64) := rfl
theorem raiseWarning_eq (c : Condition) (d : Word) (s : State) : raiseWarning c d s = .next (s.deliver c d) := rfl

/-- What a command with a phase condition can answer: PhaseError, or what it does in its phase. -/
theorem inPhase_cases {p : Phase} {s t : State} {k : State → Result} (h : inPhase p s k = .next t) :
    (s.phase ≠ p ∧ t = s.deliver .phaseError 0#64) ∨ (s.phase = p ∧ k s = .next t) := by
  by_cases hp : s.phase = p
  · rw [inPhase_of_eq hp] at h; exact .inr ⟨hp, h⟩
  · rw [inPhase_of_ne hp, raiseError_eq] at h
    injection h with h
    exact .inl ⟨hp, h.symm⟩

/-- What FEED can answer. -/
theorem execFeed_cases {sym : Symbol} {s t : State} (h : execFeed sym s = .next t) :
    (s.phase ≠ .collect ∧ t = s.deliver .phaseError 0#64) ∨
    (s.phase = .collect ∧ (s.freqAt sym).toNat = 4294967295 ∧ t = s.deliver .weightOverflow 0#64) ∨
    (s.phase = .collect ∧ (s.freqAt sym).toNat ≠ 4294967295 ∧
      t = (s.setFreq sym (s.freqAt sym + 1#32)).respond 0#64) := by
  rcases inPhase_cases h with h | ⟨hp, h⟩
  · exact .inl h
  · right
    split at h <;> rename_i hw <;> injection h with h
    · exact .inl ⟨hp, hw, h.symm⟩
    · exact .inr ⟨hp, hw, h.symm⟩

/-- What SETF can answer. -/
theorem execSetf_cases {sym : Symbol} {count : Imm} {s t : State} (h : execSetf sym count s = .next t) :
    (s.phase ≠ .collect ∧ t = s.deliver .phaseError 0#64) ∨
    (s.phase = .collect ∧ t = (s.setFreq sym count).respond 0#64) := by
  rcases inPhase_cases h with h | ⟨hp, h⟩
  · exact .inl h
  · injection h with h; exact .inr ⟨hp, h.symm⟩

/-- What BUILD can answer. -/
theorem execBuild_cases {s t : State} (h : execBuild s = .next t) :
    (s.phase ≠ .collect ∧ t = s.deliver .phaseError 0#64) ∨
    (s.phase = .collect ∧ 4294967295 < s.freqTotal ∧ t = s.deliver .weightOverflow 0#64) ∨
    (s.phase = .collect ∧ s.freqTotal ≤ 4294967295 ∧ (createLeaves s).next = 0 ∧
      t = s.buildTree.deliver .emptyCorpus 0#64) ∨
    (s.phase = .collect ∧ s.freqTotal ≤ 4294967295 ∧ (createLeaves s).next = 1 ∧
      t = s.buildTree.deliver .degenerateAlphabet 1#64) ∨
    (s.phase = .collect ∧ s.freqTotal ≤ 4294967295 ∧ 2 ≤ (createLeaves s).next ∧
      t = s.buildTree.respond (countData (createLeaves s).next)) := by
  rcases inPhase_cases h with h | ⟨hp, h⟩
  · exact .inl h
  right
  split at h
  · rename_i hw; injection h with h; exact .inl ⟨hp, hw, h.symm⟩
  rename_i hw
  have hw' : s.freqTotal ≤ 4294967295 := Nat.le_of_not_lt hw
  right
  simp only [] at h
  split at h
  · rename_i hk; injection h with h; exact .inl ⟨hp, hw', hk, h.symm⟩
  rename_i hk0
  right
  split at h
  · rename_i hk; injection h with h; exact .inl ⟨hp, hw', hk, h.symm⟩
  rename_i hk1
  injection h with h
  exact .inr ⟨hp, hw', by omega, h.symm⟩

/-- What GEN can answer. -/
theorem execGen_cases {s t : State} (h : execGen s = .next t) :
    (s.phase ≠ .built ∧ t = s.deliver .phaseError 0#64) ∨
    (s.phase = .built ∧ t = s.genTable.respond (countData s.traverse.cnt)) := by
  rcases inPhase_cases h with h | ⟨hp, h⟩
  · exact .inl h
  · injection h with h; exact .inr ⟨hp, h.symm⟩

/-- What ENC can answer. -/
theorem execEnc_cases {sym : Symbol} {s t : State} (h : execEnc sym s = .next t) :
    (s.phase ≠ .ready ∧ t = s.deliver .phaseError 0#64) ∨
    (s.phase = .ready ∧ (s.ctAt sym).valid = false ∧ t = s.deliver .unknownSymbol 0#64) ∨
    (s.phase = .ready ∧ (s.ctAt sym).valid = true ∧ 65536 < s.outLen.toNat + (s.ctAt sym).len.toNat ∧
      t = s.deliver .outputOverflow 0#64) ∨
    (s.phase = .ready ∧ (s.ctAt sym).valid = true ∧ s.outLen.toNat + (s.ctAt sym).len.toNat ≤ 65536 ∧
      t = (s.appendOut (s.ctAt sym).bits).respond (zext64 (s.ctAt sym).len)) := by
  rcases inPhase_cases h with h | ⟨hp, h⟩
  · exact .inl h
  right
  simp only [] at h
  split at h
  · rename_i hv; injection h with h; exact .inl ⟨hp, hv, h.symm⟩
  rename_i hv
  have hv' : (s.ctAt sym).valid = true := by simpa using hv
  right
  split at h
  · rename_i hl; injection h with h; exact .inl ⟨hp, hv', hl, h.symm⟩
  · rename_i hl; injection h with h; exact .inr ⟨hp, hv', Nat.le_of_not_lt hl, h.symm⟩

/-- What RDSTAT can answer. -/
theorem execRdstat_cases {n : Imm} {s t : State} (h : execRdstat n s = .next t) :
    (∃ r, StatusReg.ofNumber n = some r ∧ t = s.respond (zext64 (s.statusreg r))) ∨
    (StatusReg.ofNumber n = none ∧ t = s.deliver .illegalCommand 0#64) := by
  unfold execRdstat at h
  split at h <;> rename_i hr <;> injection h with h
  · exact .inl ⟨_, hr, h.symm⟩
  · exact .inr ⟨hr, h.symm⟩

/-- What a step can do: nothing, a reset event, an illegal word, or a command. -/
theorem serveHost_cases {s t : State} (h : serveHost s = .next t) :
    (s.host = [] ∧ t = s) ∨
    (∃ rest, s.host = .reset :: rest ∧ t = State.resetEvent { s with host := rest }) ∨
    (∃ w rest e, s.host = .command w :: rest ∧ decode w = .error e ∧
      t = State.deliver .illegalCommand 0#64 { s with host := rest }) ∨
    (∃ w rest i, s.host = .command w :: rest ∧ decode w = .ok i ∧ exec i { s with host := rest } = .next t) := by
  unfold serveHost at h
  split at h
  · rename_i hh; injection h with h; exact .inl ⟨hh, h.symm⟩
  · rename_i w rest hh
    unfold issue at h
    split at h
    · rename_i i hd; exact .inr (.inr (.inr ⟨w, rest, i, hh, hd, h⟩))
    · rename_i e hd; injection h with h; exact .inr (.inr (.inl ⟨w, rest, e, hh, hd, h.symm⟩))
  · rename_i rest hh; injection h with h; exact .inr (.inl ⟨rest, hh, h.symm⟩)

end Sys2Proof.Machine
end

