-- ==== Sys2Proof/Laws/Exec.lean ====
section
/-! SUPPORT. What the shared control operations can do, said once: responding, the flags of an error, the
status register of a number, issuing and serving the host. -/

namespace Sys2Proof.Machine

/-! ## Responding and delivery -/

theorem respond_eq (data : Word) (s : State) : s.respond data = { s with resp := answer data } := rfl

/-- The flag effect of each error, as one record update. -/
theorem markCondition_of_isError {c : Condition} (h : c.isError = true) (s : State) :
    s.markCondition c = { s with
      ill := s.ill || decide (c = .illegalCommand)
      pherr := s.pherr || decide (c = .phaseError)
      wovf := s.wovf || decide (c = .weightOverflow)
      oovf := s.oovf || decide (c = .outputOverflow) } := by
  cases c <;> simp_all [Condition.isError, State.markCondition]

/-! ## Status registers -/

theorem StatusReg.ofNumber_of_le {n : Imm} (h : n.toNat ≤ 8) : ∃ r, StatusReg.ofNumber n = some r := by
  unfold StatusReg.ofNumber
  split
  all_goals first | exact ⟨_, rfl⟩ | (exfalso; simp_all; omega)

theorem StatusReg.ofNumber_of_gt {n : Imm} (h : 8 < n.toNat) : StatusReg.ofNumber n = none := by
  unfold StatusReg.ofNumber
  split <;> first | rfl | omega

/-! ## Issuing a command word and serving the host -/

theorem issue_of_ok {w : Word} {i : Instr} (h : decode w = .ok i) (s : State) : issue w s = exec i s := by
  simp [issue, h]

theorem issue_of_error {w : Word} {e : Illegal} (h : decode w = .error e) (s : State) :
    issue w s = raiseError .illegalCommand s := by
  simp [issue, h]

/-- A step takes the host's next input: it idles, executes a command, raises IllegalCommand, or resets. -/
theorem step_cases (s : State) :
    (s.host = [] ∧ step s = .next s) ∨
    (∃ w rest i, s.host = .command w :: rest ∧ decode w = .ok i ∧ step s = exec i { s with host := rest }) ∨
    (∃ w rest e, s.host = .command w :: rest ∧ decode w = .error e ∧
      step s = raiseError .illegalCommand { s with host := rest }) ∨
    (∃ rest, s.host = .reset :: rest ∧ step s = .next (State.resetEvent { s with host := rest })) := by
  match h : s.host with
  | [] => exact .inl ⟨rfl, by simp [step, serveHost, h]⟩
  | .command w :: rest =>
    match hd : decode w with
    | .ok i => exact .inr (.inl ⟨w, rest, i, rfl, hd, by simp [step, serveHost, h, issue_of_ok hd]⟩)
    | .error e => exact .inr (.inr (.inl ⟨w, rest, e, rfl, hd, by simp [step, serveHost, h, issue_of_error hd]⟩))
  | .reset :: rest => exact .inr (.inr (.inr ⟨rest, rfl, by simp [step, serveHost, h]⟩))

@[simp] theorem execAll_nil (s : State) : execAll [] s = .next s := rfl

theorem execAll_cons_of_next {i : Instr} {rest : List Instr} {s t : State} (h : exec i s = .next t) :
    execAll (i :: rest) s = execAll rest t := by
  simp [execAll, h]

end Sys2Proof.Machine
end

