-- ==== Sys2Proof/Laws/PerInstr.lean ====
section
/-! SUPPORT. A statement about each command as syntax, one lemma per constructor: the encoded word is an instance of its
row of the opcode map (30_encoding.md R72). -/

namespace Sys2Proof.Laws.TableRow

/-- The encoded word masked by the format's mask is the row's match value (30_encoding.md R72). -/
def Statement (i : Instr) : Prop := encode i &&& i.opcode.format.mask = i.opcode.matchWord

/-- Masking a packed word masks its fields. -/
theorem packWord_and (op op' : BitVec 8) (sym sym' : Symbol) (rsv rsv' : BitVec 16) (imm imm' : Imm) :
    packWord op sym rsv imm &&& packWord op' sym' rsv' imm' =
      packWord (op &&& op') (sym &&& sym') (rsv &&& rsv') (imm &&& imm') := by
  have hand : ∀ v w : Word, ∀ k n, (v &&& w).extractLsb' k n = v.extractLsb' k n &&& w.extractLsb' k n := by
    intro v w k n
    apply BitVec.eq_of_getLsbD_eq
    intro i hi
    simp [hi]
  apply word_ext
  · rw [opField, hand]; exact congrArg₂ _ (opField_packWord ..) (opField_packWord ..) |>.trans (opField_packWord ..).symm
  · rw [symField, hand]; exact congrArg₂ _ (symField_packWord ..) (symField_packWord ..) |>.trans (symField_packWord ..).symm
  · rw [rsvField, hand]; exact congrArg₂ _ (rsvField_packWord ..) (rsvField_packWord ..) |>.trans (rsvField_packWord ..).symm
  · rw [immField, hand]; exact congrArg₂ _ (immField_packWord ..) (immField_packWord ..) |>.trans (immField_packWord ..).symm

/-- The mask of a format, field by field (30_encoding.md R72). -/
theorem mask_eq (f : Format) : f.mask =
    packWord 0xFF#8 (if f.hasSym then 0x00#8 else 0xFF#8) 0xFFFF#16 (if f.hasImm then 0#32 else 0xFFFFFFFF#32) := by
  cases f <;> decide

/-- The statement for every command, from its fields; the lemmas below are its cases. -/
theorem of_fields (i : Instr) : Statement i := by
  have hop : i.opcode.code &&& 0xFF#8 = i.opcode.code := by
    have : (0xFF#8) = BitVec.allOnes 8 := rfl
    rw [this, BitVec.and_allOnes]
  unfold Statement encode Opcode.matchWord
  have hrsv : (0 : BitVec 16) &&& 0xFFFF#16 = 0 := by decide
  rw [mask_eq, packWord_and, hop, hrsv]
  congr 1
  · by_cases h : i.opcode.format.hasSym
    · simp [h]
    · simp [Instr.symOperand_eq_zero (Bool.not_eq_true _ ▸ h)]
  · by_cases h : i.opcode.format.hasImm
    · simp [h]
    · simp [Instr.immOperand_eq_zero (Bool.not_eq_true _ ▸ h)]

theorem nop : Statement .nop := of_fields _
theorem clrall : Statement .clrall := of_fields _
theorem clrout : Statement .clrout := of_fields _
theorem clrerr : Statement .clrerr := of_fields _
theorem feed (sym : Symbol) : Statement (.feed sym) := of_fields _
theorem setf (sym : Symbol) (count : Imm) : Statement (.setf sym count) := of_fields _
theorem build : Statement .build := of_fields _
theorem gen : Statement .gen := of_fields _
theorem enc (sym : Symbol) : Statement (.enc sym) := of_fields _
theorem rdstat (number : Imm) : Statement (.rdstat number) := of_fields _
theorem rdfreq (sym : Symbol) : Statement (.rdfreq sym) := of_fields _
theorem rdnode (index : Imm) : Statement (.rdnode index) := of_fields _
theorem rdlen (sym : Symbol) : Statement (.rdlen sym) := of_fields _
theorem rdcode (sym : Symbol) (block : Imm) : Statement (.rdcode sym block) := of_fields _
theorem test (rank : Imm) : Statement (.test rank) := of_fields _
theorem rdout (block : Imm) : Statement (.rdout block) := of_fields _

end Sys2Proof.Laws.TableRow
end

