-- ==== Sys2Proof/Tests/Slice0.lean ====
section
/-! SUPPORT. Tests of the model on small states, their expected values from 95_test_vectors.md and the spec's own examples,
and a witness for the hypotheses of every statement. -/

namespace Sys2Proof.Tests
open Sys2Proof.Machine

set_option maxRecDepth 20000

/-! ## Decoding: words written out field by field from 30_encoding.md R71, R72, R75 (op, sym, rsv, imm) -/

theorem test_decode_nop :
    decode 0b00000000_00000000_0000000000000000_00000000000000000000000000000000#64 = .ok .nop := by decide

theorem test_decode_clrall :
    decode 0b00000001_00000000_0000000000000000_00000000000000000000000000000000#64 = .ok .clrall := by decide

theorem test_decode_clrout :
    decode 0b00000010_00000000_0000000000000000_00000000000000000000000000000000#64 = .ok .clrout := by decide

theorem test_decode_clrerr :
    decode 0b00000011_00000000_0000000000000000_00000000000000000000000000000000#64 = .ok .clrerr := by decide

theorem test_decode_feed :
    decode 0b00010000_01100001_0000000000000000_00000000000000000000000000000000#64 = .ok (.feed 0x61#8) := by decide

theorem test_decode_setf :
    decode 0b00010001_01100101_0000000000000000_00000000000000000000000000000101#64 = .ok (.setf 0x65#8 5#32) := by decide

theorem test_decode_build :
    decode 0b00100000_00000000_0000000000000000_00000000000000000000000000000000#64 = .ok .build := by decide

theorem test_decode_gen :
    decode 0b00100001_00000000_0000000000000000_00000000000000000000000000000000#64 = .ok .gen := by decide

theorem test_decode_enc :
    decode 0b00110000_01111010_0000000000000000_00000000000000000000000000000000#64 = .ok (.enc 0x7A#8) := by decide

theorem test_decode_rdstat :
    decode 0b01000000_00000000_0000000000000000_00000000000000000000000000001000#64 = .ok (.rdstat 8#32) := by decide

theorem test_decode_rdfreq :
    decode 0b01000001_01100001_0000000000000000_00000000000000000000000000000000#64 = .ok (.rdfreq 0x61#8) := by decide

theorem test_decode_rdnode :
    decode 0b01000010_00000000_0000000000000000_11111111111111111111111111111111#64 = .ok (.rdnode 0xFFFFFFFF#32) := by decide

theorem test_decode_rdlen :
    decode 0b01000011_01100010_0000000000000000_00000000000000000000000000000000#64 = .ok (.rdlen 0x62#8) := by decide

theorem test_decode_rdcode :
    decode 0b01000100_01100010_0000000000000000_00000000000000000000000000100000#64 = .ok (.rdcode 0x62#8 32#32) := by decide

theorem test_decode_test :
    decode 0b01000101_00000000_0000000000000000_11101110011010110010100000000000#64 = .ok (.test 4000000000#32) := by decide

theorem test_decode_rdout :
    decode 0b01000110_00000000_0000000000000000_00000000000000000001111111111111#64 = .ok (.rdout 8191#32) := by decide

theorem test_decode_table_word : decodeTableWord 64 0x1161000000000007 = some (.setf 0x61#8 7#32) := by decide

/-- The illegal words of 95_test_vectors.md section 2.7, and why each is illegal (30_encoding.md R77). -/
theorem test_decode_illegal :
    decode 0x0400000000000000#64 = .error .unassignedOpcode ∧ decode 0x4700000000000000#64 = .error .unassignedOpcode ∧
    decode 0xFFFFFFFFFFFFFFFF#64 = .error .unassignedOpcode ∧ decode 0x1161800000000005#64 = .error .reservedNotZero ∧
    decode 0x2100010000000000#64 = .error .reservedNotZero ∧ decode 0x0061000000000000#64 = .error .symbolNotZero ∧
    decode 0x4261000000000000#64 = .error .symbolNotZero ∧ decode 0x3061000000000005#64 = .error .immediateNotZero ∧
    decode 0x40000000FFFFFFFF#64 = .error .registerNumber := by decide

theorem test_encode_words :
    encode (.feed 0x61#8) = 0x1061000000000000#64 ∧ encode (.setf 0x65#8 5#32) = 0x1165000000000005#64 ∧
    encode (.rdcode 0x62#8 0#32) = 0x4462000000000000#64 ∧ encode (.test 8#32) = 0x4500000000000008#64 := by decide

/-- The one ill-formed command: RDSTAT with a register number above 8 (30_encoding.md R83). -/
theorem test_wellFormed_refuses_register_9 :
    (Instr.rdstat 9#32).wellFormed = false ∧ (Instr.rdstat 8#32).wellFormed = true := by decide

theorem test_opcode_table_row :
    encode (.enc 0x7A#8) &&& Format.mask .S = Opcode.matchWord .enc ∧ Opcode.matchWord .enc = 0x3000000000000000#64 := by decide

/-! ## Small states -/

/-- The state a command leaves; a stop would leave reset. -/
def after (i : Instr) (s : State) : State :=
  match exec i s with
  | .next t => t
  | .fault _ => State.reset
  | .refused _ => State.reset

/-- The state a step leaves; a stop would leave reset. -/
def stepped (s : State) : State :=
  match step s with
  | .next t => t
  | .fault _ => State.reset
  | .refused _ => State.reset

/-- The response to a command. -/
def respTo (i : Instr) (s : State) : Option Response := (after i s).resp

/-- Reset with the given counts. -/
def counted (pairs : Table Weight) : State := { State.reset with freq := pairs }

/-- T8 of 95_test_vectors.md section 2.4, before BUILD: a1 b1. -/
def counted8 : State := counted [(0x61, 1#32), (0x62, 1#32)]

/-- T8 after BUILD: 0: L a 1; 1: L b 1; 2: I 2 (0, 1); root 2. -/
def built8 : State := { counted8 with
  node := [(0, .leaf 0x61#8 1#32), (1, .leaf 0x62#8 1#32), (2, .internal 2#32 0#9 1#9)]
  rootv := true, rootidx := 2#9, nnodes := 3#10, nsyms := 2#9, phase := .built, resp := answer 2#64 }

/-- T8 after GEN: a = "0", b = "1". -/
def ready8 : State := { built8 with
  ct := [(0x61, { valid := true, len := 1#9, blk := [] }), (0x62, { valid := true, len := 1#9, blk := [(0, 0x80#8)] })]
  phase := .ready }

/-- T9 before BUILD: a4. -/
def counted9 : State := counted [(0x61, 4#32)]

/-- T9 after BUILD: the leaf is the root. -/
def built9 : State := { counted9 with
  node := [(0, .leaf 0x61#8 4#32)], rootv := true, degen := true, nnodes := 1#10, nsyms := 1#9, phase := .built
  lasterr := .degenerateAlphabet, resp := some { err := .degenerateAlphabet, data := 1#64 } }

/-- T9 after GEN: a = "0". -/
def ready9 : State := { built9 with
  ct := [(0x61, { valid := true, len := 1#9, blk := [] })], phase := .ready, resp := answer 1#64 }

/-- T1 before BUILD: a3 b2 c1. -/
def counted1 : State := counted [(0x61, 3#32), (0x62, 2#32), (0x63, 1#32)]

/-- T1 after BUILD: 0: L a 3; 1: L b 2; 2: L c 1; 3: I 3 (2, 1); 4: I 6 (0, 3); root 4. -/
def built1 : State := { counted1 with
  node := [(0, .leaf 0x61#8 3#32), (1, .leaf 0x62#8 2#32), (2, .leaf 0x63#8 1#32), (3, .internal 3#32 2#9 1#9),
    (4, .internal 6#32 0#9 3#9)]
  rootv := true, rootidx := 4#9, nnodes := 5#10, nsyms := 3#9, phase := .built, resp := answer 3#64 }

/-- T1 after GEN: a = "0", c = "10", b = "11". -/
def ready1 : State := { built1 with
  ct := [(0x61, { valid := true, len := 1#9, blk := [] }), (0x62, { valid := true, len := 2#9, blk := [(0, 0xC0#8)] }),
    (0x63, { valid := true, len := 2#9, blk := [(0, 0x80#8)] })]
  phase := .ready }

/-- `OUT` = "000111110", the encoding of "aaabbc" (Program 1). -/
def encoded1 : State := { ready1 with outLen := 9#17, outBlk := [(0, 0x1F#8)] }

/-- T1 with `OUT` one bit short of full (95_test_vectors.md section 2.6, output overflow; the bits do not matter here). -/
def nearFull1 : State := { ready1 with outLen := 65535#17, outCap := 65536#17 }

/-- T8 with 64 bits in `OUT`, all at capacity. -/
def full64 : State := { ready8 with outLen := 64#17 }

/-! ## Control commands and the step -/

theorem test_nop_keeps_lasterr :
    after .nop { State.reset with lasterr := .phaseError } =
      { State.reset with lasterr := .phaseError, resp := answer 0#64 } := by decide

theorem test_clrall_keeps_sticky :
    let t := after .clrall { ready9 with unk := true, unkcnt := 1#32, lasterr := .unknownSymbol }
    t.statusreg .status = 0x1000#32 ∧ t.statusreg .root = 0#32 ∧ t.statusreg .unkcnt = 1#32 ∧ t.statusreg .lasterr = 5#32 ∧
      t.freqAt 0x61#8 = 0#32 ∧ respTo (.rdlen 0x61#8) t = answer 0#64 ∧ respTo (.rdnode 0#32) t = answer 0#64 := by
  decide +kernel

theorem test_clrerr_clears :
    let t := after .clrerr { ready8 with unk := true, ill := true, unkcnt := 1#32, lasterr := .unknownSymbol }
    t.statusreg .status = 0x6#32 ∧ t.statusreg .unkcnt = 0#32 ∧ t.statusreg .lasterr = 0#32 := by decide

theorem test_rdstat_after_reset :
    respTo (.rdstat 0#32) State.reset = answer 0x10082008#64 ∧ respTo (.rdstat 1#32) State.reset = answer 0#64 ∧
    respTo (.rdstat 6#32) State.reset = answer 0x40#64 ∧ respTo (.rdstat 8#32) State.reset = answer 0#64 := by decide

theorem test_rdstat_after_T9 :
    respTo (.rdstat 1#32) built9 = answer 0x15#64 ∧ respTo (.rdstat 2#32) built9 = answer 0x80000000#64 ∧
    respTo (.rdstat 2#32) built1 = answer 0x80000004#64 ∧ respTo (.rdstat 8#32) built9 = answer 7#64 := by decide

theorem test_step_illegal_word :
    let t := stepped { built8 with host := [.command 0x4000000000000009#64, .reset] }
    t = { built8 with ill := true, lasterr := .illegalCommand, resp := reported .illegalCommand, host := [.reset] } := by
  decide

theorem test_step_withFetchWord :
    stepped (State.reset.withFetchWord 64 0x1162000000000005) =
      { State.reset with freq := [(0x62, 5#32)], resp := answer 0#64 } := by decide

theorem test_step_reset_event :
    stepped { ready9 with host := [.reset], ill := true } = State.reset := by decide

/-! ## Frequency table -/

theorem test_feed_counts : (after (.feed 0x61#8) (counted [(0x61, 2#32)])).freq = [(0x61, 3#32)] := by decide

theorem test_feed_at_wmax :
    after (.feed 0x61#8) (counted [(0x61, 0xFFFFFFFF#32)]) =
      { counted [(0x61, 0xFFFFFFFF#32)] with
        wovf := true, lasterr := .weightOverflow, resp := reported .weightOverflow } := by decide

theorem test_setf_overwrites_and_removes :
    (after (.setf 0x61#8 0xFFFFFFFF#32) (counted [(0x61, 2#32)])).freq = [(0x61, 0xFFFFFFFF#32)] ∧
    (after (.setf 0x62#8 0#32) counted8).freq = [(0x61, 1#32)] := by decide

theorem test_setf_in_built :
    after (.setf 0x63#8 5#32) built8 =
      { built8 with pherr := true, lasterr := .phaseError, resp := reported .phaseError } := by decide

theorem test_rdfreq :
    respTo (.rdfreq 0x62#8) built1 = answer 2#64 ∧ respTo (.rdfreq 0x7A#8) built1 = answer 0#64 := by decide

/-! ## Tree builder -/

theorem test_build_T1 : after .build counted1 = built1 := by decide +kernel

theorem test_build_one_symbol : after .build counted9 = built9 := by decide +kernel

theorem test_rdnode_T1 :
    respTo (.rdnode 3#32) built1 = answer 0xC000020200000003#64 ∧
    respTo (.rdnode 0#32) built1 = answer 0x8184000000000003#64 := by decide

theorem test_rdnode_not_allocated :
    respTo (.rdnode 5#32) built1 = answer 0#64 ∧ respTo (.rdnode 0#32) { built1 with nnodes := 0#10 } = answer 0#64 := by
  decide

/-! ## Code generator -/

theorem test_gen_T1 : after .gen built1 = ready1 := by decide +kernel

theorem test_gen_one_symbol : after .gen built9 = ready9 := by decide +kernel

theorem test_rdlen_T1 :
    respTo (.rdlen 0x62#8) ready1 = answer 0x80000002#64 ∧ respTo (.rdlen 0x7A#8) ready1 = answer 0#64 := by decide

theorem test_rdcode_T1 :
    respTo (.rdcode 0x62#8 0#32) ready1 = answer 0xC0#64 ∧ respTo (.rdcode 0x63#8 0#32) ready1 = answer 0x80#64 ∧
    respTo (.rdcode 0x62#8 1#32) ready1 = answer 0#64 ∧ respTo (.rdcode 0x62#8 32#32) ready1 = answer 0#64 := by decide

/-! ## Encoder and output bit memory -/

theorem test_enc_crosses_block :
    after (.enc 0x63#8) { ready1 with outLen := 7#17, outBlk := [(0, 0x1E#8)] } =
      { ready1 with outLen := 9#17, outBlk := [(0, 0x1F#8)], resp := answer 2#64 } := by decide

theorem test_enc_grows_and_overflows :
    ((after (.enc 0x61#8) full64).outLen = 65#17 ∧ (after (.enc 0x61#8) full64).outCap = 128#17) ∧
    after (.enc 0x62#8) nearFull1 =
      { nearFull1 with oovf := true, lasterr := .outputOverflow, resp := reported .outputOverflow } := by decide

theorem test_clrout :
    after .clrout { encoded1 with outCap := 128#17 } = { ready1 with resp := answer 0#64 } := by decide

theorem test_test_bits :
    respTo (.test 3#32) encoded1 = answer 1#64 ∧ respTo (.test 8#32) encoded1 = answer 0#64 ∧
    respTo (.test 64#32) encoded1 = answer 0#64 ∧ respTo (.test 4000000000#32) encoded1 = answer 0#64 := by decide

theorem test_rdout_blocks :
    respTo (.rdout 0#32) encoded1 = answer 0x1F#64 ∧ respTo (.rdout 1#32) encoded1 = answer 0#64 ∧
    respTo (.rdout 8#32) encoded1 = answer 0#64 := by decide

/-- Steps 1 to 11 of the BitVector vectors of 95_test_vectors.md section 2.1. -/
theorem test_bitvector_vectors :
    let fresh : BitVector := { blk := [], cap := 64 }
    let b := ((fresh.set 0).set 9).clear 0
    fresh.test 5 = false ∧ b.blk = [(1, 0x40#8)] ∧ b.test 9 = true ∧ (b.set 64).cap = 128 ∧
      (b.set 64).blk = [(1, 0x40#8), (8, 0x80#8)] ∧ ((b.set 64).clear 300).cap = 512 ∧
      bitText (((b.set 64).clear 300).render 12) = "000000000100" := by decide

/-- Code vectors of 95_test_vectors.md section 2.1: 1, 0, 1, 1 gives block 0xB0. -/
theorem test_code_vector :
    let c := Code.empty.appendAll [true, false, true, true]
    c.len = 4 ∧ c.bv.blk = [(0, 0xB0#8)] ∧ bitText c.render = "1011" ∧
      (c.copy.append true).bv.blk = [(0, 0xB8#8)] := by decide

theorem test_decode_text_T1 :
    ready1.decodeText encoded1.outBits = [0x61#8, 0x61#8, 0x61#8, 0x62#8, 0x62#8, 0x63#8] := by decide

theorem test_assembly :
    assemblyOf (.setf 0x65#8 5#32) = "SETF 101, 5" ∧ assemblyOf .build = "BUILD" := by decide +kernel

/-! ## Good states: the witnesses the statements about `Inv` share -/

theorem outWf_of_empty {s : State} (hl : s.outLen.toNat ≤ s.outCap.toNat) (hc : s.outCap.toNat ≤ 65536)
    (hp : ∃ j ≤ 10, s.outCap.toNat = 64 * 2 ^ j) (hb : s.outBlk = []) : s.OutWf :=
  ⟨hl, hc, hp, fun r _ => by rw [hb]; exact Memory.bit_nil r⟩

theorem memoriesWf_counted8 : counted8.MemoriesWf := ⟨by decide, by decide, by decide, by decide, by decide⟩
theorem memoriesWf_built8 : built8.MemoriesWf := ⟨by decide, by decide, by decide, by decide, by decide⟩
theorem memoriesWf_ready8 : ready8.MemoriesWf := ⟨by decide, by decide, by decide, by decide, by decide⟩
theorem memoriesWf_built9 : built9.MemoriesWf := ⟨by decide, by decide, by decide, by decide, by decide⟩
theorem memoriesWf_ready9 : ready9.MemoriesWf := ⟨by decide, by decide, by decide, by decide, by decide⟩

theorem outWf_counted8 : counted8.OutWf := outWf_of_empty (by decide) (by decide) ⟨0, by decide⟩ rfl
theorem outWf_built8 : built8.OutWf := outWf_of_empty (by decide) (by decide) ⟨0, by decide⟩ rfl
theorem outWf_ready8 : ready8.OutWf := outWf_of_empty (by decide) (by decide) ⟨0, by decide⟩ rfl
theorem outWf_built9 : built9.OutWf := outWf_of_empty (by decide) (by decide) ⟨0, by decide⟩ rfl
theorem outWf_ready9 : ready9.OutWf := outWf_of_empty (by decide) (by decide) ⟨0, by decide⟩ rfl
theorem outWf_full64 : full64.OutWf := outWf_of_empty (by decide) (by decide) ⟨0, by decide⟩ rfl
theorem outWf_nearFull1 : nearFull1.OutWf := outWf_of_empty (by decide) (by decide) ⟨10, by decide⟩ rfl

theorem present8 : counted8.presentSymbols = [0x61#8, 0x62#8] := by decide +kernel
theorem total8 : counted8.freqTotal = 2 := by decide +kernel
theorem present9 : counted9.presentSymbols = [0x61#8] := by decide +kernel
theorem total9 : counted9.freqTotal = 4 := by decide +kernel

theorem treeOk_built8 : built8.TreeOk where
  count := by change _ = counted8.presentSymbols.length; rw [present8]; rfl
  total := by change counted8.freqTotal ≤ _; rw [total8]; decide
  rootv := by decide
  empty := by decide
  degen := by decide
  nnodes := by decide
  rootidx := by decide
  leaves := by
    change ∀ i < 2, ∃ c, counted8.presentSymbols[i]? = some c ∧ built8.nodeAt i = .leaf c (built8.freqAt c)
    rw [present8]
    intro i hi
    match i, hi with
    | 0, _ => exact ⟨0x61#8, rfl, by decide⟩
    | 1, _ => exact ⟨0x62#8, rfl, by decide⟩
  internals := by
    intro i h1 h2
    change 2 ≤ i at h1
    change i < 2 * 2 - 1 at h2
    obtain rfl : i = 2 := by omega
    exact ⟨by decide, by decide, by decide, by decide, by decide⟩
  parents := by decide
  greedy := by
    intro i h1 h2
    change 2 ≤ i at h1
    change i < 2 * 2 - 1 at h2
    obtain rfl : i = 2 := by omega
    decide
  rising := by
    intro i h1 h2
    change 2 ≤ i at h1
    change i + 1 < 2 * 2 - 1 at h2
    omega
  rootWeight := by intro _; change _ = counted8.freqTotal; rw [total8]; decide

theorem treeOk_built9 : built9.TreeOk where
  count := by change _ = counted9.presentSymbols.length; rw [present9]; rfl
  total := by change counted9.freqTotal ≤ _; rw [total9]; decide
  rootv := by decide
  empty := by decide
  degen := by decide
  nnodes := by decide
  rootidx := by decide
  leaves := by
    change ∀ i < 1, ∃ c, counted9.presentSymbols[i]? = some c ∧ built9.nodeAt i = .leaf c (built9.freqAt c)
    rw [present9]
    intro i hi
    match i, hi with
    | 0, _ => exact ⟨0x61#8, rfl, by decide⟩
  internals := by
    intro i h1 h2
    change 1 ≤ i at h1
    change i < 2 * 1 - 1 at h2
    omega
  parents := by decide
  greedy := by
    intro i h1 h2
    change 1 ≤ i at h1
    change i < 2 * 1 - 1 at h2
    omega
  rising := by
    intro i h1 h2
    change 1 ≤ i at h1
    change i + 1 < 2 * 1 - 1 at h2
    omega
  rootWeight := by intro _; change _ = counted9.freqTotal; rw [total9]; decide

theorem treeOk_ready8 : ready8.TreeOk :=
  ⟨treeOk_built8.count, treeOk_built8.total, treeOk_built8.rootv, treeOk_built8.empty, treeOk_built8.degen,
    treeOk_built8.nnodes, treeOk_built8.rootidx, treeOk_built8.leaves,
    fun i h1 h2 => let h := treeOk_built8.internals i h1 h2; ⟨h.tag, h.left_lt, h.right_lt, h.order, h.weight⟩,
    treeOk_built8.parents, treeOk_built8.greedy, treeOk_built8.rising, treeOk_built8.rootWeight⟩

theorem treeOk_ready9 : ready9.TreeOk :=
  ⟨treeOk_built9.count, treeOk_built9.total, treeOk_built9.rootv, treeOk_built9.empty, treeOk_built9.degen,
    treeOk_built9.nnodes, treeOk_built9.rootidx, treeOk_built9.leaves,
    fun i h1 h2 => let h := treeOk_built9.internals i h1 h2; ⟨h.tag, h.left_lt, h.right_lt, h.order, h.weight⟩,
    treeOk_built9.parents, treeOk_built9.greedy, treeOk_built9.rising, treeOk_built9.rootWeight⟩

theorem codesOk_ready8 : ready8.CodesOk where
  valid_iff := by decide +kernel
  entries := by
    intro sym h
    have hs : sym = 0x61#8 ∨ sym = 0x62#8 := by revert sym; decide +kernel
    rcases hs with rfl | rfl
    · exact ⟨by decide, by decide, by decide, by decide +kernel, fun h => absurd h (by decide),
        fun _ => ⟨0, by decide⟩⟩
    · exact ⟨by decide, by decide, by decide, by decide +kernel, fun h => absurd h (by decide),
        fun _ => ⟨1, by decide⟩⟩

theorem codesOk_ready9 : ready9.CodesOk where
  valid_iff := by decide +kernel
  entries := by
    intro sym h
    obtain rfl : sym = 0x61#8 := by revert sym; decide +kernel
    exact ⟨by decide, by decide, by decide, by decide +kernel, fun _ => by decide, fun h => absurd h (by decide)⟩

theorem inv_counted8 : counted8.Inv :=
  ⟨memoriesWf_counted8, outWf_counted8, ⟨rfl, rfl⟩, fun _ => ⟨rfl, rfl, rfl, rfl, rfl, rfl⟩, fun h => absurd rfl h,
    fun _ _ => rfl, fun h => absurd h (by decide)⟩

theorem inv_built8 : built8.Inv :=
  ⟨memoriesWf_built8, outWf_built8, ⟨rfl, rfl⟩, fun h => absurd h (by decide), fun _ => treeOk_built8,
    fun _ _ => rfl, fun h => absurd h (by decide)⟩

theorem inv_ready8 : ready8.Inv :=
  ⟨memoriesWf_ready8, outWf_ready8, ⟨rfl, rfl⟩, fun h => absurd h (by decide), fun _ => treeOk_ready8,
    fun h => absurd rfl h, fun _ => codesOk_ready8⟩

theorem inv_built9 : built9.Inv :=
  ⟨memoriesWf_built9, outWf_built9, ⟨rfl, rfl⟩, fun h => absurd h (by decide), fun _ => treeOk_built9,
    fun _ _ => rfl, fun h => absurd h (by decide)⟩

theorem inv_ready9 : ready9.Inv :=
  ⟨memoriesWf_ready9, outWf_ready9, ⟨rfl, rfl⟩, fun h => absurd h (by decide), fun _ => treeOk_ready9,
    fun h => absurd rfl h, fun _ => codesOk_ready9⟩

/-! ## Witnesses: for each statement with hypotheses, a state and operands that meet all of them; for a statement of several
clauses, each clause at a boundary value -/

theorem test_hyp_DecodeEncodeIdentity :
    (Instr.rdstat 8#32).wellFormed = true ∧ (Instr.rdout 0xFFFFFFFF#32).wellFormed = true := by decide

theorem test_hyp_EncodeDecodeIdentity : decode 0x4000000000000008#64 = .ok (.rdstat 8#32) := by decide

theorem test_hyp_IllegalWordsExactly :
    decode 0x4000000000000009#64 = .error .registerNumber ∧
    { built8 with host := [.command 0x4000000000000009#64] }.host = .command 0x4000000000000009#64 :: [] := by decide

theorem test_hyp_StepRunsDecodedCommand :
    { built8 with host := [.command 0x2100000000000000#64, .reset] }.host = .command 0x2100000000000000#64 :: [.reset] ∧
    decode 0x2100000000000000#64 = .ok .gen := by decide

theorem test_hyp_IdleAndResetPorts : built8.host = [] ∧ { built8 with host := [.reset] }.host = .reset :: [] := by decide

theorem test_hyp_ResetEventValues : { ready9 with host := [.reset, .reset] }.host = .reset :: [.reset] := by decide

/-- The response port after a successful command, an error and a warning. -/
theorem test_hyp_OneResponsePerCommand :
    exec .nop ready8 = .next (after .nop ready8) ∧ exec (.enc 0x61#8) built8 = .next (after (.enc 0x61#8) built8) ∧
    (after (.enc 0x61#8) built8).resp = reported .phaseError ∧
    exec (.enc 0x7A#8) ready8 = .next (after (.enc 0x7A#8) ready8) ∧
    (after (.enc 0x7A#8) ready8).resp = reported .unknownSymbol := ⟨rfl, rfl, rfl, rfl, rfl⟩

/-- Each of the four errors. -/
theorem test_hyp_ErrorChangesNothingElse :
    (exec (.rdstat 9#32) built8 = .next (after (.rdstat 9#32) built8) ∧
      (after (.rdstat 9#32) built8).resp = reported .illegalCommand) ∧
    (exec .build built8 = .next (after .build built8) ∧ (after .build built8).resp = reported .phaseError) ∧
    (exec (.feed 0x61#8) (counted [(0x61, 0xFFFFFFFF#32)]) = .next (after (.feed 0x61#8) (counted [(0x61, 0xFFFFFFFF#32)])) ∧
      (after (.feed 0x61#8) (counted [(0x61, 0xFFFFFFFF#32)])).resp = reported .weightOverflow) ∧
    (exec (.enc 0x62#8) nearFull1 = .next (after (.enc 0x62#8) nearFull1) ∧
      (after (.enc 0x62#8) nearFull1).resp = reported .outputOverflow) ∧
    Condition.isError .outputOverflow = true := ⟨⟨rfl, rfl⟩, ⟨rfl, rfl⟩, ⟨rfl, rfl⟩, ⟨rfl, rfl⟩, rfl⟩

theorem test_hyp_PhaseErrorOutsidePhase :
    phaseAllows (.feed 0#8) built8.phase = false ∧ phaseAllows .build ready8.phase = false ∧
    phaseAllows .gen counted8.phase = false ∧ phaseAllows (.enc 0#8) built8.phase = false := by decide

theorem test_hyp_LifeCycle : exec .gen built8 = .next (after .gen built8) ∧ phaseAllows .gen built8.phase = true ∧
    exec .gen ready8 = .next (after .gen ready8) ∧ phaseAllows .gen ready8.phase = false := ⟨rfl, rfl, rfl, rfl⟩

theorem test_hyp_RdstatNumberLegal : (8#32).toNat ≤ 8 ∧ 8 < (9#32).toNat := by decide

theorem test_hyp_RdstatTermAboveEight : 8 < (9#32).toNat ∧ 8 < (0xFFFFFFFF#32).toNat := by decide

theorem test_hyp_TestReturnsBit : full64.OutWf ∧ full64.outLen.toNat ≤ (64#32).toNat := ⟨outWf_full64, by decide⟩

theorem test_hyp_RdoutReturnsBlock : full64.OutWf ∧ 7 < 8 ∧ full64.outLen.toNat ≤ 8 * (8#32).toNat + 7 :=
  ⟨outWf_full64, by decide, by decide⟩

theorem test_hyp_RdoutAgreesWithTest : full64.OutWf ∧ 7 < 8 ∧ (63#32).toNat = 8 * (7#32).toNat + 7 :=
  ⟨outWf_full64, by decide, by decide⟩

theorem test_hyp_BitVectorOperations :
    0 < (BitVector.mk [(7, 0x01#8)] 64).cap ∧ (∀ x, 64 ≤ x → Memory.bit [(7, 0x01#8)] x = false) ∧ (64 : Nat) ≠ 63 ∧
    0 < Code.empty.bv.cap ∧ ∀ x, Code.empty.bv.cap ≤ x → Memory.bit Code.empty.bv.blk x = false := by
  refine ⟨by decide, fun x hx => ?_, by decide, by decide, fun x _ => Memory.bit_nil x⟩
  have h : blkidx x ≠ 7 := by rw [blkidx_eq]; omega
  simp [Memory.bit, Memory.read, Table.read, Ne.symm h, blockDefault]

theorem test_hyp_FeedCounts :
    built8.phase ≠ .collect ∧ (counted [(0x61, 0xFFFFFFFF#32)]).phase = .collect ∧
    ((counted [(0x61, 0xFFFFFFFF#32)]).freqAt 0x61#8).toNat = 4294967295 ∧
    ((counted [(0x61, 0xFFFFFFFE#32)]).freqAt 0x61#8).toNat < 4294967295 := by decide

theorem test_hyp_SetfWrites : ready8.phase ≠ .collect ∧ counted8.phase = .collect := by decide

/-- The total is 2^32, the least that overflows. -/
theorem test_hyp_BuildOverflow :
    (counted [(0x61, 0xFFFFFFFF#32), (0x62, 1#32)]).phase = .collect ∧
    4294967295 < ((List.range 256).map (fun c =>
      ((counted [(0x61, 0xFFFFFFFF#32), (0x62, 1#32)]).freqAt (BitVec.ofNat 8 c)).toNat)).sum := by
  refine ⟨rfl, ?_⟩
  decide +kernel

theorem test_hyp_BuildEmptyTable : (counted []).phase = .collect ∧ ∀ c, (counted []).freqAt c = 0#32 := ⟨rfl, fun _ => rfl⟩

theorem test_hyp_BuildOneSymbol : counted9.phase = .collect ∧ counted9.freqAt 0x61#8 ≠ 0#32 ∧
    ∀ d, d ≠ 0x61#8 → counted9.freqAt d = 0#32 := by
  refine ⟨rfl, by decide, ?_⟩
  decide +kernel

/-- The total is 2^32 - 1, the most that does not overflow. -/
theorem test_hyp_BuildCompletes :
    (counted [(0x61, 0xFFFFFFFE#32), (0x62, 1#32)]).phase = .collect ∧
    (counted [(0x61, 0xFFFFFFFE#32), (0x62, 1#32)]).freqTotal ≤ 4294967295 ∧
    2 ≤ (counted [(0x61, 0xFFFFFFFE#32), (0x62, 1#32)]).presentSymbols.length := by decide +kernel

theorem test_hyp_ExtractMinIsLeast : [2, 0, 1].Nodup ∧ [2, 0, 1] ≠ [] := by decide

theorem test_hyp_BuildMakesTree : counted8.phase = .collect ∧ counted8.freqTotal ≤ 4294967295 :=
  ⟨rfl, by rw [total8]; decide⟩

theorem test_hyp_RdnodeFields : built8.nnodes.toNat ≤ (3#32).toNat ∧ (2#32).toNat < built8.nnodes.toNat ∧
    counted8.Inv ∧ counted8.phase = .collect ∧ built8.Inv ∧ 511 ≤ (511#32).toNat :=
  ⟨by decide, by decide, inv_counted8, rfl, inv_built8, by decide⟩

theorem test_hyp_GenWithoutRoot :
    { counted [] with phase := .built, empty := true }.phase = .built ∧
    { counted [] with phase := .built, empty := true }.rootv = false ∧
    { counted [] with phase := .built, empty := true }.bfsq = [] := by decide

theorem test_hyp_GenLeafRoot : built9.phase = .built ∧ built9.rootv = true ∧
    built9.nodeAt built9.rootidx.toNat = .leaf 0x61#8 4#32 ∧ built9.bfsq = [] := by decide

theorem test_hyp_GenMakesCodes : built8.Inv ∧ built8.phase = .built ∧ built9.Inv ∧ built9.phase = .built :=
  ⟨inv_built8, rfl, inv_built9, rfl⟩

theorem test_hyp_RdlenReads : (ready8.ctAt 0x7A#8).valid = false ∧ (ready8.ctAt 0x61#8).valid = true ∧ built8.Inv ∧
    built8.phase ≠ .ready := ⟨rfl, rfl, inv_built8, by decide⟩

theorem test_hyp_RdcodeReads : (ready8.ctAt 0x7A#8).valid = false ∧ 32 ≤ (32#32).toNat ∧
    (ready8.ctAt 0x62#8).valid = true ∧ (31#32).toNat < 32 ∧ ready8.Inv ∧ 1 < 8 ∧
    (ready8.ctAt 0x62#8).len.toNat ≤ 8 * (0#32).toNat + 1 ∧ 8 * (0#32).toNat + 0 < (ready8.ctAt 0x62#8).len.toNat :=
  ⟨rfl, by decide, rfl, by decide, inv_ready8, by decide, by decide, by decide⟩

/-- A code that fits the capacity exactly, one that grows it, and one that fills `OUT` exactly. -/
theorem test_hyp_EncAppendsCode :
    (ready8.OutWf ∧ ready8.phase = .ready ∧ (ready8.ctAt 0x62#8).valid = true ∧
      ready8.outLen.toNat + (ready8.ctAt 0x62#8).len.toNat ≤ ready8.outCap.toNat) ∧
    (full64.OutWf ∧ full64.phase = .ready ∧ (full64.ctAt 0x61#8).valid = true ∧
      full64.outLen.toNat + (full64.ctAt 0x61#8).len.toNat ≤ 65536 ∧
      full64.outCap.toNat < full64.outLen.toNat + (full64.ctAt 0x61#8).len.toNat) ∧
    (nearFull1.OutWf ∧ nearFull1.phase = .ready ∧ (nearFull1.ctAt 0x61#8).valid = true ∧
      nearFull1.outLen.toNat + (nearFull1.ctAt 0x61#8).len.toNat = 65536) :=
  ⟨⟨outWf_ready8, rfl, rfl, by decide⟩, ⟨outWf_full64, rfl, rfl, by decide, by decide⟩,
    ⟨outWf_nearFull1, rfl, rfl, by decide⟩⟩

theorem test_hyp_EncSkipsUnknown : ready8.phase = .ready ∧ (ready8.ctAt 0x7A#8).valid = false := by decide

theorem test_hyp_EncOverflow : nearFull1.phase = .ready ∧ (nearFull1.ctAt 0x62#8).valid = true ∧
    65536 < nearFull1.outLen.toNat + (nearFull1.ctAt 0x62#8).len.toNat := by decide

theorem test_hyp_EncSequence : ready8.OutWf ∧ ready8.phase = .ready ∧
    ready8.outLen.toNat +
      ((ready8.knownText [0x61#8, 0x7A#8, 0x62#8]).map (fun c => (ready8.ctAt c).len.toNat)).sum ≤ 65536 :=
  ⟨outWf_ready8, rfl, by decide⟩

theorem test_hyp_ReadsChangeNothing : isRead (.rdstat 8#32) = true ∧ (Instr.rdstat 8#32).wellFormed = true ∧
    isRead (.rdout 0#32) = true ∧ (Instr.rdout 0#32).wellFormed = true := by decide

theorem test_hyp_OutOfRangeReadsZero : ready8.outCap.toNat ≤ (64#32).toNat ∧ ready8.outCap.toNat / 8 ≤ (8#32).toNat ∧
    8 ∣ ready8.outCap.toNat ∧ 32 ≤ (32#32).toNat ∧ (ready8.ctAt 0x7A#8).valid = false ∧
    ready8.nnodes.toNat ≤ (3#32).toNat := by decide

theorem test_hyp_ImmutableByPhase :
    exec (.enc 0x62#8) ready8 = .next (after (.enc 0x62#8) ready8) ∧ ready8.phase = .ready ∧ ready8.phase ≠ .collect ∧
    Instr.enc 0x62#8 ≠ .clrall ∧ Instr.enc 0x62#8 ≠ .build ∧ Instr.enc 0x62#8 ≠ .gen :=
  ⟨rfl, rfl, by decide, by decide, by decide, by decide⟩

theorem test_hyp_StickyFlagsStay :
    let s : State := { ready8 with
      ill := true, pherr := true, wovf := true, oovf := true, unk := true, unkcnt := 0xFFFFFFFF#32
      host := [.command 0x307A000000000000#64] }
    step s = .next (stepped s) ∧ s.nextCommand ≠ some (encode .clrerr) ∧ s.host.head? ≠ some .reset := by
  refine ⟨rfl, by decide, by decide⟩

theorem test_hyp_StepKeepsMemories :
    { ready8 with host := [.command 0x3062000000000000#64] }.MemoriesWf ∧
    step { ready8 with host := [.command 0x3062000000000000#64] } =
      .next (stepped { ready8 with host := [.command 0x3062000000000000#64] }) :=
  ⟨⟨memoriesWf_ready8.freq, memoriesWf_ready8.node, memoriesWf_ready8.ct, memoriesWf_ready8.ctBlk,
    memoriesWf_ready8.outBlk⟩, rfl⟩

theorem test_hyp_StepKeepsBitStore :
    let s : State := { full64 with host := [.command 0x3061000000000000#64] }
    s.OutWf ∧ step s = .next (stepped s) ∧ s.nextCommand ≠ some (encode .clrout) ∧
      s.nextCommand ≠ some (encode .clrall) ∧ s.host.head? ≠ some .reset :=
  ⟨outWf_of_empty (by decide) (by decide) ⟨0, by decide⟩ rfl, rfl, by decide, by decide, by decide⟩

/-- A good state with a command to run. -/
theorem test_hyp_StepKeepsGoodState :
    { counted8 with host := [.command 0x2000000000000000#64] }.Inv ∧
    step { counted8 with host := [.command 0x2000000000000000#64] } =
      .next (stepped { counted8 with host := [.command 0x2000000000000000#64] }) :=
  ⟨⟨⟨by decide, by decide, by decide, by decide, by decide⟩, outWf_of_empty (by decide) (by decide) ⟨0, by decide⟩ rfl,
    ⟨rfl, rfl⟩, fun _ => ⟨rfl, rfl, rfl, rfl, rfl, rfl⟩, fun h => absurd rfl h, fun _ _ => rfl,
    fun h => absurd h (by decide)⟩, rfl⟩

theorem test_hyp_CodesPrefixFree : ready8.Inv ∧ ready8.phase = .ready ∧ 2 ≤ ready8.leafCount := ⟨inv_ready8, rfl, by decide⟩

theorem test_hyp_CodesKraftEquality : ready8.Inv ∧ ready8.phase = .ready ∧ 2 ≤ ready8.leafCount ∧ ready9.Inv ∧
    ready9.phase = .ready ∧ ready9.leafCount = 1 := ⟨inv_ready8, rfl, by decide, inv_ready9, rfl, by decide⟩

theorem test_hyp_WeightedLengthIsInternalWeight : ready8.Inv ∧ ready8.phase = .ready ∧ 2 ≤ ready8.leafCount :=
  test_hyp_CodesPrefixFree

theorem test_hyp_CodesOptimal : ready8.Inv ∧ ready8.phase = .ready ∧ 2 ≤ ready8.leafCount ∧
    PrefixFree ready8.presentSymbols (fun c => if c = 0x61#8 then [true] else [false, false]) ∧
    ready9.Inv ∧ ready9.leafCount = 1 := by
  refine ⟨inv_ready8, rfl, by decide, ?_, inv_ready9, by decide⟩
  change PrefixFree counted8.presentSymbols _
  rw [present8]
  unfold PrefixFree
  decide

theorem test_hyp_DecodeRoundTrip : ready8.Inv ∧ ready8.phase = .ready ∧ ready8.outLen = 0#17 ∧
    ((ready8.knownText [0x62#8, 0x7A#8]).map (fun c => (ready8.ctAt c).len.toNat)).sum ≤ 65536 :=
  ⟨inv_ready8, rfl, rfl, by decide⟩

theorem test_hyp_CorpusEncodedLength : ready8.Inv ∧ ready8.phase = .ready ∧ ready8.outLen = 0#17 ∧
    ready8.weightedLength ≤ 65536 ∧ ∀ c ∈ ready8.presentSymbols, [0x62#8, 0x61#8].count c = (ready8.freqAt c).toNat := by
  refine ⟨inv_ready8, rfl, rfl, ?_, ?_⟩
  · unfold State.weightedLength
    change (counted8.presentSymbols.map _).sum ≤ _
    rw [present8]
    decide
  · change ∀ c ∈ counted8.presentSymbols, _
    rw [present8]
    decide

theorem test_hyp_ConstructionDeterministic :
    counted8.Inv ∧ { counted8 with unk := true }.Inv ∧ counted8.phase = .collect ∧
    { counted8 with unk := true }.phase = .collect ∧ (∀ c, counted8.freqAt c = { counted8 with unk := true }.freqAt c) ∧
    execAll construct counted8 = .next (after .gen (after .build counted8)) :=
  ⟨inv_counted8, ⟨⟨by decide, by decide, by decide, by decide, by decide⟩,
    outWf_of_empty (by decide) (by decide) ⟨0, by decide⟩ rfl,
    ⟨rfl, rfl⟩, fun _ => ⟨rfl, rfl, rfl, rfl, rfl, rfl⟩, fun h => absurd rfl h, fun _ _ => rfl,
    fun h => absurd h (by decide)⟩, rfl, rfl, fun _ => rfl, rfl⟩

/-- Two states that differ in a node that is not allocated. -/
theorem test_hyp_UnspecifiedContentsUnobservable :
    counted8.Inv ∧ counted8.Agree { counted8 with node := [(0, .leaf 0x7A#8 9#32)] } ∧
    step counted8 = .next (stepped counted8) :=
  ⟨inv_counted8, ⟨rfl, fun i h => absurd h (by change ¬ i < 0; omega), fun _ => rfl, fun _ _ => rfl⟩, rfl⟩

theorem test_hyp_ClrallClrerrIsReset : ready8.TransientEmpty ∧
    execAll [.nop] { State.reset with resp := answer 0#64, host := ready8.host } =
      .next { State.reset with resp := answer 0#64, host := ready8.host } := ⟨⟨rfl, rfl⟩, rfl⟩

end Sys2Proof.Tests
end

section
/-! PROOFS. The good state (O51): what a command can do, and that each of its updates keeps the memories, the bit store, the
tree and the codes; and the fields of `STATUS` (O17). -/

namespace Sys2Proof.Machine

/-! ## What a command does to the engine before it answers -/

/-- The updates a command can make before it answers, with what it tested first; `keep` is a read, NOP, or a condition
that stops the command (60_exceptions.md R205). -/
inductive Update (s : State) : State → Prop where
  | keep : Update s s
  | clearConditions : Update s s.clearConditions
  | clearOut : Update s s.clearOut
  | clearAll : Update s s.clearAll
  | setFreq (sym : Symbol) (v : Weight) (hp : s.phase = .collect) : Update s (s.setFreq sym v)
  | buildTree (hp : s.phase = .collect) (ht : s.freqTotal ≤ Config.wmax) : Update s s.buildTree
  | genTable (hp : s.phase = .built) : Update s s.genTable
  | appendOut (sym : Symbol) (hp : s.phase = .ready) (hv : (s.ctAt sym).valid = true)
      (hfit : s.outLen.toNat + (s.ctAt sym).len.toNat ≤ Config.outmax) : Update s (s.appendOut (s.ctAt sym).bits)

/-- The answer to a command on a state already updated: a response, or the delivery of a condition. -/
inductive Answered (u : State) : State → Prop where
  | respond (d : Word) : Answered u (u.respond d)
  | deliver (c : Condition) (d : Word) : Answered u (u.deliver c d)

/-- What a command can do, said once: one of the updates, then one answer. -/
theorem exec_cases {i : Instr} {s t : State} (h : exec i s = .next t) : ∃ u, Update s u ∧ Answered u t := by
  have reads {d : Word} (h : Host.Outcome.next (s.respond d) = (.next t : Result)) :
      ∃ u, Update s u ∧ Answered u t := by
    cases h; exact ⟨s, .keep, .respond d⟩
  cases i with
  | nop => exact reads h
  | rdfreq _ => exact reads h
  | rdnode _ => exact reads h
  | rdlen _ => exact reads h
  | rdcode _ _ => exact reads h
  | test _ => exact reads h
  | rdout _ => exact reads h
  | clrall => cases h; exact ⟨_, .clearAll, .respond _⟩
  | clrout => cases h; exact ⟨_, .clearOut, .respond _⟩
  | clrerr => cases h; exact ⟨_, .clearConditions, .respond _⟩
  | feed sym =>
    rcases execFeed_cases h with ⟨_, rfl⟩ | ⟨_, _, rfl⟩ | ⟨hp, _, rfl⟩
    · exact ⟨s, .keep, .deliver ..⟩
    · exact ⟨s, .keep, .deliver ..⟩
    · exact ⟨_, .setFreq _ _ hp, .respond _⟩
  | setf sym count =>
    rcases execSetf_cases h with ⟨_, rfl⟩ | ⟨hp, rfl⟩
    · exact ⟨s, .keep, .deliver ..⟩
    · exact ⟨_, .setFreq _ _ hp, .respond _⟩
  | build =>
    rcases execBuild_cases h with
      ⟨_, rfl⟩ | ⟨_, _, rfl⟩ | ⟨hp, ht, _, rfl⟩ | ⟨hp, ht, _, rfl⟩ | ⟨hp, ht, _, rfl⟩
    · exact ⟨s, .keep, .deliver ..⟩
    · exact ⟨s, .keep, .deliver ..⟩
    · exact ⟨_, .buildTree hp ht, .deliver ..⟩
    · exact ⟨_, .buildTree hp ht, .deliver ..⟩
    · exact ⟨_, .buildTree hp ht, .respond _⟩
  | gen =>
    rcases execGen_cases h with ⟨_, rfl⟩ | ⟨hp, rfl⟩
    · exact ⟨s, .keep, .deliver ..⟩
    · exact ⟨_, .genTable hp, .respond _⟩
  | enc sym =>
    rcases execEnc_cases h with ⟨_, rfl⟩ | ⟨_, _, rfl⟩ | ⟨_, _, _, rfl⟩ | ⟨hp, hv, hfit, rfl⟩
    · exact ⟨s, .keep, .deliver ..⟩
    · exact ⟨s, .keep, .deliver ..⟩
    · exact ⟨s, .keep, .deliver ..⟩
    · exact ⟨_, .appendOut sym hp hv hfit, .respond _⟩
  | rdstat n =>
    rcases execRdstat_cases h with ⟨_, _, rfl⟩ | ⟨_, rfl⟩
    · exact ⟨s, .keep, .respond _⟩
    · exact ⟨s, .keep, .deliver ..⟩

/-- Two states that differ at most in the record of past conditions and in the two ports, of which no invariant speaks. -/
def State.SameEngine (s t : State) : Prop :=
  t = { s with
    ill := t.ill, pherr := t.pherr, wovf := t.wovf, oovf := t.oovf, unk := t.unk, unkcnt := t.unkcnt
    lasterr := t.lasterr, resp := t.resp, host := t.host }

/-- An answer leaves the engine as the update left it (30_encoding.md R74; 60_exceptions.md R205, R206). -/
theorem Answered.sameEngine {u t : State} (h : Answered u t) : u.SameEngine t := by
  cases h with
  | respond d => rfl
  | deliver c d => cases c <;> rfl

/-- What reset has, and neither an update nor the ports can break, every step keeps. -/
theorem step_keeps {P : State → Prop} (hreset : P State.reset) (hsame : ∀ {s t : State}, P s → s.SameEngine t → P t)
    (hupdate : ∀ {s u : State}, P s → Update s u → P u) {s t : State} (hs : P s) (h : step s = .next t) : P t := by
  have taken (rest : List HostInput) : P { s with host := rest } := hsame hs rfl
  rcases serveHost_cases h with ⟨_, rfl⟩ | ⟨rest, _, rfl⟩ | ⟨_, rest, _, _, _, rfl⟩ | ⟨_, rest, i, _, _, he⟩
  · exact hs
  · exact hsame hreset rfl
  · exact hsame (taken rest) (Answered.deliver ..).sameEngine
  · obtain ⟨u, hu, ha⟩ := exec_cases he
    exact hsame (hupdate (taken rest) hu) ha.sameEngine

/-! ## Frames -/

/-- The tree with its registers and the counts it was built from: what `NoTree` and `TreeOk` speak of. -/
def State.treePart (s : State) : State :=
  { State.reset with
    rootv := s.rootv, empty := s.empty, degen := s.degen, rootidx := s.rootidx, nnodes := s.nnodes, nsyms := s.nsyms
    freq := s.freq, node := s.node }

/-- The tree and the code table: what `CodesOk` and `NoCodes` speak of. -/
def State.codePart (s : State) : State := { s.treePart with ct := s.ct }

/-! Each predicate holds of a state exactly when it holds of the part it speaks of, so it passes between states whose parts
are equal; for an update that writes elsewhere that equality is `rfl`. -/

theorem State.internalOk_treePart {s : State} {i : Nat} : s.treePart.InternalOk i ↔ s.InternalOk i :=
  ⟨fun h => ⟨h.tag, h.left_lt, h.right_lt, h.order, h.weight⟩,
    fun h => ⟨h.tag, h.left_lt, h.right_lt, h.order, h.weight⟩⟩

theorem State.treeOk_treePart {s : State} : s.treePart.TreeOk ↔ s.TreeOk where
  mp h := ⟨h.count, h.total, h.rootv, h.empty, h.degen, h.nnodes, h.rootidx, h.leaves,
    fun i h1 h2 => State.internalOk_treePart.1 (h.internals i h1 h2), h.parents, h.greedy, h.rising, h.rootWeight⟩
  mpr h := ⟨h.count, h.total, h.rootv, h.empty, h.degen, h.nnodes, h.rootidx, h.leaves,
    fun i h1 h2 => State.internalOk_treePart.2 (h.internals i h1 h2), h.parents, h.greedy, h.rising, h.rootWeight⟩

theorem State.TreeOk.of_treePart {s t : State} (h : s.TreeOk) (he : t.treePart = s.treePart) : t.TreeOk :=
  State.treeOk_treePart.1 (he ▸ State.treeOk_treePart.2 h)

theorem State.NoTree.of_treePart {s t : State} (h : s.NoTree) (he : t.treePart = s.treePart) : t.NoTree :=
  ⟨(congrArg State.rootv he).trans h.rootv, (congrArg State.empty he).trans h.empty,
    (congrArg State.degen he).trans h.degen, (congrArg State.rootidx he).trans h.rootidx,
    (congrArg State.nnodes he).trans h.nnodes, (congrArg State.nsyms he).trans h.nsyms⟩

theorem State.walk_of_node_eq {s t : State} (h : t.node = s.node) (i : Nat) (bits : List Bool) :
    t.walk i bits = s.walk i bits := by
  have hat : ∀ j, t.nodeAt j = s.nodeAt j := fun j => by simp only [State.nodeAt, h]
  induction bits generalizing i with
  | nil => rfl
  | cons b bits ih => simp only [State.walk, State.child, hat, ih]

theorem State.entryOk_codePart {s : State} {sym : Symbol} : s.codePart.EntryOk sym ↔ s.EntryOk sym := by
  constructor <;> rintro ⟨hpos, hle, hblk, htail, hone, hpath⟩ <;>
    refine ⟨hpos, hle, hblk, htail, hone, fun hk => ?_⟩ <;> obtain ⟨i, hi, hwalk, hleaf⟩ := hpath hk
  all_goals exact ⟨i, hi, (State.walk_of_node_eq (by rfl) _ _).trans hwalk, hleaf⟩

theorem State.codesOk_codePart {s : State} : s.codePart.CodesOk ↔ s.CodesOk :=
  ⟨fun h => ⟨h.valid_iff, fun sym hv => State.entryOk_codePart.1 (h.entries sym hv)⟩,
    fun h => ⟨h.valid_iff, fun sym hv => State.entryOk_codePart.2 (h.entries sym hv)⟩⟩

theorem State.CodesOk.of_codePart {s t : State} (h : s.CodesOk) (he : t.codePart = s.codePart) : t.CodesOk :=
  State.codesOk_codePart.1 (he ▸ State.codesOk_codePart.2 h)

/-! ## The memories (20_memory.md R50) -/

theorem State.MemoriesWf.of_sameEngine {s t : State} (h : s.MemoriesWf) (he : s.SameEngine t) : t.MemoriesWf := by
  rw [he]; exact ⟨h.freq, h.node, h.ct, h.ctBlk, h.outBlk⟩

theorem State.memoriesWf_reset : State.reset.MemoriesWf :=
  ⟨Table.wf_nil, Table.wf_nil, Table.wf_nil, by simp [State.reset], Table.wf_nil⟩

theorem nodeWrite_wf {m : Table TreeNode} {n i : Nat} {v : TreeNode} (h : Table.wf nodeDefault n m) (hi : i < n) :
    Table.wf nodeDefault n (nodeWrite m i v) := Table.wf_write h hi

theorem ctWrite_wf {ct : Table CodeEntry} (h : Table.wf entryDefault Config.nsym ct) (sym : Symbol) (e : CodeEntry) :
    Table.wf entryDefault Config.nsym (ctWrite ct sym e) := Table.wf_write h sym.isLt

theorem addLeaf_next_le (s : State) (c : BuildCtx) (sym : Symbol) : (addLeaf s c sym).next ≤ c.next + 1 := by
  unfold addLeaf; split <;> simp

theorem addLeaf_wf {s : State} {c : BuildCtx} {n : Nat} (h : Table.wf nodeDefault n c.node) (hn : c.next < n)
    (sym : Symbol) : Table.wf nodeDefault n (addLeaf s c sym).node := by
  unfold addLeaf
  split
  · exact nodeWrite_wf h hn
  · exact h

/-- Leaf creation writes one node at most per symbol. -/
theorem foldl_addLeaf_wf {s : State} {n : Nat} (l : List Symbol) {c : BuildCtx} (h : Table.wf nodeDefault n c.node)
    (hn : c.next + l.length ≤ n) : Table.wf nodeDefault n (l.foldl (addLeaf s) c).node := by
  induction l generalizing c with
  | nil => exact h
  | cons sym l ih =>
    rw [List.length_cons] at hn
    have := addLeaf_next_le s c sym
    exact ih (addLeaf_wf h (by omega) sym) (by omega)

theorem createLeaves_wf {s : State} (h : Table.wf nodeDefault Config.nnodemax s.node) :
    Table.wf nodeDefault Config.nnodemax (createLeaves s).node :=
  foldl_addLeaf_wf allSymbols h (show 0 + allSymbols.length ≤ 511 by simp [allSymbols, Config.nsym])

theorem mergeStep_wf {c : BuildCtx} {n : Nat} (h : Table.wf nodeDefault n c.node) (hn : c.next < n) :
    Table.wf nodeDefault n (mergeStep c).node := by
  unfold mergeStep
  split
  · exact h
  · split
    · exact h
    · dsimp only
      exact nodeWrite_wf h hn

/-- The merges write no node beyond the 2k - 1 of the tree (10_state.md R29). -/
theorem MergeInv.mergeLoop_wf {k T : Nat} {leaves : Table TreeNode} {c : BuildCtx} (fuel : Nat) (h : MergeInv k T leaves c)
    (hk : k ≤ 256) (hT : T ≤ 4294967295) (hwf : Table.wf nodeDefault Config.nnodemax c.node) :
    Table.wf nodeDefault Config.nnodemax (Machine.mergeLoop fuel c).node := by
  induction fuel generalizing c with
  | zero => exact hwf
  | succ n ih =>
    unfold Machine.mergeLoop
    split
    · rename_i h2
      have hcount := h.count
      exact ih (h.mergeStep hk hT h2).1 (mergeStep_wf hwf (show c.next < 511 by omega))
    · exact hwf

theorem visitStep_wf {node : Table TreeNode} {g : GenCtx} (h : Table.wf entryDefault Config.nsym g.ct) :
    Table.wf entryDefault Config.nsym (visitStep node g).ct := by
  unfold visitStep
  split
  · exact h
  · split
    · dsimp only
      exact ctWrite_wf h ..
    · exact h

theorem visitLoop_wf {node : Table TreeNode} (fuel : Nat) {g : GenCtx} (h : Table.wf entryDefault Config.nsym g.ct) :
    Table.wf entryDefault Config.nsym (visitLoop node fuel g).ct := by
  induction fuel generalizing g with
  | zero => exact h
  | succ n ih =>
    unfold visitLoop
    split
    · exact h
    · exact ih (visitStep_wf h)

/-- GEN writes records of the 256 symbols only (10_state.md R38). -/
theorem State.traverse_wf {s : State} (h : Table.wf entryDefault Config.nsym s.ct) :
    Table.wf entryDefault Config.nsym s.traverse.ct := by
  have hinv := wf_invalidateCt h
  cases hr : s.rootv with
  | false =>
    rw [State.traverse_of_no_root hr]
    generalize invalidateCt s.ct = ct at hinv ⊢
    exact hinv
  | true =>
    cases hn : s.nodeAt s.rootidx.toNat with
    | leaf sym w =>
      rw [State.traverse_of_leaf hr hn]
      generalize invalidateCt s.ct = ct at hinv ⊢
      dsimp only
      exact ctWrite_wf hinv ..
    | internal w l r =>
      rw [State.traverse_of_internal hr hn]
      generalize invalidateCt s.ct = ct at hinv ⊢
      exact visitLoop_wf _ hinv

/-- Every update keeps the memories inside their address spaces and in canonical form. -/
theorem Update.memoriesWf {s u : State} (h : Update s u) (hs : s.MemoriesWf) : u.MemoriesWf := by
  cases h with
  | keep => exact hs
  | clearConditions => exact hs.of_sameEngine rfl
  | clearOut => exact ⟨hs.freq, hs.node, hs.ct, hs.ctBlk, Table.wf_nil⟩
  | clearAll =>
    exact ⟨Table.wf_nil, hs.node, by rw [State.clearAll_ct]; exact wf_invalidateCt hs.ct,
      by rw [State.clearAll_ct]; exact invalidateCt_blk hs.ctBlk, Table.wf_nil⟩
  | setFreq sym v hp => exact ⟨State.freq_wf_setFreq sym v hs.freq, hs.node, hs.ct, hs.ctBlk, hs.outBlk⟩
  | buildTree hp ht =>
    exact ⟨hs.freq, (mergeInv_createLeaves s).mergeLoop_wf _ (presentSymbols_length_le s) ht (createLeaves_wf hs.node),
      hs.ct, hs.ctBlk, hs.outBlk⟩
  | genTable hp => exact ⟨hs.freq, hs.node, State.traverse_wf hs.ct, State.traverse_blk hs.ctBlk, hs.outBlk⟩
  | appendOut sym hp hv hfit =>
    refine ⟨hs.freq, hs.node, hs.ct, hs.ctBlk, Code.appendAll_wf (c := s.outCode) _ hs.outBlk ?_⟩
    rw [CodeEntry.bits_length]; exact hfit

/-! ## The bit store (46_properties.md R189) -/

theorem State.OutWf.of_sameEngine {s t : State} (h : s.OutWf) (he : s.SameEngine t) : t.OutWf := by
  rw [he]; exact ⟨h.len_le_cap, h.cap_le_max, h.cap_pow, h.tail_zero⟩

/-- A fresh, empty `OUT` of capacity 64 (40_bitvector_code.md R101). -/
theorem State.outWf_of_fresh {s : State} (hlen : s.outLen = 0#17) (hcap : s.outCap = 64#17) (hblk : s.outBlk = []) :
    s.OutWf :=
  ⟨by rw [hlen]; exact Nat.zero_le _, by rw [hcap]; decide, ⟨0, by rw [hcap]; decide⟩,
    fun r _ => by rw [hblk]; exact Memory.bit_nil r⟩

/-- The output Code of a good bit store. -/
theorem State.OutWf.outCode_ok {s : State} (h : s.OutWf) : s.outCode.Ok := by
  refine ⟨?_, h.len_le_cap, h.tail_zero⟩
  obtain ⟨j, _, hj⟩ := h.cap_pow
  show 0 < s.outCap.toNat
  rw [hj]; positivity

/-- Appending bits that fit keeps the bit store: the capacity stays a doubling of 64 up to `OUTMAX`. -/
theorem State.OutWf.appendOut {s : State} (h : s.OutWf) {bits : List Bool}
    (hfit : s.outLen.toNat + bits.length ≤ Config.outmax) : (s.appendOut bits).OutWf := by
  have hok := Code.appendAll_ok h.outCode_ok bits
  obtain ⟨i, hi, hcap⟩ := h.cap_pow
  obtain ⟨j, hj, hcap'⟩ := Code.appendAll_cap_pow (c := s.outCode) bits hi hcap (show _ ≤ 64 * 2 ^ 10 from hfit)
  have hmax : (s.outCode.appendAll bits).bv.cap ≤ 65536 := by
    rw [hcap']
    exact Nat.mul_le_mul_left 64 (Nat.pow_le_pow_right (by decide) hj)
  have hlen : (s.appendOut bits).outLen.toNat = (s.outCode.appendAll bits).len := by
    rw [State.appendOut_outLen, BitVec.toNat_ofNat]; exact Nat.mod_eq_of_lt (by have := hok.len_le; omega)
  have hcapn : (s.appendOut bits).outCap.toNat = (s.outCode.appendAll bits).bv.cap := by
    rw [State.appendOut_outCap, BitVec.toNat_ofNat]; exact Nat.mod_eq_of_lt (by omega)
  exact ⟨by rw [hlen, hcapn]; exact hok.len_le, by rw [hcapn]; exact hmax, ⟨j, hj, by rw [hcapn]; exact hcap'⟩,
    by rw [hlen]; exact hok.tail_zero⟩

/-- Every update keeps the bit store: four do not write `OUT`. -/
theorem Update.outWf {s u : State} (h : Update s u) (hs : s.OutWf) : u.OutWf := by
  cases h with
  | keep => exact hs
  | clearOut => exact State.outWf_of_fresh rfl rfl rfl
  | clearAll => exact State.outWf_of_fresh rfl rfl rfl
  | appendOut sym hp hv hfit => exact hs.appendOut (by rw [CodeEntry.bits_length]; exact hfit)
  | _ => exact ⟨hs.len_le_cap, hs.cap_le_max, hs.cap_pow, hs.tail_zero⟩

/-! ## The tree (10_state.md R37, 46_properties.md R186) -/

/-- The build context at the end of BUILD's merges (42_treebuilder.md R125). -/
def State.merged (s : State) : BuildCtx := mergeLoop Config.mergeMax (createLeaves s)

theorem State.mergeInv_merged {s : State} (ht : s.freqTotal ≤ Config.wmax) :
    MergeInv s.presentSymbols.length s.freqTotal (createLeaves s).node s.merged ∧ s.merged.pq.length ≤ 1 := by
  have h := mergeInv_createLeaves s
  have hk := presentSymbols_length_le s
  have hcount := h.count
  have hnext := createLeaves_next s
  exact h.mergeLoop _ hk ht (show _ ≤ 255 + 1 by omega)

/-- A finished build of k leaves: 2k - 1 nodes, and `PQ` holds the last of them alone, or nothing when there is no leaf
(42_treebuilder.md R128). -/
theorem MergeInv.finished {k T : Nat} {leaves : Table TreeNode} {c : BuildCtx} (h : MergeInv k T leaves c)
    (hone : c.pq.length ≤ 1) : c.next = 2 * k - 1 ∧ c.pq = if k = 0 then [] else [2 * k - 2] := by
  have hk := h.k_le
  have hcount := h.count
  match hpq : c.pq with
  | [] =>
    rw [hpq, List.length_nil] at hcount
    have hk0 : k = 0 := by
      by_contra hne
      have := h.newest (by omega)
      rw [hpq] at this
      cases this
    exact ⟨by omega, by rw [if_pos hk0]⟩
  | [i] =>
    rw [hpq, List.length_singleton] at hcount
    have hi : i < c.next := h.lt_next i (by rw [hpq]; exact List.mem_singleton_self i)
    have hlast : i = 2 * k - 2 := by
      by_cases hkn : k < c.next
      · have := h.newest hkn
        rw [hpq, List.mem_singleton] at this
        omega
      · omega
    exact ⟨by omega, by rw [if_neg (by omega), hlast]⟩
  | i :: j :: rest =>
    rw [hpq] at hone
    simp at hone

/-- An internal node of the merge engine is an internal node of the tree. -/
theorem State.internalOk_of_merged {s : State} {i : Nat} (h : Merged s.node i) : s.InternalOk i :=
  ⟨h.tag, h.left_lt, h.right_lt, h.order, h.weight⟩

theorem State.buildTree_eq (s : State) : s.buildTree = finishBuild (createLeaves s).next s.merged s := rfl

/-- The end of BUILD takes the last element of `PQ` as the root. -/
theorem finishBuild_of_root {k i : Nat} {c : BuildCtx} (s : State) (h : c.pq = [i]) :
    (finishBuild k c s).rootv = true ∧ (finishBuild k c s).rootidx = BitVec.ofNat 9 i ∧ (finishBuild k c s).pq = [] := by
  simp [finishBuild, h]

/-- Without an element in `PQ` there is no root (42_treebuilder.md R126). -/
theorem finishBuild_of_no_root {k : Nat} {c : BuildCtx} (s : State) (h : c.pq = []) :
    (finishBuild k c s).rootv = false ∧ (finishBuild k c s).rootidx = 0#9 ∧ (finishBuild k c s).pq = [] := by
  simp [finishBuild, h]

/-- The root BUILD leaves: the last node, if there is a leaf at all. -/
theorem State.buildTree_root {s : State} (ht : s.freqTotal ≤ Config.wmax) :
    s.buildTree.rootv = decide (1 ≤ s.presentSymbols.length) ∧
    s.buildTree.rootidx.toNat = 2 * s.presentSymbols.length - 2 ∧ s.buildTree.pq = [] := by
  obtain ⟨hinv, hone⟩ := State.mergeInv_merged ht
  have hpq := (hinv.finished hone).2
  have hk := presentSymbols_length_le s
  rw [State.buildTree_eq]
  by_cases h0 : s.presentSymbols.length = 0
  · rw [if_pos h0] at hpq
    obtain ⟨hrootv, hrootidx, hempty⟩ := finishBuild_of_no_root (k := (createLeaves s).next) s hpq
    rw [hrootv, hrootidx, hempty, h0]
    simp
  · rw [if_neg h0] at hpq
    obtain ⟨hrootv, hrootidx, hempty⟩ := finishBuild_of_root (k := (createLeaves s).next) s hpq
    rw [hrootv, hrootidx, hempty, BitVec.toNat_ofNat]
    exact ⟨(decide_eq_true (by omega)).symm, Nat.mod_eq_of_lt (by omega), rfl⟩

theorem State.buildTree_leafCount (s : State) : s.buildTree.leafCount = s.presentSymbols.length := by
  have hk := presentSymbols_length_le s
  rw [State.leafCount, State.buildTree_nsyms, createLeaves_next, BitVec.toNat_ofNat]
  exact Nat.mod_eq_of_lt (by omega)

/-- BUILD leaves the Huffman tree of the counts (42_treebuilder.md R123 to R128): what the merges keep, read off at their
end. -/
theorem State.buildTree_treeOk {s : State} (ht : s.freqTotal ≤ Config.wmax) : s.buildTree.TreeOk := by
  obtain ⟨hinv, hone⟩ := State.mergeInv_merged ht
  obtain ⟨hnext, hpq⟩ := hinv.finished hone
  obtain ⟨hrootv, hrootidx, _⟩ := State.buildTree_root ht
  have hk := presentSymbols_length_le s
  have hcreated := createLeaves_next s
  have hcount := State.buildTree_leafCount s
  exact {
    count := hcount
    total := ht
    rootv := by rw [hcount]; exact hrootv
    empty := by rw [hcount, State.buildTree_empty, hcreated]
    degen := by rw [hcount, State.buildTree_degen, hcreated]
    nnodes := by
      show (BitVec.ofNat 10 s.merged.next).toNat = _
      rw [hcount, hnext, BitVec.toNat_ofNat]; exact Nat.mod_eq_of_lt (by omega)
    rootidx := by rw [hcount]; exact hrootidx
    leaves := by
      rw [hcount]
      intro i hi
      obtain ⟨x, hx, hn⟩ := (createLeaves_spec s).leaf i (by omega)
      exact ⟨x, hx, (hinv.leaf i hi).trans hn⟩
    internals := by
      rw [hcount]
      exact fun i h1 h2 => State.internalOk_of_merged (hinv.merged i h1 (by omega))
    parents := by
      intro j hj
      rw [hcount] at hj
      have hparent := hinv.parent j (by omega)
      have hout : j ∉ s.merged.pq := by rw [hpq]; split <;> simp; omega
      rw [if_neg hout, hnext] at hparent
      rw [State.parentCount, hcount]; exact hparent
    greedy := by
      rw [hcount]
      exact fun i h1 h2 => hinv.greedy i h1 (by omega)
    rising := by
      rw [hcount]
      exact fun i h1 h2 => hinv.rising i h1 (by omega)
    rootWeight := by
      rw [hcount, hrootidx]
      intro hpos
      have htotal := hinv.total
      rw [hpq, if_neg (by omega), List.map_singleton, List.sum_singleton] at htotal
      exact htotal }

/-! ## The codes (43_codegen.md R142 to R148, 46_properties.md R187) -/

/-- The present symbols are those of the leaves. -/
theorem State.TreeOk.freqAt_ne_zero_iff {s : State} (h : s.TreeOk) {sym : Symbol} :
    s.freqAt sym ≠ 0#32 ↔ ∃ i < s.leafCount, s.nodeAt i = .leaf sym (s.freqAt sym) := by
  rw [← mem_presentSymbols]
  constructor
  · intro hmem
    obtain ⟨i, hi, rfl⟩ := List.mem_iff_getElem.1 hmem
    have hik : i < s.leafCount := by rw [h.count]; exact hi
    obtain ⟨x, hx, hn⟩ := h.leaves i hik
    rw [List.getElem?_eq_getElem hi, Option.some.injEq] at hx
    exact ⟨i, hik, hx ▸ hn⟩
  · rintro ⟨i, hi, hn⟩
    obtain ⟨x, hx, hxn⟩ := h.leaves i hi
    rw [hn] at hxn
    injection hxn with hsym _
    exact hsym ▸ List.mem_of_getElem? hx

/-- The traversal of a tree of two leaves or more sees every node and ends with an empty queue (43_codegen.md R145). -/
theorem State.TreeOk.traverse_seen {s : State} (h : s.TreeOk) (hm : s.MemoriesWf) (hk : 2 ≤ s.leafCount) :
    ∃ seen, s.GenInv seen s.traverse ∧ s.traverse.bfsq = [] ∧ ∀ j < 2 * s.leafCount - 1, j ∈ seen := by
  have hroot := h.rootidx
  have hle := h.leafCount_le
  have hrootv : s.rootv = true := by rw [h.rootv]; exact decide_eq_true (by omega)
  have htag := (h.internals s.rootidx.toNat (by omega) (by omega)).tag
  cases hn : s.nodeAt s.rootidx.toNat with
  | leaf sym w => rw [hn] at htag; cases htag
  | internal w l r =>
    have hstart := State.GenInv.start h hk (wf_invalidateCt hm.ct) (invalidateCt_blk hm.ctBlk)
      (ctRead_invalidateCt_valid s.ct)
    obtain ⟨seen, hg, hq⟩ := hstart.visitLoop h hk Config.nnodemax (by simp only [Config.nnodemax]; omega)
    rw [State.traverse_of_internal hrootv hn]
    exact ⟨seen, hg, hq, hg.all_seen h hk hq⟩

/-- The record of a Code that leads to a leaf is the record of that leaf's symbol. -/
theorem State.Leads.entryOk {s : State} {i : Nat} {c : Code} {sym : Symbol} (hl : s.Leads i c) (hk : 2 ≤ s.leafCount)
    (hle : s.leafCount ≤ 256) (hi : i < s.leafCount) (hn : s.nodeAt i = .leaf sym (s.freqAt sym)) (hpos : 1 ≤ c.len)
    (he : s.ctAt sym = c.toEntry) : s.EntryOk sym := by
  have hshort := hl.short
  have hlen : (s.ctAt sym).len.toNat = c.len := by rw [he]; exact Code.toEntry_len (by omega)
  have hbits : s.codeBits sym = c.render := by rw [State.codeBits, he]; exact Code.toEntry_bits hl.ok (by omega)
  refine ⟨by omega, by omega, ?_, ?_, fun h1 => by omega, fun _ => ⟨i, hi, by rw [hbits]; exact hl.walk, hn⟩⟩
  · rw [he]; exact hl.wf.2
  · intro r _ hr; rw [he]; exact hl.ok.tail_zero r (by omega)

/-- A tree of two leaves or more: each present symbol gets the branch bits of its leaf. -/
theorem State.TreeOk.genTable_of_two {s : State} (h : s.TreeOk) (hm : s.MemoriesWf) (hk : 2 ≤ s.leafCount) :
    s.genTable.bfsq = [] ∧ s.genTable.CodesOk := by
  have ht : s.genTable.TreeOk := h.of_treePart rfl
  obtain ⟨seen, hg, hq, hall⟩ := h.traverse_seen hm hk
  refine ⟨hq, fun sym => ?_, fun sym hv => ?_⟩
  · rw [ht.freqAt_ne_zero_iff]
    refine (hg.valid sym).trans ⟨fun ⟨i, _, hi⟩ => ⟨i, hi⟩, fun ⟨i, hi, hn⟩ => ⟨i, hall i ?_, hi, hn⟩⟩
    change i < s.leafCount at hi
    omega
  · obtain ⟨i, c, hi, hn, hl, hpos, he⟩ := hg.entry sym hv
    have hl : s.genTable.Leads i c :=
      ⟨hl.ok, hl.wf, (State.walk_of_node_eq (by rfl) _ _).trans hl.walk, hl.lt, hl.short⟩
    exact hl.entryOk hk h.leafCount_le hi hn hpos he

/-- What GEN leaves in the code table for a leaf root (43_codegen.md R143). -/
theorem State.genTable_ctAt_of_leaf {s : State} {x : Symbol} {w : Weight} (hr : s.rootv = true)
    (hn : s.nodeAt s.rootidx.toNat = .leaf x w) (sym : Symbol) : s.genTable.ctAt sym =
      if sym = x then (Code.empty.append false).toEntry else ctRead (invalidateCt s.ct) sym := by
  show ctRead s.traverse.ct sym = _
  rw [State.traverse_of_leaf hr hn, ctRead_ctWrite]

theorem State.genTable_valid_of_leaf {s : State} {x : Symbol} {w : Weight} (hr : s.rootv = true)
    (hn : s.nodeAt s.rootidx.toNat = .leaf x w) (sym : Symbol) : (s.genTable.ctAt sym).valid = true ↔ sym = x := by
  rw [State.genTable_ctAt_of_leaf hr hn]
  by_cases hs : sym = x
  · rw [if_pos hs]; exact iff_of_true rfl hs
  · rw [if_neg hs, ctRead_invalidateCt_valid]; exact iff_of_false Bool.false_ne_true hs

/-- Without a root GEN leaves no code (43_codegen.md R144). -/
theorem State.genTable_noCodes {s : State} (hr : s.rootv = false) : s.genTable.NoCodes := fun sym => by
  show (ctRead s.traverse.ct sym).valid = false
  rw [State.traverse_of_no_root hr, ctRead_invalidateCt_valid]

/-- A tree of one leaf: its symbol gets the one-bit code "0" (43_codegen.md R143). -/
theorem State.TreeOk.genTable_of_one {s : State} (h : s.TreeOk) (hk : s.leafCount = 1) :
    s.genTable.bfsq = [] ∧ s.genTable.CodesOk := by
  have ht : s.genTable.TreeOk := h.of_treePart rfl
  have hk' : s.genTable.leafCount = 1 := hk
  have hrootv : s.rootv = true := by rw [h.rootv]; exact decide_eq_true (by omega)
  obtain ⟨x, _, hn⟩ := h.leaves 0 (by omega)
  have hroot : s.nodeAt s.rootidx.toNat = .leaf x (s.freqAt x) := by rw [h.rootidx, hk]; exact hn
  have hvalid := State.genTable_valid_of_leaf hrootv hroot
  have hok := Code.append_ok Code.empty_ok false
  refine ⟨by rw [State.genTable_bfsq, State.traverse_of_leaf hrootv hroot], fun sym => ?_, fun sym hv => ?_⟩
  · rw [hvalid, ht.freqAt_ne_zero_iff]
    constructor
    · rintro rfl; exact ⟨0, by omega, hn⟩
    · rintro ⟨i, hi, hsym⟩
      obtain rfl : i = 0 := by omega
      injection hsym.symm.trans hn
  · obtain rfl := (hvalid sym).1 hv
    have he : s.genTable.ctAt sym = (Code.empty.append false).toEntry := by
      rw [State.genTable_ctAt_of_leaf hrootv hroot, if_pos rfl]
    refine ⟨by rw [he]; decide, by rw [he, hk']; decide, by rw [he]; decide, fun r _ hr => ?_, fun _ => ?_,
      fun h2 => by omega⟩
    · rw [he] at hr ⊢; exact hok.tail_zero r hr
    · rw [State.codeBits, he, Code.toEntry_bits hok (by decide), Code.render_append Code.empty_ok]; rfl

/-- No symbol at all: no code (43_codegen.md R144). -/
theorem State.TreeOk.genTable_of_none {s : State} (h : s.TreeOk) (hk : s.leafCount = 0) :
    s.genTable.bfsq = [] ∧ s.genTable.CodesOk := by
  have ht : s.genTable.TreeOk := h.of_treePart rfl
  have hk' : s.genTable.leafCount = 0 := hk
  have hrootv : s.rootv = false := by rw [h.rootv, hk]; rfl
  have hnone := State.genTable_noCodes hrootv
  refine ⟨by rw [State.genTable_bfsq, State.traverse_of_no_root hrootv], fun sym => ?_,
    fun sym hv => absurd hv (by rw [hnone sym]; decide)⟩
  rw [hnone sym, ht.freqAt_ne_zero_iff]
  exact iff_of_false Bool.false_ne_true fun ⟨i, hi, _⟩ => by omega

/-- GEN from the tree BUILD left: its queue is empty at the end and the codes are those of the tree. -/
theorem State.TreeOk.genTable {s : State} (h : s.TreeOk) (hm : s.MemoriesWf) :
    s.genTable.bfsq = [] ∧ s.genTable.CodesOk :=
  match hk : s.leafCount with
  | 0 => h.genTable_of_none hk
  | 1 => h.genTable_of_one hk
  | k + 2 => h.genTable_of_two hm (by omega)

/-! ## The life cycle (45_control.md R170) -/

/-- What a good state's phase says of its transient state, its tree and its codes. -/
structure State.LifeOk (s : State) : Prop where
  transient : s.TransientEmpty
  noTree : s.phase = .collect → s.NoTree
  tree : s.phase ≠ .collect → s.TreeOk
  noCodes : s.phase ≠ .ready → s.NoCodes
  codes : s.phase = .ready → s.CodesOk

/-- A good state in three parts that the updates keep one by one. -/
theorem State.inv_iff {s : State} : s.Inv ↔ s.MemoriesWf ∧ s.OutWf ∧ s.LifeOk :=
  ⟨fun h => ⟨h.memories, h.out, h.transient, h.noTree, h.tree, h.noCodes, h.codes⟩,
    fun ⟨hm, ho, hl⟩ => ⟨hm, ho, hl.transient, hl.noTree, hl.tree, hl.noCodes, hl.codes⟩⟩

/-- The part of the state that `LifeOk` speaks of. -/
def State.lifePart (s : State) : State := { s.codePart with phase := s.phase, pq := s.pq, bfsq := s.bfsq }

theorem State.LifeOk.of_lifePart {s t : State} (h : s.LifeOk) (he : t.lifePart = s.lifePart) : t.LifeOk := by
  have hphase : t.phase = s.phase := (congrArg State.phase he :)
  have htree : t.treePart = s.treePart := (congrArg State.treePart he :)
  have hcode : t.codePart = s.codePart := (congrArg State.codePart he :)
  have hct : t.ct = s.ct := (congrArg State.ct he :)
  refine ⟨⟨?_, ?_⟩, fun hp => ?_, fun hp => (h.tree (hphase ▸ hp)).of_treePart htree, fun hp sym => ?_,
    fun hp => (h.codes (hphase ▸ hp)).of_codePart hcode⟩
  · exact (congrArg State.pq he).trans h.transient.pq
  · exact (congrArg State.bfsq he).trans h.transient.bfsq
  · exact (h.noTree (hphase ▸ hp)).of_treePart htree
  · rw [State.ctAt, hct]; exact h.noCodes (hphase ▸ hp) sym

/-- In COLLECT, with no tree and no codes. -/
theorem State.lifeOk_of_collect {s : State} (htr : s.TransientEmpty) (hp : s.phase = .collect) (hn : s.NoTree)
    (hc : s.NoCodes) : s.LifeOk :=
  ⟨htr, fun _ => hn, fun h => absurd hp h, fun _ => hc, fun h => by rw [hp] at h; cases h⟩

theorem State.lifeOk_reset : State.reset.LifeOk :=
  State.lifeOk_of_collect ⟨rfl, rfl⟩ rfl ⟨rfl, rfl, rfl, rfl, rfl, rfl⟩ fun _ => rfl

theorem State.LifeOk.clearAll {s : State} (h : s.LifeOk) : s.clearAll.LifeOk :=
  State.lifeOk_of_collect ⟨h.transient.pq, h.transient.bfsq⟩ rfl ⟨rfl, rfl, rfl, rfl, rfl, rfl⟩ fun sym => by
    rw [State.ctAt, State.clearAll_ct]; exact ctRead_invalidateCt_valid s.ct sym

theorem State.LifeOk.setFreq {s : State} (h : s.LifeOk) (hp : s.phase = .collect) (sym : Symbol) (v : Weight) :
    (s.setFreq sym v).LifeOk :=
  have hn := h.noTree hp
  State.lifeOk_of_collect ⟨h.transient.pq, h.transient.bfsq⟩ hp
    ⟨hn.rootv, hn.empty, hn.degen, hn.rootidx, hn.nnodes, hn.nsyms⟩ (h.noCodes (by rw [hp]; decide))

theorem State.LifeOk.buildTree {s : State} (h : s.LifeOk) (hp : s.phase = .collect) (ht : s.freqTotal ≤ Config.wmax) :
    s.buildTree.LifeOk :=
  have ⟨_, _, hpq⟩ := State.buildTree_root ht
  ⟨⟨hpq, h.transient.bfsq⟩, (nomatch ·), fun _ => State.buildTree_treeOk ht,
    fun _ => h.noCodes (by rw [hp]; decide), (nomatch ·)⟩

theorem State.LifeOk.genTable {s : State} (h : s.LifeOk) (hm : s.MemoriesWf) (hp : s.phase = .built) :
    s.genTable.LifeOk :=
  have ht := h.tree (by rw [hp]; decide)
  have ⟨hq, hc⟩ := ht.genTable hm
  ⟨⟨h.transient.pq, hq⟩, (nomatch ·), fun _ => ht.of_treePart rfl, fun hr => absurd rfl hr, fun _ => hc⟩

/-- Every update keeps the life cycle; GEN needs the code table's form. -/
theorem Update.lifeOk {s u : State} (h : Update s u) (hm : s.MemoriesWf) (hs : s.LifeOk) : u.LifeOk := by
  cases h with
  | keep => exact hs
  | clearConditions => exact hs.of_lifePart rfl
  | clearOut => exact hs.of_lifePart rfl
  | clearAll => exact hs.clearAll
  | setFreq sym v hp => exact hs.setFreq hp sym v
  | buildTree hp ht => exact hs.buildTree hp ht
  | genTable hp => exact hs.genTable hm hp
  | appendOut sym hp hv hfit => exact hs.of_lifePart rfl

/-! ## The good state -/

theorem State.inv_reset : State.reset.Inv :=
  State.inv_iff.2 ⟨State.memoriesWf_reset, State.outWf_of_fresh rfl rfl rfl, State.lifeOk_reset⟩

theorem State.Inv.of_sameEngine {s t : State} (h : s.Inv) (he : s.SameEngine t) : t.Inv :=
  have ⟨hm, ho, hl⟩ := State.inv_iff.1 h
  State.inv_iff.2 ⟨hm.of_sameEngine he, ho.of_sameEngine he, hl.of_lifePart (by rw [he]; rfl)⟩

/-- Every update keeps a good state. -/
theorem Update.inv {s u : State} (h : Update s u) (hs : s.Inv) : u.Inv :=
  have ⟨hm, ho, hl⟩ := State.inv_iff.1 hs
  State.inv_iff.2 ⟨h.memoriesWf hm, h.outWf ho, h.lifeOk hm hl⟩

/-- Settles O51: reset is good, and the updates of every command keep the memories, the bit store and the life cycle. -/
theorem stepKeepsGoodState : Obligations.StepKeepsGoodState := fun _ _ hs h =>
  step_keeps State.inv_reset State.Inv.of_sameEngine (fun hs hu => hu.inv hs) hs h

/-! ## The STATUS register (10_state.md R27) -/

/-- Bit `i` of the data RDSTAT 1 returns: the fields of R27 from the low end, and 0 in every other bit. -/
theorem statusData_getLsbD (s : State) (i : Nat) : (zext64 s.statusWord).getLsbD i =
    if i < 2 then s.phase.code.getLsbD i else
    if i = 2 then s.rootv else if i = 3 then s.empty else if i = 4 then s.degen else
    if i = 8 then s.ill else if i = 9 then s.pherr else if i = 10 then s.wovf else if i = 11 then s.oovf else
    if i = 12 then s.unk else false := by
  simp only [zext64, BitVec.getLsbD_setWidth, State.statusWord, BitVec.getLsbD_append, BitVec.getLsbD_ofBool,
    BitVec.getLsbD_zero]
  rcases Nat.lt_or_ge i 13 with hi | hi
  · interval_cases i <;> simp
  · rw [if_neg (by omega)]
    grind

theorem statusData_phase (s : State) : (zext64 s.statusWord).extractLsb' 0 2 = s.phase.code := by
  refine BitVec.eq_of_getLsbD_eq fun i hi => ?_
  rw [BitVec.getLsbD_extractLsb', Nat.zero_add, statusData_getLsbD, if_pos hi, decide_eq_true hi, Bool.true_and]

/-- A run of bits that names no field reads 0. -/
theorem statusData_zeros (s : State) {start len : Nat} (h : 13 ≤ start ∨ 5 ≤ start ∧ start + len ≤ 8) :
    (zext64 s.statusWord).extractLsb' start len = 0#len := by
  refine BitVec.eq_of_getLsbD_eq fun i hi => ?_
  rw [BitVec.getLsbD_extractLsb', statusData_getLsbD, BitVec.getLsbD_zero]
  grind

/-- Settles O17: RDSTAT 1 answers `STATUS` zero-extended, whose bits are read off one by one. -/
theorem statusFields : Obligations.StatusFields :=
  ⟨fun s => ⟨zext64 s.statusWord, rfl, statusData_phase s, statusData_getLsbD s 2, statusData_getLsbD s 3,
    statusData_getLsbD s 4, statusData_zeros s (by decide), statusData_getLsbD s 8, statusData_getLsbD s 9,
    statusData_getLsbD s 10, statusData_getLsbD s 11, statusData_getLsbD s 12, statusData_zeros s (by decide),
    statusData_zeros s (by decide)⟩, rfl, rfl, rfl, by decide⟩

end Sys2Proof.Machine
end

section
/-! PROOFS. The memories (20_memory.md): reads change nothing and agree with each other (O23, O44, O45), who writes which
memory (O46), the address spaces (O49), and the step that takes a command word (O5). -/

namespace Sys2Proof.Machine

/-! ## The step -/

/-- A command word is taken from what the host does next, and issued (20_memory.md R59). -/
theorem step_of_command {s : State} {w : Word} {rest : List HostInput} (h : s.host = .command w :: rest) :
    step s = issue w { s with host := rest } := by
  simp [step, serveHost, h]

/-- Settles O5: the word is taken, and issuing a word that decodes runs its command. -/
theorem stepRunsDecodedCommand : Obligations.StepRunsDecodedCommand := fun _ _ _ _ hhost hdec =>
  (step_of_command hhost).trans (issue_of_ok hdec _)

/-- Settles O49: the memories are well formed at reset, and the update of every command keeps them so. -/
theorem stepKeepsMemories : Obligations.StepKeepsMemories := fun _ _ hs h =>
  step_keeps State.memoriesWf_reset State.MemoriesWf.of_sameEngine (fun hs hu => hu.memoriesWf hs) hs h

/-! ## Reads (20_memory.md R56) -/

/-- The data a read command answers with, 0 for every other command. -/
def State.readData (s : State) : Instr → Word
  | .rdstat n => (StatusReg.ofNumber n).elim 0#64 fun r => zext64 (s.statusreg r)
  | .rdfreq sym => zext64 (s.freqAt sym)
  | .rdnode i => s.nodeData i.toNat
  | .rdlen sym => (s.ctAt sym).lenData
  | .rdcode sym b => zext64 ((s.ctAt sym).block b.toNat)
  | .test r => zext64 (BitVec.ofBool (s.outCode.bv.test r.toNat))
  | .rdout b => zext64 (s.outBlock b.toNat)
  | .nop | .clrall | .clrout | .clrerr | .feed _ | .setf _ _ | .build | .gen | .enc _ => 0#64

/-- A read answers its data and writes nothing but the response port. -/
theorem exec_read {i : Instr} (hread : isRead i = true) (hwf : i.wellFormed = true) (s : State) :
    exec i s = .next { s with resp := answer (s.readData i) } := by
  cases i with
  | rdstat n =>
    obtain ⟨r, hr⟩ := StatusReg.ofNumber_of_le (Nat.le_of_lt_succ (of_decide_eq_true hwf))
    show execRdstat n s = _
    simp only [execRdstat, hr, State.readData, Option.elim_some, respond_eq]
  | rdfreq _ | rdnode _ | rdlen _ | rdcode _ _ | test _ | rdout _ => rfl
  | nop | clrall | clrout | clrerr | feed _ | setf _ _ | build | gen | enc _ => cases hread

/-- No read looks at the response port. -/
@[simp] theorem State.readData_resp (s : State) (r : Option Response) (i : Instr) :
    State.readData { s with resp := r } i = s.readData i := by cases i <;> rfl

/-- Settles O44: a read answers data that does not depend on the response port, and writes only that port. -/
theorem readsChangeNothing : Obligations.ReadsChangeNothing := fun i s hread hwf =>
  ⟨s.readData i, fun r => by rw [exec_read hread hwf, State.readData_resp]⟩

/-! ## Reads outside a memory (20_memory.md R54) -/

theorem BitVector.test_of_cap_le {b : BitVector} {r : Nat} (h : b.cap ≤ r) : b.test r = false := if_pos h

theorem BitVector.test_of_lt_cap {b : BitVector} {r : Nat} (h : r < b.cap) : b.test r = Memory.bit b.blk r :=
  if_neg (Nat.not_le.2 h)

theorem State.outBlock_of_cap_le {s : State} {b : Nat} (h : s.outCap.toNat ≤ 8 * b) : s.outBlock b = 0#8 := if_pos h

theorem State.outBlock_of_lt_cap {s : State} {b : Nat} (h : 8 * b < s.outCap.toNat) :
    s.outBlock b = Memory.read s.outBlk b := if_neg (Nat.not_le.2 h)

theorem CodeEntry.block_outside {e : CodeEntry} {b : Nat} (h : e.valid = false ∨ 32 ≤ b) : e.block b = 0#8 := if_pos h

theorem CodeEntry.lenData_of_not_valid {e : CodeEntry} (h : e.valid = false) : e.lenData = 0#64 :=
  if_neg (Bool.eq_false_iff.1 h)

theorem State.nodeData_of_nnodes_le {s : State} {i : Nat} (h : s.nnodes.toNat ≤ i) : s.nodeData i = 0#64 := if_pos h

/-- Settles O45: outside a memory the data of each read is 0. -/
theorem outOfRangeReadsZero : Obligations.OutOfRangeReadsZero := by
  intro s n c
  have zero {i : Instr} (hread : isRead i = true) (hwf : i.wellFormed = true) (hdata : s.readData i = 0#64) :
      exec i s = .next { s with resp := answer 0#64 } := hdata ▸ exec_read hread hwf s
  refine ⟨fun h => zero rfl rfl ?_, fun h hdvd => zero rfl rfl ?_, fun h => zero rfl rfl ?_, fun h => zero rfl rfl ?_,
    fun h => zero rfl rfl ?_⟩
  · rw [State.readData, BitVector.test_of_cap_le (b := s.outCode.bv) h]; rfl
  · rw [State.readData, State.outBlock_of_cap_le (by omega)]; rfl
  · rw [State.readData, CodeEntry.block_outside h.symm]; rfl
  · exact CodeEntry.lenData_of_not_valid h
  · exact State.nodeData_of_nnodes_le h

/-! ## Blocks and ranks (20_memory.md R51) -/

/-- The capacity of a good bit store is a whole number of blocks. -/
theorem State.OutWf.eight_dvd_cap {s : State} (h : s.OutWf) : 8 ∣ s.outCap.toNat := by
  obtain ⟨j, _, hj⟩ := h.cap_pow
  exact hj ▸ Dvd.dvd.mul_right (by decide) _

/-- Bit 7 - j of a block of `OUT` is the bit at rank 8b + j: both are inside the capacity or neither is, since it is a whole
number of blocks. -/
theorem State.OutWf.outBlock_getLsbD {s : State} (h : s.OutWf) (b : Nat) {j : Nat} (hj : j < 8) :
    (s.outBlock b).getLsbD (7 - j) = s.outCode.bv.test (8 * b + j) := by
  have hdvd := h.eight_dvd_cap
  rcases Nat.lt_or_ge (8 * b) s.outCap.toNat with hin | hout
  · have hin' : 8 * b + j < s.outCode.bv.cap := show 8 * b + j < s.outCap.toNat by omega
    have hblock : (8 * b + j) / 8 = b := by omega
    have hbit : (8 * b + j) % 8 = j := by omega
    rw [State.outBlock_of_lt_cap hin, BitVector.test_of_lt_cap hin', Memory.bit_eq, hblock, hbit]; rfl
  · have hout' : s.outCode.bv.cap ≤ 8 * b + j := show s.outCap.toNat ≤ 8 * b + j by omega
    rw [State.outBlock_of_cap_le hout, BitVector.test_of_cap_le hout', BitVec.getLsbD_zero]

/-- Zero-extension to `data` keeps the bits of the value. -/
theorem zext64_getLsbD {n i : Nat} (v : BitVec n) (hi : i < 64) : (zext64 v).getLsbD i = v.getLsbD i := by
  simp [zext64, hi]

/-- A bit as `data` is 1 exactly when the bit is set. -/
theorem zext64_ofBool_eq_one {b : Bool} : zext64 (BitVec.ofBool b) = 1#64 ↔ b = true := by cases b <;> decide

/-- Settles O23: both reads answer, and the bit of the block is the bit at the rank. -/
theorem rdoutAgreesWithTest : Obligations.RdoutAgreesWithTest := fun s b r j hout hj hr =>
  ⟨_, _, exec_read (i := .rdout b) rfl rfl s, exec_read (i := .test r) rfl rfl s, by
    rw [State.readData, State.readData, zext64_getLsbD _ (by omega), hout.outBlock_getLsbD _ hj, zext64_ofBool_eq_one, hr]⟩

/-! ## Who writes which memory (20_memory.md R65) -/

/-- What a command can write of `FREQ`, `NODE`, the tree's registers and `CT`, and in which phase. -/
inductive MemoryEffect (s t : State) : Instr → Prop where
  | keep (i : Instr) (h : t.codePart = s.codePart) : MemoryEffect s t i
  | clrall (hnode : t.node = s.node) : MemoryEffect s t .clrall
  | count (i : Instr) (hp : s.phase = .collect) (h : t.codePart = State.codePart { s with freq := t.freq }) :
      MemoryEffect s t i
  | build (hp : s.phase = .collect) (hfreq : t.freq = s.freq) (hct : t.ct = s.ct) : MemoryEffect s t .build
  | gen (hp : s.phase = .built) (h : t.codePart = State.codePart { s with ct := t.ct }) : MemoryEffect s t .gen

theorem Answered.codePart_eq {u t : State} (h : Answered u t) : t.codePart = u.codePart := by
  rw [h.sameEngine]; rfl

/-- An answer on the state as it is writes no memory. -/
theorem Answered.memoryEffect {s t : State} (h : Answered s t) (i : Instr) : MemoryEffect s t i := .keep i h.codePart_eq

/-- Every command's effect on the memories, said once. -/
theorem exec_memoryEffect {i : Instr} {s t : State} (h : exec i s = .next t) : MemoryEffect s t i := by
  cases i with
  | nop | rdfreq _ | rdnode _ | rdlen _ | rdcode _ _ | test _ | rdout _ =>
    cases h; exact (Answered.respond _).memoryEffect _
  | clrout | clrerr => cases h; exact .keep _ rfl
  | clrall => cases h; exact .clrall rfl
  | feed sym =>
    rcases execFeed_cases h with ⟨_, rfl⟩ | ⟨_, _, rfl⟩ | ⟨hp, _, rfl⟩
    · exact (Answered.deliver ..).memoryEffect _
    · exact (Answered.deliver ..).memoryEffect _
    · exact .count _ hp rfl
  | setf sym count =>
    rcases execSetf_cases h with ⟨_, rfl⟩ | ⟨hp, rfl⟩
    · exact (Answered.deliver ..).memoryEffect _
    · exact .count _ hp rfl
  | build =>
    rcases execBuild_cases h with
      ⟨_, rfl⟩ | ⟨_, _, rfl⟩ | ⟨hp, _, _, rfl⟩ | ⟨hp, _, _, rfl⟩ | ⟨hp, _, _, rfl⟩
    · exact (Answered.deliver ..).memoryEffect _
    · exact (Answered.deliver ..).memoryEffect _
    all_goals exact .build hp rfl rfl
  | gen =>
    rcases execGen_cases h with ⟨_, rfl⟩ | ⟨hp, rfl⟩
    · exact (Answered.deliver ..).memoryEffect _
    · exact .gen hp rfl
  | enc sym =>
    rcases execEnc_cases h with ⟨_, rfl⟩ | ⟨_, _, rfl⟩ | ⟨_, _, _, rfl⟩ | ⟨_, _, _, rfl⟩
    · exact (Answered.deliver ..).memoryEffect _
    · exact (Answered.deliver ..).memoryEffect _
    · exact (Answered.deliver ..).memoryEffect _
    · exact .keep _ rfl
  | rdstat n =>
    rcases execRdstat_cases h with ⟨_, _, rfl⟩ | ⟨_, rfl⟩
    · exact (Answered.respond _).memoryEffect _
    · exact (Answered.deliver ..).memoryEffect _

/-- Equal tree and code parts, field by field. -/
theorem State.fields_of_codePart_eq {s t : State} (h : t.codePart = s.codePart) :
    t.freq = s.freq ∧ t.node = s.node ∧ t.ct = s.ct ∧ t.rootidx = s.rootidx ∧ t.rootv = s.rootv ∧
      t.nnodes = s.nnodes ∧ t.nsyms = s.nsyms ∧ t.empty = s.empty ∧ t.degen = s.degen :=
  have field {α : Type} (f : State → α) : f t.codePart = f s.codePart := congrArg f h
  ⟨field State.freq, field State.node, field State.ct, field State.rootidx, field State.rootv, field State.nnodes,
    field State.nsyms, field State.empty, field State.degen⟩

/-- Settles O46: each clause is read off the effects a command can have; in READY only CLRALL has one. -/
theorem immutableByPhase : Obligations.ImmutableByPhase := by
  intro i s t h
  cases exec_memoryEffect h with
  | keep _ hkeep =>
    obtain ⟨hfreq, hnode, hct, hregs⟩ := State.fields_of_codePart_eq hkeep
    exact ⟨fun _ _ => hfreq, fun _ _ => hregs, fun _ => hnode, fun _ _ => hct,
      fun _ _ => ⟨hfreq, hnode, hct, hregs⟩⟩
  | clrall hnode =>
    exact ⟨fun _ hi => absurd rfl hi, fun _ hi => absurd rfl hi, fun _ => hnode, fun _ hi => absurd rfl hi,
      fun _ hi => absurd rfl hi⟩
  | count _ hp hcount =>
    obtain ⟨_, hnode, hct, hregs⟩ := State.fields_of_codePart_eq hcount
    exact ⟨fun hne => absurd hp hne, fun _ _ => hregs, fun _ => hnode, fun _ _ => hct,
      fun hr => nomatch hp.symm.trans hr⟩
  | build hp hfreq hct =>
    exact ⟨fun _ _ => hfreq, fun hi => absurd rfl hi, fun hi => absurd rfl hi, fun _ _ => hct,
      fun hr => nomatch hp.symm.trans hr⟩
  | gen hp hgen =>
    obtain ⟨hfreq, hnode, _, hregs⟩ := State.fields_of_codePart_eq hgen
    exact ⟨fun _ _ => hfreq, fun _ _ => hregs, fun _ => hnode, fun hi => absurd rfl hi,
      fun hr => nomatch hp.symm.trans hr⟩

end Sys2Proof.Machine
end

section
/-! PROOFS. The encoding (30_encoding.md): the decoder and the encoder are inverse to each other (O1, O2), the illegal words
and what executing one does (O3), words written out in the spec (O4), the register numbers of RDSTAT (O18, O19), and the one
response of every command (O9). -/

namespace Sys2Proof

/-! ## The encoder and the decoder -/

/-- The one restriction on operands is RDSTAT's register number (30_encoding.md R83). -/
theorem Instr.wellFormed_iff {i : Instr} :
    i.wellFormed = true ↔ (i.opcode = .rdstat → registerNumberOk i.immOperand = true) := by
  cases i <;> simp [Instr.wellFormed, Instr.opcode, Instr.immOperand]

/-- A command made from a symbol field that is 0 where the format has none has that field as its symbol operand. -/
theorem Opcode.symOperand_toInstr {o : Opcode} {sym : Symbol} (h : o.format.hasSym = false → sym = 0) (imm : Imm) :
    (o.toInstr sym imm).symOperand = sym := by
  cases o with
  | feed | setf | enc | rdfreq | rdlen | rdcode => rfl
  | nop | clrall | clrout | clrerr | build | gen | rdstat | rdnode | test | rdout => exact (h rfl).symm

/-- A command made from an immediate field that is 0 where the format has none has that field as its immediate operand. -/
theorem Opcode.immOperand_toInstr {o : Opcode} {imm : Imm} (h : o.format.hasImm = false → imm = 0) (sym : Symbol) :
    (o.toInstr sym imm).immOperand = imm := by
  cases o with
  | setf | rdstat | rdnode | rdcode | test | rdout => rfl
  | nop | clrall | clrout | clrerr | feed | build | gen | enc | rdfreq | rdlen => exact (h rfl).symm

/-- The word of a well-formed command passes the five tests of the decode function (30_encoding.md R76). -/
theorem decode_encode {i : Instr} (h : i.wellFormed = true) : decode (encode i) = .ok i := by
  have hdec := decode_of_fields (w := encode i) (o := i.opcode) (by simp) (by simp)
    (by simpa using Instr.symOperand_eq_zero) (by simpa using Instr.immOperand_eq_zero)
    (by simpa using Instr.wellFormed_iff.1 h)
  simpa using hdec

/-- A word that decodes has the fields of its command's word. -/
theorem wellFormed_and_encode_of_decode {w : Word} {i : Instr} (h : decode w = .ok i) :
    i.wellFormed = true ∧ encode i = w := by
  obtain ⟨o, hop, hrsv, hsym, himm, hreg, rfl⟩ := decode_ok_cases h
  have hs := Opcode.symOperand_toInstr hsym (immField w)
  have hi := Opcode.immOperand_toInstr himm (symField w)
  refine ⟨Instr.wellFormed_iff.2 ?_, word_ext ?_ ?_ ?_ ?_⟩
  · rwa [Opcode.toInstr_opcode, hi]
  · rw [opField_encode, Opcode.toInstr_opcode, Opcode.code_of_ofByte hop]
  · rw [symField_encode, hs]
  · rw [rsvField_encode, hrsv]
  · rw [immField_encode, hi]

/-! ## Illegal encodings (30_encoding.md R77) -/

/-- The bytes that select no opcode are those outside the opcode map. -/
theorem Opcode.ofByte_eq_none_iff {b : BitVec 8} : Opcode.ofByte b = none ↔ b ∉ Opcode.all.map Opcode.code := by
  simp [Opcode.ofByte]

theorem decode_of_unassigned {w : Word} (h : Opcode.ofByte (opField w) = none) : decode w = .error .unassignedOpcode := by
  simp [decode, h]

/-- A word of an assigned opcode is refused exactly when it fails one of the other four tests of 30_encoding.md R76. -/
theorem decode_error_iff {w : Word} {o : Opcode} (ho : Opcode.ofByte (opField w) = some o) :
    (∃ e, decode w = .error e) ↔
      rsvField w ≠ 0 ∨ (o.format.hasSym = false ∧ symField w ≠ 0) ∨ (o.format.hasImm = false ∧ immField w ≠ 0) ∨
        (o = .rdstat ∧ registerNumberOk (immField w) = false) := by
  unfold decode
  rw [ho]
  simp only []
  split_ifs with hrsv hsym himm hreg
  · exact ⟨fun _ => .inl hrsv, fun _ => ⟨_, rfl⟩⟩
  · exact ⟨fun _ => .inr (.inl hsym), fun _ => ⟨_, rfl⟩⟩
  · exact ⟨fun _ => .inr (.inr (.inl himm)), fun _ => ⟨_, rfl⟩⟩
  · exact ⟨fun _ => .inr (.inr (.inr hreg)), fun _ => ⟨_, rfl⟩⟩
  · simp only [hrsv, hsym, himm, hreg, exists_false, or_self]

/-- The opcodes of formats N and I (30_encoding.md R75). -/
theorem Opcode.hasSym_eq_false_iff (o : Opcode) : o.format.hasSym = false ↔
    o.code ∈ [0x00#8, 0x01#8, 0x02#8, 0x03#8, 0x20#8, 0x21#8, 0x40#8, 0x42#8, 0x45#8, 0x46#8] := by
  cases o <;> decide

/-- The opcodes of formats N and S (30_encoding.md R75). -/
theorem Opcode.hasImm_eq_false_iff (o : Opcode) : o.format.hasImm = false ↔
    o.code ∈ [0x00#8, 0x01#8, 0x02#8, 0x03#8, 0x20#8, 0x21#8, 0x10#8, 0x30#8, 0x41#8, 0x43#8] := by
  cases o <;> decide

theorem Opcode.eq_rdstat_iff (o : Opcode) : o = .rdstat ↔ o.code = 0x40#8 := by cases o <;> decide

theorem registerNumberOk_eq_true_iff {n : Imm} : registerNumberOk n = true ↔ n.toNat ≤ 8 := by
  simp [registerNumberOk, Nat.lt_succ_iff]

theorem registerNumberOk_eq_false_iff {n : Imm} : registerNumberOk n = false ↔ 8 < n.toNat := by
  rw [← Bool.not_eq_true, registerNumberOk_eq_true_iff, Nat.not_le]

/-! ## The word of RDSTAT -/

/-- The word of RDSTAT: the opcode, 24 zero bits and the register number (30_encoding.md R71, R72). -/
theorem encode_rdstat (n : Imm) : encode (.rdstat n) = 0x40#8 ++ (0#24 ++ n) := by
  have h : (0#8 ++ (0#16 ++ n) : BitVec 56) = 0#24 ++ n := BitVec.append_assoc' ..
  exact congrArg (0x40#8 ++ ·) h

theorem decode_encode_rdstat_of_gt {n : Imm} (h : 8 < n.toNat) :
    decode (encode (.rdstat n)) = .error .registerNumber := by
  have hreg := registerNumberOk_eq_false_iff.2 h
  simp [decode, Instr.opcode, Instr.symOperand, Instr.immOperand, Opcode.format, Format.hasImm, hreg]

end Sys2Proof

namespace Sys2Proof.Machine

/-! ## The command word -/

/-- Settles O1: the fields of a well-formed command's word pass the tests of the decoder, which makes the command again. -/
theorem decodeEncodeIdentity : Obligations.DecodeEncodeIdentity := fun _ => decode_encode

/-- Settles O2: a word that decodes and the word of its command have the same four fields. -/
theorem encodeDecodeIdentity : Obligations.EncodeDecodeIdentity := fun _ _ => wellFormed_and_encode_of_decode

/-- Settles O3: by whether the word's opcode is assigned; the step takes the word and raises IllegalCommand. -/
theorem illegalWordsExactly : Obligations.IllegalWordsExactly := by
  intro w
  refine ⟨?_, fun e he s rest hhost => (step_of_command hhost).trans (issue_of_error he _)⟩
  match ho : Opcode.ofByte (opField w) with
  | none => exact ⟨fun _ => .inl (Opcode.ofByte_eq_none_iff.1 ho), fun _ => ⟨_, decode_of_unassigned ho⟩⟩
  | some o =>
    have hmem : ¬ opField w ∉ Opcode.all.map Opcode.code := fun h =>
      nomatch (Opcode.ofByte_eq_none_iff.2 h).symm.trans ho
    rw [decode_error_iff ho, Opcode.hasSym_eq_false_iff, Opcode.hasImm_eq_false_iff, Opcode.eq_rdstat_iff,
      registerNumberOk_eq_false_iff, Opcode.code_of_ofByte ho]
    exact (or_iff_right hmem).symm

/-- Settles O4: the decoder computes each of the fifteen answers. -/
theorem specWordsDecode : Obligations.SpecWordsDecode := by
  unfold Obligations.SpecWordsDecode
  and_intros <;> rfl

/-- Settles O18: the word is that of RDSTAT, well formed up to 8 and refused above. -/
theorem rdstatNumberLegal : Obligations.RdstatNumberLegal := fun n =>
  encode_rdstat n ▸ ⟨fun h => decode_encode (registerNumberOk_eq_true_iff.2 h), decode_encode_rdstat_of_gt⟩

/-- Settles O19: no status register has a number above 8. -/
theorem rdstatTermAboveEight : Obligations.RdstatTermAboveEight := by
  intro n s h
  show execRdstat n s = _
  rw [execRdstat, StatusReg.ofNumber_of_gt h]
  rfl

/-! ## The response of a command (30_encoding.md R74, 10_state.md R34) -/

/-- The ways a command ends: a response of code 0, and then only CLRERR may have written `LASTERR`; an error, which leaves
no other effect (60_exceptions.md R205); or a warning on a command that has completed (R206). -/
inductive Completion (i : Instr) (s : State) : State → Prop where
  | respond (u : State) (d : Word) (h : i ≠ .clrerr → u.lasterr = s.lasterr) : Completion i s (u.respond d)
  | error (c : Condition) (h : c.isError = true) : Completion i s (s.deliver c 0#64)
  | warning (c : Condition) (u : State) (d : Word) (hok : c ≠ .ok) (h : c.isError = false) :
    Completion i s (u.deliver c d)

/-- How a command ends, said once. -/
theorem exec_completion {i : Instr} {s t : State} (h : exec i s = .next t) : Completion i s t := by
  cases i with
  | nop | clrall | clrout | rdfreq _ | rdnode _ | rdlen _ | rdcode _ _ | test _ | rdout _ =>
    cases h; exact .respond _ _ fun _ => rfl
  | clrerr => cases h; exact .respond _ _ fun hi => absurd rfl hi
  | feed sym =>
    rcases execFeed_cases h with ⟨_, rfl⟩ | ⟨_, _, rfl⟩ | ⟨_, _, rfl⟩
    · exact .error _ rfl
    · exact .error _ rfl
    · exact .respond _ _ fun _ => rfl
  | setf sym count =>
    rcases execSetf_cases h with ⟨_, rfl⟩ | ⟨_, rfl⟩
    · exact .error _ rfl
    · exact .respond _ _ fun _ => rfl
  | build =>
    rcases execBuild_cases h with ⟨_, rfl⟩ | ⟨_, _, rfl⟩ | ⟨_, _, _, rfl⟩ | ⟨_, _, _, rfl⟩ | ⟨_, _, _, rfl⟩
    · exact .error _ rfl
    · exact .error _ rfl
    · exact .warning _ _ _ nofun rfl
    · exact .warning _ _ _ nofun rfl
    · exact .respond _ _ fun _ => rfl
  | gen =>
    rcases execGen_cases h with ⟨_, rfl⟩ | ⟨_, rfl⟩
    · exact .error _ rfl
    · exact .respond _ _ fun _ => rfl
  | enc sym =>
    rcases execEnc_cases h with ⟨_, rfl⟩ | ⟨_, _, rfl⟩ | ⟨_, _, _, rfl⟩ | ⟨_, _, _, rfl⟩
    · exact .error _ rfl
    · exact .warning _ _ _ nofun rfl
    · exact .error _ rfl
    · exact .respond _ _ fun _ => rfl
  | rdstat n =>
    rcases execRdstat_cases h with ⟨_, _, rfl⟩ | ⟨_, rfl⟩
    · exact .respond _ _ fun _ => rfl
    · exact .error _ rfl

/-- Settles O9: each of the three ways a command ends leaves one response, and writes `LASTERR` as its code says. -/
theorem oneResponsePerCommand : Obligations.OneResponsePerCommand := fun i s t h => by
  cases exec_completion h with
  | respond u d hl => exact ⟨⟨.ok, d⟩, rfl, nofun, fun hne => absurd rfl hne, fun _ => hl⟩
  | error c hc => exact ⟨⟨c, 0#64⟩, rfl, fun _ => rfl, fun _ => rfl, fun hok => by cases hok; cases hc⟩
  | warning c u d hok hc =>
    exact ⟨⟨c, d⟩, rfl, fun he => (nomatch hc.symm.trans he), fun _ => rfl, fun h => absurd h hok⟩

end Sys2Proof.Machine
end

section
/-! PROOFS. BitVectors, Codes and the commands on `OUT` (40_bitvector_code.md): the operations of a BitVector and appending
to a Code (O24), CLROUT (O20), TEST (O21) and RDOUT (O22). -/

namespace Sys2Proof.Machine

/-! ## Growth (40_bitvector_code.md R92) -/

/-- A positive capacity is only ever doubled. -/
theorem growCap_eq_mul_two_pow {cap : Nat} (h : 0 < cap) (fuel r : Nat) : ∃ j, growCap fuel cap r = cap * 2 ^ j := by
  have hlimit : r < cap * 2 ^ r := Nat.lt_two_pow_self.trans_le (Nat.le_mul_of_pos_left _ h)
  obtain ⟨j, _, hj⟩ := growCap_pow (fuel := fuel) (c := cap) (Nat.zero_le r) hlimit
  exact ⟨j, by simpa using hj⟩

/-- A capacity is doubled only while it does not cover the rank. -/
theorem growCap_eq_or_le (fuel cap r : Nat) : growCap fuel cap r = cap ∨ growCap fuel cap r ≤ 2 * r := by
  induction fuel generalizing cap with
  | zero => exact .inl rfl
  | succ n ih =>
    unfold growCap
    split
    · right
      rcases ih (2 * cap) with h | h
      · omega
      · exact h
    · exact .inl rfl

/-! ## Tests after an operation (40_bitvector_code.md R92 to R95) -/

theorem BitVector.test_eq_true_iff {b : BitVector} {r : Nat} :
    b.test r = true ↔ r < b.cap ∧ Memory.bit b.blk r = true := by
  rcases Nat.lt_or_ge r b.cap with h | h
  · rw [BitVector.test_of_lt_cap h, and_iff_right h]
  · simp [BitVector.test_of_cap_le h, Nat.not_lt.2 h]

/-- Every stored bit at or beyond the capacity is 0, so that growth brings in zeros (40_bitvector_code.md R104). -/
def BitVector.ZeroBeyondCap (b : BitVector) : Prop := ∀ x, b.cap ≤ x → Memory.bit b.blk x = false

/-- With zeros beyond the capacity a test is the stored bit, whatever the capacity. -/
theorem BitVector.ZeroBeyondCap.test_eq {b : BitVector} (h : b.ZeroBeyondCap) (q : Nat) :
    b.test q = Memory.bit b.blk q := by
  rcases Nat.lt_or_ge q b.cap with hin | hout
  · exact BitVector.test_of_lt_cap hin
  · rw [BitVector.test_of_cap_le hout, h q hout]

theorem BitVector.ZeroBeyondCap.grow {b : BitVector} (h : b.ZeroBeyondCap) (r : Nat) : (b.grow r).ZeroBeyondCap :=
  fun x hx => h x ((le_growCap ..).trans hx)

/-- Growth changes no test. -/
theorem BitVector.ZeroBeyondCap.test_grow {b : BitVector} (h : b.ZeroBeyondCap) (r q : Nat) :
    (b.grow r).test q = b.test q := by
  rw [(h.grow r).test_eq, h.test_eq, BitVector.grow_blk]

section
variable {b : BitVector} (hcap : 0 < b.cap) (hzero : b.ZeroBeyondCap)
include hcap hzero

/-- Growing for a rank and then storing a bit at that rank alone changes the test of that rank alone: `bv_set` and
`bv_clear` are the two cases. -/
theorem BitVector.test_grow_store {r : Nat} {v : Bool} {blk : Memory}
    (hbit : ∀ q, Memory.bit blk q = if q = r then v else Memory.bit b.blk q) (q : Nat) :
    ({ b.grow r with blk := blk } : BitVector).test q = if q = r then v else b.test q := by
  have hcover : r < (b.grow r).cap := lt_growCap_self hcap
  have hzero' : ({ b.grow r with blk := blk } : BitVector).ZeroBeyondCap := fun x (hx : (b.grow r).cap ≤ x) => by
    rw [hbit, if_neg (by omega)]; exact hzero.grow r x hx
  rw [hzero'.test_eq, hbit, hzero.test_eq]

theorem BitVector.test_set (r q : Nat) : (b.set r).test q = if q = r then true else b.test q :=
  BitVector.test_grow_store hcap hzero (Memory.bit_set _ _) q

theorem BitVector.test_clear (r q : Nat) : (b.clear r).test q = if q = r then false else b.test q :=
  BitVector.test_grow_store hcap hzero (Memory.bit_clear _ _) q

end

/-! ## Appending (40_bitvector_code.md R97) -/

section
variable {c : Code} (hcap : 0 < c.bv.cap) (hzero : c.bv.ZeroBeyondCap)
include hcap hzero

/-- The appended bit is at rank `len`; every other rank tests as before. -/
theorem Code.test_append (bit : Bool) (q : Nat) :
    (c.append bit).bv.test q = if q = c.len then bit else c.bv.test q := by
  cases bit with
  | true => exact BitVector.test_set hcap hzero _ q
  | false => exact BitVector.test_clear hcap hzero _ q

/-- Appending renders the bit at the end, also when the length is beyond the capacity. -/
theorem Code.render_append_of_zeroBeyondCap (bit : Bool) : (c.append bit).render = c.render ++ [bit] := by
  have hold : (List.range c.len).map (c.append bit).bv.test = (List.range c.len).map c.bv.test :=
    List.map_congr_left fun q hq => by
      rw [Code.test_append hcap hzero, if_neg (List.mem_range.1 hq).ne]
  have hnew : (c.append bit).bv.test c.len = bit := by rw [Code.test_append hcap hzero, if_pos rfl]
  rw [Code.render, BitVector.render, Code.append_len, List.range_succ, List.map_append, hold, List.map_singleton, hnew]
  rfl

end

/-- Settles O24: growth is read off the doubling loop, and each operation off its tests at every rank. -/
theorem bitVectorOperations : Obligations.BitVectorOperations := by
  refine ⟨fun b r q hcap hzero => ?_, fun c bit hcap hzero => ⟨rfl, Code.render_append_of_zeroBeyondCap hcap hzero bit⟩⟩
  refine ⟨lt_growCap_self hcap, growCap_eq_mul_two_pow hcap _ r, growCap_eq_or_le _ _ r, rfl, rfl, ?_, ?_,
    BitVector.ZeroBeyondCap.test_grow hzero r q, fun hq => ⟨?_, ?_⟩⟩
  · rw [BitVector.test_set hcap hzero, if_pos rfl]
  · rw [BitVector.test_clear hcap hzero, if_pos rfl]
  · rw [BitVector.test_set hcap hzero, if_neg hq]
  · rw [BitVector.test_clear hcap hzero, if_neg hq]

/-! ## The commands on `OUT` (40_bitvector_code.md R101 to R103) -/

/-- Settles O20: the word is that of CLROUT, and the fresh `OUT` lists no block. -/
theorem clroutEmptiesOut : Obligations.ClroutEmptiesOut :=
  ⟨decode_encode (i := .clrout) rfl, fun s => ⟨s.clearOut.respond 0#64, rfl, rfl, fun _ => Memory.read_nil⟩⟩

/-- A word with an immediate operand alone: the opcode, 24 zero bits and the immediate (30_encoding.md R71, R72). -/
theorem packWord_imm (op : BitVec 8) (imm : Imm) : packWord op 0 0 imm = op ++ (0#24 ++ imm) := by
  have h : (0#8 ++ (0#16 ++ imm) : BitVec 56) = 0#24 ++ imm := BitVec.append_assoc' ..
  exact congrArg (op ++ ·) h

theorem encode_test (r : Imm) : encode (.test r) = 0x45#8 ++ (0#24 ++ r) := packWord_imm _ r

theorem encode_rdout (b : Imm) : encode (.rdout b) = 0x46#8 ++ (0#24 ++ b) := packWord_imm _ b

theorem zext64_ofBool (b : Bool) : zext64 (BitVec.ofBool b) = if b = true then 1#64 else 0#64 := by cases b <;> rfl

/-- A rank of a good bit store at or beyond `OUT.len` tests 0. -/
theorem State.OutWf.test_of_len_le {s : State} (h : s.OutWf) {r : Nat} (hr : s.outLen.toNat ≤ r) :
    s.outCode.bv.test r = false :=
  Bool.eq_false_iff.2 fun ht => Bool.eq_false_iff.1 (h.tail_zero r hr) (BitVector.test_eq_true_iff.1 ht).2

/-- Settles O21: TEST answers the test of its rank, which is 1 exactly when the rank is inside the capacity and its bit is
set. -/
theorem testReturnsBit : Obligations.TestReturnsBit := by
  intro r s
  have hexec := exec_read (i := .test r) rfl rfl s
  rw [State.readData] at hexec
  refine ⟨encode_test r ▸ decode_encode rfl, ?_, fun hout hr => ?_⟩
  · have hiff : s.outCode.bv.test r.toNat = true ↔
        r.toNat < s.outCap.toNat ∧ (Memory.read s.outBlk (r.toNat / 8)).getLsbD (7 - r.toNat % 8) = true := by
      rw [BitVector.test_eq_true_iff, Memory.bit_eq]; rfl
    simpa only [zext64_ofBool, hiff] using hexec
  · rw [hexec, hout.test_of_len_le hr]; rfl

/-- Settles O22: RDOUT answers the block of its index, and each bit of it is the test of a rank. -/
theorem rdoutReturnsBlock : Obligations.RdoutReturnsBlock := by
  intro b s
  refine ⟨encode_rdout b ▸ decode_encode rfl, zext64 (s.outBlock b.toNat), exec_read (i := .rdout b) rfl rfl s, ?_,
    fun hout j hj hr => ?_⟩
  · split
    next hin => rw [State.outBlock_of_lt_cap hin, zext64]
    next hout => rw [State.outBlock_of_cap_le (Nat.not_lt.1 hout)]; rfl
  · rw [zext64_getLsbD _ (by omega), hout.outBlock_getLsbD _ hj, hout.test_of_len_le hr]

end Sys2Proof.Machine
end

section
/-! PROOFS. The frequency table (41_frequency.md): FEED (O25), SETF (O26) and RDFREQ (O27). -/

namespace Sys2Proof.Machine

/-! ## The words -/

/-- A word with a symbol operand alone: the opcode, the symbol and 48 zero bits (30_encoding.md R71, R72). -/
theorem packWord_sym (op : BitVec 8) (sym : Symbol) : packWord op sym 0 0 = op ++ (sym ++ 0#48) := rfl

theorem encode_feed (c : Symbol) : encode (.feed c) = 0x10#8 ++ (c ++ 0#48) := packWord_sym _ c

theorem encode_setf (c : Symbol) (n : Imm) : encode (.setf c n) = 0x11#8 ++ (c ++ (0#16 ++ n)) := rfl

theorem encode_rdfreq (c : Symbol) : encode (.rdfreq c) = 0x41#8 ++ (c ++ 0#48) := packWord_sym _ c

/-! ## Writing one count (10_state.md R35) -/

theorem State.freqAt_setFreq_same (s : State) (sym : Symbol) (v : Weight) : (s.setFreq sym v).freqAt sym = v := by
  rw [State.freqAt_setFreq, if_pos rfl]

theorem State.freqAt_setFreq_other (s : State) {sym c : Symbol} (h : c ≠ sym) (v : Weight) :
    (s.setFreq sym v).freqAt c = s.freqAt c := by
  rw [State.freqAt_setFreq, if_neg h]

/-- A count below `WMAX` rises by one without wrapping (41_frequency.md R110). -/
theorem weight_toNat_add_one {w : Weight} (h : w.toNat < 4294967295) : (w + 1#32).toNat = w.toNat + 1 :=
  BitVec.toNat_add_of_lt (Nat.succ_lt_succ h)

/-! ## FEED and SETF by phase and count (41_frequency.md R110, R111) -/

theorem execFeed_of_ne {s : State} (h : s.phase ≠ .collect) (c : Symbol) :
    execFeed c s = raiseError .phaseError s := inPhase_of_ne h

theorem execFeed_of_full {c : Symbol} {s : State} (hp : s.phase = .collect) (hw : (s.freqAt c).toNat = 4294967295) :
    execFeed c s = raiseError .weightOverflow s := (inPhase_of_eq hp).trans (if_pos hw)

theorem execFeed_of_lt {c : Symbol} {s : State} (hp : s.phase = .collect) (hw : (s.freqAt c).toNat < 4294967295) :
    execFeed c s = .next ((s.setFreq c (s.freqAt c + 1#32)).respond 0#64) :=
  (inPhase_of_eq hp).trans (if_neg hw.ne)

theorem execSetf_of_ne {s : State} (h : s.phase ≠ .collect) (c : Symbol) (n : Imm) :
    execSetf c n s = raiseError .phaseError s := inPhase_of_ne h

theorem execSetf_of_collect {s : State} (h : s.phase = .collect) (c : Symbol) (n : Imm) :
    execSetf c n s = .next ((s.setFreq c n).respond 0#64) := inPhase_of_eq h

/-! ## The commands -/

/-- Settles O25: by phase and by whether the count is `WMAX`; below it the sum does not wrap, and one count is written. -/
theorem feedCounts : Obligations.FeedCounts := by
  intro c s
  refine ⟨encode_feed c ▸ decode_encode rfl, fun hp => execFeed_of_ne hp c, execFeed_of_full, fun hp hw => ?_⟩
  refine ⟨_, execFeed_of_lt hp hw, rfl, ?_, fun d hd => ?_⟩
  · rw [State.freqAt_respond, State.freqAt_setFreq_same, weight_toNat_add_one hw]
  · rw [State.freqAt_respond, State.freqAt_setFreq_other s hd]

/-- Settles O26: by phase; in COLLECT one count is written. -/
theorem setfWrites : Obligations.SetfWrites := by
  intro c n s
  refine ⟨encode_setf c n ▸ decode_encode rfl, fun hp => execSetf_of_ne hp c n, fun hp => ?_⟩
  refine ⟨_, execSetf_of_collect hp c n, rfl, ?_, fun d hd => ?_⟩
  · rw [State.freqAt_respond, State.freqAt_setFreq_same]
  · rw [State.freqAt_respond, State.freqAt_setFreq_other s hd]

/-- Settles O27: RDFREQ is a read whose data is the count of its symbol. -/
theorem rdfreqReads : Obligations.RdfreqReads := fun c s =>
  ⟨encode_rdfreq c ▸ decode_encode rfl, exec_read (i := .rdfreq c) rfl rfl s⟩

end Sys2Proof.Machine
end

section
/-! PROOFS. The tree builder (42_treebuilder.md): extraction from `PQ` (O32), BUILD by the number k of present symbols
(O28, O29, O30, O31), the tree it leaves (O33), and RDNODE (O34). -/

namespace Sys2Proof.Machine

/-! ## Extraction (42_treebuilder.md R122) -/

/-- Settles O32: the element extracted precedes every other, and filtering it out of a list without repeats removes it
alone. -/
theorem extractMinIsLeast : Obligations.ExtractMinIsLeast := by
  intro node pq hnodup hne
  obtain ⟨i, hextract, hmem, hmin⟩ := pqExtractMin_spec node hne
  have hrest : ∀ j, j ∈ pq.filter (fun j => j != i) ↔ j ∈ pq ∧ j ≠ i := fun j => by
    rw [List.mem_filter, bne_iff_ne]
  refine ⟨i, _, hextract, hmem, hrest, (perm_filter_ne hnodup hmem).length_eq.symm, fun j hj => ?_⟩
  obtain ⟨hjmem, hji⟩ := (hrest j).1 hj
  exact precedes_iff.1 (hmin j hjmem hji)

/-! ## What a build leaves of the node memory (42_treebuilder.md R123, R124) -/

/-- A later build context has written no node but those it has allocated since. -/
structure BuildCtx.Extends (c d : BuildCtx) : Prop where
  next_le : c.next ≤ d.next
  read : ∀ i, d.next ≤ i → nodeRead d.node i = nodeRead c.node i
  node_eq : d.next = c.next → d.node = c.node

theorem BuildCtx.Extends.refl (c : BuildCtx) : c.Extends c := ⟨Nat.le_refl _, fun _ _ => rfl, fun _ => rfl⟩

theorem BuildCtx.Extends.trans {c d e : BuildCtx} (hcd : c.Extends d) (hde : d.Extends e) : c.Extends e where
  next_le := hcd.next_le.trans hde.next_le
  read i hi := (hde.read i hi).trans (hcd.read i (hde.next_le.trans hi))
  node_eq h := by
    have hcd_le := hcd.next_le
    have hde_le := hde.next_le
    exact (hde.node_eq (by omega)).trans (hcd.node_eq (by omega))

/-- Writing the next free node, whatever becomes of `PQ`. -/
theorem BuildCtx.extends_alloc (c : BuildCtx) (v : TreeNode) (pq : List Nat) :
    c.Extends { node := nodeWrite c.node c.next v, pq := pq, next := c.next + 1 } where
  next_le := Nat.le_succ _
  read i hi := by
    have hne : i ≠ c.next := (Nat.lt_of_succ_le hi).ne'
    rw [nodeRead_nodeWrite, if_neg hne]
  node_eq h := absurd h (Nat.succ_ne_self _)

theorem addLeaf_extends (s : State) (c : BuildCtx) (sym : Symbol) : c.Extends (addLeaf s c sym) := by
  unfold addLeaf
  split
  · exact c.extends_alloc ..
  · exact .refl c

theorem foldl_addLeaf_extends (s : State) (l : List Symbol) (c : BuildCtx) : c.Extends (l.foldl (addLeaf s) c) := by
  induction l generalizing c with
  | nil => exact .refl c
  | cons sym l ih => exact (addLeaf_extends s c sym).trans (ih _)

theorem mergeStep_extends (c : BuildCtx) : c.Extends (mergeStep c) := by
  unfold mergeStep
  split
  · exact .refl c
  · split
    · exact .refl c
    · exact c.extends_alloc ..

theorem mergeLoop_extends (fuel : Nat) (c : BuildCtx) : c.Extends (mergeLoop fuel c) := by
  induction fuel generalizing c with
  | zero => exact .refl c
  | succ n ih =>
    unfold mergeLoop
    split
    · exact (mergeStep_extends c).trans (ih _)
    · exact .refl c

theorem State.merged_extends (s : State) : BuildCtx.Extends { node := s.node, pq := [], next := 0 } s.merged :=
  (foldl_addLeaf_extends s allSymbols _).trans (mergeLoop_extends _ _)

/-- BUILD writes no node beyond the 2k - 1 of the tree. -/
theorem State.nodeAt_buildTree_of_le {s : State} (ht : s.freqTotal ≤ Config.wmax) {i : Nat}
    (hi : 2 * s.presentSymbols.length - 1 ≤ i) : s.buildTree.nodeAt i = s.nodeAt i := by
  obtain ⟨hinv, hone⟩ := State.mergeInv_merged ht
  exact s.merged_extends.read i ((hinv.finished hone).1.trans_le hi)

/-- BUILD of an empty FrequencyTable writes no node. -/
theorem State.node_buildTree_of_none {s : State} (ht : s.freqTotal ≤ Config.wmax) (hk : s.presentSymbols.length = 0) :
    s.buildTree.node = s.node := by
  obtain ⟨hinv, hone⟩ := State.mergeInv_merged ht
  have hnext := (hinv.finished hone).1
  rw [hk] at hnext
  exact s.merged_extends.node_eq hnext

/-- Node i of the tree is the leaf of the i-th present symbol. -/
theorem State.nodeAt_buildTree_of_present {s : State} (ht : s.freqTotal ≤ Config.wmax) {i : Nat} {c : Symbol}
    (hc : s.presentSymbols[i]? = some c) : s.buildTree.nodeAt i = .leaf c (s.freqAt c) := by
  obtain ⟨hi, _⟩ := List.getElem?_eq_some_iff.1 hc
  obtain ⟨d, hd, hnode⟩ := (State.buildTree_treeOk ht).leaves i (by rwa [State.buildTree_leafCount])
  have hd' : s.presentSymbols[i]? = some d := hd
  obtain rfl : c = d := Option.some.inj (hc.symm.trans hd')
  exact hnode

/-! ## The registers a build leaves (42_treebuilder.md R125) -/

/-- BUILD writes the node memory, the tree's registers and the phase, and leaves `PQ` empty; all but the node memory is
fixed by k. -/
theorem State.buildTree_registers {s : State} (ht : s.freqTotal ≤ Config.wmax) :
    s.buildTree = { s with
      node := s.buildTree.node, rootv := decide (1 ≤ s.presentSymbols.length)
      rootidx := BitVec.ofNat 9 (2 * s.presentSymbols.length - 2)
      nnodes := BitVec.ofNat 10 (2 * s.presentSymbols.length - 1), nsyms := BitVec.ofNat 9 s.presentSymbols.length
      empty := decide (s.presentSymbols.length = 0), degen := decide (s.presentSymbols.length = 1)
      phase := .built, pq := [] } := by
  obtain ⟨hinv, hone⟩ := State.mergeInv_merged ht
  have hnext : (mergeLoop Config.mergeMax (createLeaves s)).next = _ := (hinv.finished hone).1
  obtain ⟨hrootv, hrootidx, hpq⟩ := State.buildTree_root ht
  have hidx := congrArg (BitVec.ofNat 9) hrootidx
  rw [BitVec.ofNat_toNat, BitVec.setWidth_eq] at hidx
  rw [← hrootv, ← hidx, ← hpq, ← hnext, ← createLeaves_next]
  rfl

theorem State.nodeAt_deliver (s : State) (c : Condition) (d : Word) (i : Nat) :
    (s.deliver c d).nodeAt i = s.nodeAt i := by
  rw [State.nodeAt, State.deliver_node]; rfl

/-! ## BUILD by the number of present symbols (42_treebuilder.md R125 to R127) -/

/-- T with the symbols numbered from 0 to 255 (42_treebuilder.md R130). -/
theorem State.freqTotal_eq_sum_range (s : State) :
    s.freqTotal = ((List.range 256).map (fun c => (s.freqAt (BitVec.ofNat 8 c)).toNat)).sum := by
  rw [State.freqTotal, allSymbols, List.map_map]; rfl

section
variable {s : State} (hp : s.phase = .collect)
include hp

theorem execBuild_of_lt (ht : Config.wmax < s.freqTotal) : execBuild s = raiseError .weightOverflow s :=
  (inPhase_of_eq hp).trans (if_pos ht)

variable (ht : s.freqTotal ≤ Config.wmax)
include ht

theorem execBuild_of_none (hk : s.presentSymbols.length = 0) :
    execBuild s = raiseWarning .emptyCorpus 0#64 s.buildTree := by
  rw [← createLeaves_next] at hk
  exact (inPhase_of_eq hp).trans ((if_neg ht.not_gt).trans (if_pos hk))

theorem execBuild_of_one (hk : s.presentSymbols.length = 1) :
    execBuild s = raiseWarning .degenerateAlphabet 1#64 s.buildTree := by
  rw [← createLeaves_next] at hk
  exact (inPhase_of_eq hp).trans ((if_neg ht.not_gt).trans ((if_neg (by omega)).trans (if_pos hk)))

theorem execBuild_of_two_le (hk : 2 ≤ s.presentSymbols.length) :
    execBuild s = .next (s.buildTree.respond (countData s.presentSymbols.length)) := by
  rw [← createLeaves_next] at hk ⊢
  exact (inPhase_of_eq hp).trans ((if_neg ht.not_gt).trans ((if_neg (by omega)).trans (if_neg (by omega))))

/-- A BUILD whose total fits answers on the tree it built. -/
theorem execBuild_answered : ∃ t, execBuild s = .next t ∧ Answered s.buildTree t := by
  rcases Nat.lt_or_ge s.presentSymbols.length 2 with hlt | hge
  · rcases Nat.le_one_iff_eq_zero_or_eq_one.1 (Nat.le_of_lt_succ hlt) with hk | hk
    · exact ⟨_, execBuild_of_none hp ht hk, .deliver ..⟩
    · exact ⟨_, execBuild_of_one hp ht hk, .deliver ..⟩
  · exact ⟨_, execBuild_of_two_le hp ht hge, .respond _⟩

end

/-- Settles O28: the total is the sum over the 256 symbols, and WeightOverflow is delivered on the state as it was. -/
theorem buildOverflow : Obligations.BuildOverflow := fun s hp ht =>
  execBuild_of_lt hp (s.freqTotal_eq_sum_range ▸ ht)

/-- Settles O33: BUILD answers on the tree of the merges, and an answer writes no part of it. -/
theorem buildMakesTree : Obligations.BuildMakesTree := fun s hp ht => by
  obtain ⟨t, hexec, hanswered⟩ := execBuild_answered hp ht
  refine ⟨t, hexec, (State.buildTree_treeOk ht).of_treePart ?_⟩
  rw [hanswered.sameEngine]; rfl

/-- Settles O31: the registers, leaves, root weight and unwritten nodes of the tree that BUILD answers on. -/
theorem buildCompletes : Obligations.BuildCompletes := by
  intro s hp ht hk
  refine ⟨_, execBuild_of_two_le hp ht hk, ?_,
    fun i c hc => (State.nodeAt_respond ..).trans (State.nodeAt_buildTree_of_present ht hc), ?_,
    fun i hi => (State.nodeAt_respond ..).trans (State.nodeAt_buildTree_of_le ht hi)⟩
  · have hregs := State.buildTree_registers ht
    rw [decide_eq_true (show 1 ≤ s.presentSymbols.length by omega),
      decide_eq_false (show ¬ s.presentSymbols.length = 0 by omega),
      decide_eq_false (show ¬ s.presentSymbols.length = 1 by omega)] at hregs
    rw [hregs]; rfl
  · have htree := State.buildTree_treeOk ht
    have hcount := State.buildTree_leafCount s
    have hroot := htree.rootWeight (by omega)
    rw [htree.rootidx, hcount] at hroot
    rw [State.nodeAt_respond, hroot]; rfl

/-! ## One distinct symbol (42_treebuilder.md R127) -/

theorem presentSymbols_eq_singleton {s : State} {c : Symbol} (hc : s.freqAt c ≠ 0#32)
    (hother : ∀ d, d ≠ c → s.freqAt d = 0#32) : s.presentSymbols = [c] := by
  refine List.perm_singleton.1 ((List.perm_ext_iff_of_nodup (nodup_presentSymbols s) (List.nodup_singleton c)).2 ?_)
  intro d
  rw [mem_presentSymbols, List.mem_singleton]
  exact ⟨fun hd => by_contra fun hne => hd (hother d hne), fun hd => hd ▸ hc⟩

/-- Settles O30: the one present symbol's count fits, and k = 1 fixes the registers and the one node written. -/
theorem buildOneSymbol : Obligations.BuildOneSymbol := by
  intro s c hp hc hother
  have hpresent := presentSymbols_eq_singleton hc hother
  have hk : s.presentSymbols.length = 1 := congrArg List.length hpresent
  have ht : s.freqTotal ≤ Config.wmax := by
    rw [freqTotal_eq, hpresent, List.map_singleton, List.sum_singleton]
    exact Nat.le_of_lt_succ (s.freqAt c).isLt
  refine ⟨_, execBuild_of_one hp ht hk, ?_,
    (State.nodeAt_deliver ..).trans (State.nodeAt_buildTree_of_present ht (by rw [hpresent]; rfl)),
    fun i hi => (State.nodeAt_deliver ..).trans (State.nodeAt_buildTree_of_le ht (by omega))⟩
  have hregs := State.buildTree_registers ht
  rw [hk] at hregs
  rw [hregs]; rfl

/-! ## The empty FrequencyTable (42_treebuilder.md R126) -/

theorem presentSymbols_eq_nil {s : State} (h : ∀ c, s.freqAt c = 0#32) : s.presentSymbols = [] :=
  List.eq_nil_iff_forall_not_mem.2 fun c hc => mem_presentSymbols.1 hc (h c)

/-- GEN without a root leaves no symbol with a code (43_codegen.md R144). -/
theorem State.noCodes_genTable_of_no_root {s : State} (h : s.rootv = false) : s.genTable.NoCodes := by
  intro sym
  have hct : s.genTable.ct = invalidateCt s.ct := by rw [State.genTable_ct, State.traverse_of_no_root h]
  rw [State.ctAt, hct]
  exact ctRead_invalidateCt_valid s.ct sym

theorem execGen_of_no_root {s : State} (hp : s.phase = .built) (h : s.rootv = false) :
    ∃ u, execGen s = .next u ∧ u.phase = .ready ∧ u.NoCodes := by
  refine ⟨_, inPhase_of_eq hp, rfl, fun sym => ?_⟩
  rw [State.ctAt_respond]
  exact State.noCodes_genTable_of_no_root h sym

/-- ENC of a symbol without a code only delivers UnknownSymbol (44_encoder.md R156). -/
theorem execEnc_of_not_valid {s : State} {sym : Symbol} (hp : s.phase = .ready) (hv : (s.ctAt sym).valid = false) :
    execEnc sym s = .next (s.deliver .unknownSymbol 0#64) := (inPhase_of_eq hp).trans (if_pos hv)

/-- Settles O29: k = 0 fixes the registers and leaves no root, so GEN gives no code, and ENC of any symbol only delivers
UnknownSymbol. -/
theorem buildEmptyTable : Obligations.BuildEmptyTable := by
  intro s hp hzero
  have hpresent := presentSymbols_eq_nil hzero
  have hk : s.presentSymbols.length = 0 := congrArg List.length hpresent
  have ht : s.freqTotal ≤ Config.wmax := by rw [freqTotal_eq, hpresent]; exact Nat.zero_le _
  have hbuild : exec .build s = .next (s.buildTree.deliver .emptyCorpus 0#64) := execBuild_of_none hp ht hk
  have hregs := State.buildTree_registers ht
  rw [hk, State.node_buildTree_of_none ht hk] at hregs
  have hroot : (s.buildTree.deliver .emptyCorpus 0#64).rootv = false := by rw [hregs]; rfl
  obtain ⟨u, hgen, hready, hnone⟩ := execGen_of_no_root rfl hroot
  have hconstruct : execAll construct s = .next u := (execAll_cons_of_next hbuild).trans (execAll_cons_of_next hgen)
  refine ⟨hbuild.trans (by rw [hregs]; rfl), u, hconstruct, hready, hnone, fun c => ?_⟩
  exact ⟨_, execEnc_of_not_valid hready (hnone c), rfl, rfl, rfl, rfl⟩

/-! ## RDNODE (42_treebuilder.md R129) -/

theorem encode_rdnode (n : Imm) : encode (.rdnode n) = 0x42#8 ++ (0#24 ++ n) := packWord_imm _ n

theorem State.nodeData_of_lt_nnodes {s : State} {i : Nat} (h : i < s.nnodes.toNat) :
    s.nodeData i = (s.nodeAt i).data := if_neg (Nat.not_le.2 h)

/-- The fields of RDNODE's data, from the low end. -/
theorem TreeNode.data_fields (n : TreeNode) :
    n.data.extractLsb' 0 32 = n.weight ∧ n.data.extractLsb' 32 9 = n.left ∧ n.data.extractLsb' 41 9 = n.right ∧
      n.data.extractLsb' 50 8 = n.sym ∧ n.data.extractLsb' 58 4 = 0#4 ∧ n.data.getLsbD 62 = n.tag ∧
      n.data.getLsbD 63 = true := by
  unfold TreeNode.data
  refine ⟨?weight, ?left, ?right, ?sym, ?zero, ?tag, ?valid⟩
  case tag | valid => simp only [BitVec.getLsbD_append]; simp
  all_goals simp (disch := decide) only [BitVec.extractLsb'_append_eq_of_add_le, BitVec.extractLsb'_append_eq_left,
    BitVec.extractLsb'_eq_self]

/-- In COLLECT no node of a good state is allocated; a tree has at most 511 (10_state.md R29). -/
theorem State.Inv.nnodes_le {s : State} (h : s.Inv) :
    s.nnodes.toNat ≤ 511 ∧ (s.phase = .collect → s.nnodes.toNat = 0) := by
  by_cases hp : s.phase = .collect
  · rw [(h.noTree hp).nnodes]; exact ⟨by decide, fun _ => rfl⟩
  · have hnnodes := (h.tree hp).nnodes
    have hk := (h.tree hp).leafCount_le
    exact ⟨by omega, fun hc => absurd hc hp⟩

/-- Settles O34: RDNODE is a read, whose data is the packed record below `NNODES` and 0 from there on. -/
theorem rdnodeFields : Obligations.RdnodeFields := by
  intro n s
  have hexec : exec (.rdnode n) s = .next { s with resp := answer (s.nodeData n.toNat) } := exec_read rfl rfl s
  have hzero (h : s.nnodes.toNat ≤ n.toNat) : exec (.rdnode n) s = .next { s with resp := answer 0#64 } := by
    rw [hexec, State.nodeData_of_nnodes_le h]
  refine ⟨encode_rdnode n ▸ decode_encode rfl, hzero, fun h => ⟨_, hexec, ?_⟩, fun hinv hout => hzero ?_⟩
  · rw [State.nodeData_of_lt_nnodes h]
    exact (s.nodeAt n.toNat).data_fields
  · obtain ⟨hmax, hcollect⟩ := hinv.nnodes_le
    rcases hout with hp | hn
    · rw [hcollect hp]; exact Nat.zero_le _
    · exact hmax.trans hn

end Sys2Proof.Machine
end

section
/-! PROOFS. The code generator (43_codegen.md): GEN without a root (O35) and with a leaf root (O36), RDLEN (O38) and RDCODE
(O39). -/

namespace Sys2Proof.Machine

/-! ## GEN (43_codegen.md R142 to R144) -/

theorem execGen_of_built {s : State} (hp : s.phase = .built) :
    execGen s = .next (s.genTable.respond (countData s.traverse.cnt)) := inPhase_of_eq hp

/-- GEN whose traversal leaves `BFSQ` as it was writes `CT`, `PHASE` and the response only, and answers the number of entries
written. -/
theorem execGen_writes {s : State} (hp : s.phase = .built) (hq : s.traverse.bfsq = s.bfsq) :
    ∃ t, exec .gen s = .next t ∧
      t = { s with ct := t.ct, phase := .ready, resp := answer (countData s.traverse.cnt) } ∧
      ∀ c, t.ctAt c = s.genTable.ctAt c :=
  ⟨s.genTable.respond (countData s.traverse.cnt), execGen_of_built hp, by rw [respond_eq, State.genTable, hq],
    State.ctAt_respond _ _⟩

/-- Settles O35: without a root the traversal is empty and only invalidates. -/
theorem genWithoutRoot : Obligations.GenWithoutRoot := by
  intro s hp hr hq
  have htraverse := State.traverse_of_no_root hr
  obtain ⟨t, hexec, hframe, hct⟩ := execGen_writes hp (by rw [htraverse, hq])
  rw [htraverse] at hframe
  exact ⟨t, hexec, hframe, fun c => by rw [hct]; exact State.genTable_noCodes hr c⟩

/-- The record of the one-bit Code "0" (43_codegen.md R143): bit 0 at rank 0 leaves its blocks zero. -/
theorem toEntry_append_false_empty :
    (Code.empty.append false).toEntry = { valid := true, len := 1#9, blk := [] } := by decide

/-- Settles O36: a leaf root's traversal writes one record, that of its symbol, over a table with none valid. -/
theorem genLeafRoot : Obligations.GenLeafRoot := by
  intro s c w hp hr hn hq
  have htraverse := State.traverse_of_leaf hr hn
  obtain ⟨t, hexec, hframe, hct⟩ := execGen_writes hp (by rw [htraverse, hq])
  rw [htraverse] at hframe
  have hentry : t.ctAt c = { valid := true, len := 1#9, blk := [] } := by
    rw [hct, State.genTable_ctAt_of_leaf hr hn, if_pos rfl, toEntry_append_false_empty]
  have hother (d : Symbol) (hd : d ≠ c) : (t.ctAt d).valid = false := by
    rw [hct]; exact Bool.eq_false_iff.2 fun hv => hd ((State.genTable_valid_of_leaf hr hn d).1 hv)
  refine ⟨t, hexec, hframe, ?_, ?_, ?_, ?_, hother⟩
  · rw [hentry]
  · rw [hentry]
  · rw [hentry]; exact Memory.read_nil
  · rw [State.codeBits, hentry]; decide

/-! ## RDLEN (43_codegen.md R146) -/

theorem encode_rdlen (c : Symbol) : encode (.rdlen c) = 0x43#8 ++ (c ++ 0#48) := packWord_sym _ c

/-- The fields of RDLEN's data for a valid entry, from the low end. -/
theorem CodeEntry.lenData_fields {e : CodeEntry} (h : e.valid = true) :
    e.lenData.extractLsb' 0 9 = e.len ∧ e.lenData.extractLsb' 9 22 = 0#22 ∧ e.lenData.getLsbD 31 = true ∧
      e.lenData.extractLsb' 32 32 = 0#32 := by
  rw [CodeEntry.lenData, if_pos h]
  refine ⟨?len, ?zero, ?valid, ?high⟩
  case valid => simp only [BitVec.getLsbD_append]; simp
  all_goals simp (disch := decide) only [BitVec.extractLsb'_append_eq_of_add_le, BitVec.extractLsb'_append_eq_left,
    BitVec.extractLsb'_eq_self]

/-- Settles O38: RDLEN is a read, whose data is the packed entry when it is valid and 0 when it is not, as every entry is
before READY. -/
theorem rdlenReads : Obligations.RdlenReads := by
  intro c s
  have hexec : exec (.rdlen c) s = .next { s with resp := answer (s.ctAt c).lenData } := exec_read rfl rfl s
  have hzero (h : (s.ctAt c).valid = false) : exec (.rdlen c) s = .next { s with resp := answer 0#64 } := by
    rw [hexec, CodeEntry.lenData_of_not_valid h]
  exact ⟨encode_rdlen c ▸ decode_encode rfl, hzero, fun h => ⟨_, hexec, CodeEntry.lenData_fields h⟩,
    fun hinv hp => hzero (hinv.noCodes hp c)⟩

/-! ## RDCODE (43_codegen.md R147) -/

theorem encode_rdcode (c : Symbol) (b : Imm) : encode (.rdcode c b) = 0x44#8 ++ (c ++ (0#16 ++ b)) := rfl

theorem CodeEntry.block_inside {e : CodeEntry} {b : Nat} (hv : e.valid = true) (hb : b < 32) :
    e.block b = Memory.read e.blk b :=
  if_neg (not_or.2 ⟨Bool.not_eq_false _ ▸ hv, Nat.not_le.2 hb⟩)

/-- Bit 7 - j of a block of a valid entry is the bit at rank 8b + j. -/
theorem CodeEntry.block_getLsbD {e : CodeEntry} {b j : Nat} (hv : e.valid = true) (hb : b < 32) (hj : j < 8) :
    (e.block b).getLsbD (7 - j) = Memory.bit e.blk (8 * b + j) := by
  have hblock : (8 * b + j) / 8 = b := by omega
  have hbit : (8 * b + j) % 8 = j := by omega
  rw [CodeEntry.block_inside hv hb, Memory.bit_eq, hblock, hbit]

theorem CodeEntry.bits_getElem? {e : CodeEntry} {r : Nat} (hr : r < e.len.toNat) :
    e.bits[r]? = some (Memory.bit e.blk r) := by
  rw [CodeEntry.bits, List.getElem?_map, List.getElem?_range hr, Option.map_some]

/-- A good state has codes in phase READY only (43_codegen.md R146). -/
theorem State.Inv.ready_of_valid {s : State} (h : s.Inv) {c : Symbol} (hv : (s.ctAt c).valid = true) :
    s.phase = .ready := by_contra fun hp => Bool.eq_false_iff.1 (h.noCodes hp c) hv

theorem State.Inv.entryOk {s : State} (h : s.Inv) {c : Symbol} (hv : (s.ctAt c).valid = true) : s.EntryOk c :=
  (h.codes (h.ready_of_valid hv)).entries c hv

/-- A code of a good state ends inside its record of 256 bits (10_state.md R38). -/
theorem State.Inv.len_le {s : State} (h : s.Inv) {c : Symbol} (hv : (s.ctAt c).valid = true) :
    (s.ctAt c).len.toNat ≤ 256 := by
  have hlen := (h.entryOk hv).len_le
  have hk : s.leafCount ≤ 256 := (h.tree (by rw [h.ready_of_valid hv]; decide)).leafCount_le
  omega

/-- Settles O39: RDCODE is a read, whose data is the block of a valid entry and 0 otherwise; the bits of a block at or beyond
`len` are 0, and those below it lie inside the record and are the code's. -/
theorem rdcodeReads : Obligations.RdcodeReads := by
  intro c b s
  have hexec : exec (.rdcode c b) s = .next { s with resp := answer (zext64 ((s.ctAt c).block b.toNat)) } :=
    exec_read rfl rfl s
  refine ⟨encode_rdcode c b ▸ decode_encode rfl, fun hout => ?_, fun hv hb => ?_, fun hinv => ⟨_, hexec, fun j hj => ?_⟩⟩
  · rw [hexec, CodeEntry.block_outside hout]; rfl
  · rw [hexec, CodeEntry.block_inside hv hb, zext64]
  · rw [zext64_getLsbD _ (by omega)]
    refine ⟨fun hbeyond => ?_, fun hv hbelow => ?_⟩
    · by_cases hout : (s.ctAt c).valid = false ∨ 32 ≤ b.toNat
      · rw [CodeEntry.block_outside hout, BitVec.getLsbD_zero]
      · obtain ⟨hv, hb⟩ : (s.ctAt c).valid = true ∧ b.toNat < 32 := by simpa using hout
        rw [CodeEntry.block_getLsbD hv hb hj]
        have hrank : 8 * b.toNat + j < 256 := by omega
        exact (hinv.entryOk hv).tail_zero _ hrank hbeyond
    · have hlen := hinv.len_le hv
      rw [CodeEntry.block_getLsbD hv (by omega) hj, State.codeBits, CodeEntry.bits_getElem? hbelow]

end Sys2Proof.Machine
end

section
/-! PROOFS. The encoder (44_encoder.md): ENC of a code that fits (O40), of a symbol without a code (O41) and of a code that
does not fit (O42), and a sequence of ENC (O43). -/

namespace Sys2Proof.Machine

/-! ## Appending many bits (40_bitvector_code.md R92, R97) -/

/-- Appending inside the capacity leaves the capacity as it is. -/
theorem Code.appendAll_cap_of_le {c : Code} {bits : List Bool} (h : c.len + bits.length ≤ c.bv.cap) :
    (c.appendAll bits).bv.cap = c.bv.cap := by
  induction bits generalizing c with
  | nil => rfl
  | cons b bits ih =>
    rw [List.length_cons] at h
    have hstay : (c.append b).bv.cap = c.bv.cap := by rw [Code.append_cap, growCap_of_lt (by omega)]
    rw [Code.appendAll_cons, ih (by rw [hstay, Code.append_len]; omega), hstay]

/-- Appending raises the capacity only as far as the new length needs: no capacity it moves to is twice that length. -/
theorem Code.appendAll_cap_eq_or_lt (c : Code) (bits : List Bool) :
    (c.appendAll bits).bv.cap = c.bv.cap ∨ (c.appendAll bits).bv.cap < 2 * (c.len + bits.length) := by
  induction bits generalizing c with
  | nil => exact .inl rfl
  | cons b bits ih =>
    have hone : (c.append b).bv.cap = c.bv.cap ∨ (c.append b).bv.cap ≤ 2 * c.len := by
      rw [Code.append_cap]; exact growCap_eq_or_le ..
    have hrest := ih (c.append b)
    rw [Code.append_len] at hrest
    rw [Code.appendAll_cons, List.length_cons]
    omega

/-- Appending only ever doubles a positive capacity. -/
theorem Code.appendAll_cap_eq_mul_two_pow {c : Code} (h : 0 < c.bv.cap) (bits : List Bool) :
    ∃ j, (c.appendAll bits).bv.cap = c.bv.cap * 2 ^ j := by
  have hlimit : c.len + bits.length ≤ c.bv.cap * 2 ^ (c.len + bits.length) :=
    Nat.lt_two_pow_self.le.trans (Nat.le_mul_of_pos_left _ h)
  obtain ⟨j, _, hj⟩ := Code.appendAll_cap_pow bits (Nat.zero_le _) (Nat.mul_one _).symm hlimit
  exact ⟨j, hj⟩

/-- The bits outside the appended ranks stay: below them nothing is written, and beyond them both stores hold 0. -/
theorem Code.Ok.bit_appendAll_outside {c : Code} (h : c.Ok) {bits : List Bool} {r : Nat}
    (hr : r < c.len ∨ c.len + bits.length ≤ r) : Memory.bit (c.appendAll bits).bv.blk r = Memory.bit c.bv.blk r := by
  rcases hr with hbelow | hbeyond
  · exact Code.bit_appendAll_lt c bits hbelow
  · rw [(Code.appendAll_ok h bits).tail_zero r (by rwa [Code.appendAll_len]), h.tail_zero r (by omega)]

/-- A block is the bits at its eight ranks (20_memory.md R51). -/
theorem Memory.read_eq_of_bit {m m' : Memory} {b : Nat}
    (h : ∀ j < 8, Memory.bit m (8 * b + j) = Memory.bit m' (8 * b + j)) : Memory.read m b = Memory.read m' b := by
  refine BitVec.eq_of_getLsbD_eq fun i hi => ?_
  have hblock : (8 * b + (7 - i)) / 8 = b := by omega
  have hpos : 7 - (8 * b + (7 - i)) % 8 = i := by omega
  simpa only [Memory.bit_eq, hblock, hpos] using h (7 - i) (by omega)

/-! ## `OUT` as a Code (40_bitvector_code.md R100) -/

/-- A Code whose length and capacity fit the registers of `OUT` is read back as it was stored. -/
theorem State.outCode_setOut {s : State} {c : Code} (hlen : c.len < 2 ^ 17) (hcap : c.bv.cap < 2 ^ 17) :
    (s.setOut c).outCode = c := by
  rw [State.outCode, State.setOut_outLen, State.setOut_outCap, State.setOut_outBlk, BitVec.toNat_ofNat, BitVec.toNat_ofNat,
    Nat.mod_eq_of_lt hlen, Nat.mod_eq_of_lt hcap]

section
variable {s : State} (h : s.OutWf) {bits : List Bool} (hfit : s.outLen.toNat + bits.length ≤ Config.outmax)
include h hfit

/-- Appending bits that fit to a good `OUT` truncates neither register: `OUT` holds the Code with the bits appended. -/
theorem State.OutWf.outCode_appendOut : (s.appendOut bits).outCode = s.outCode.appendAll bits := by
  have hlen : s.outCode.len + bits.length ≤ 65536 := hfit
  have hold : s.outCode.bv.cap ≤ 65536 := h.cap_le_max
  have hnew := Code.appendAll_cap_eq_or_lt s.outCode bits
  exact State.outCode_setOut (by rw [Code.appendAll_len]; omega) (by omega)

theorem State.OutWf.outBits_appendOut : (s.appendOut bits).outBits = s.outBits ++ bits :=
  (congrArg Code.render (h.outCode_appendOut hfit)).trans (Code.render_appendAll h.outCode_ok bits)

theorem State.OutWf.outLen_appendOut : (s.appendOut bits).outLen.toNat = s.outLen.toNat + bits.length :=
  (congrArg Code.len (h.outCode_appendOut hfit)).trans (Code.appendAll_len ..)

theorem State.OutWf.outCap_appendOut : (s.appendOut bits).outCap.toNat = (s.outCode.appendAll bits).bv.cap :=
  congrArg (·.bv.cap) (h.outCode_appendOut hfit)

/-- `OUT.cap` stays when the bits fit in it (40_bitvector_code.md R92). -/
theorem State.OutWf.outCap_appendOut_of_le (hin : s.outLen.toNat + bits.length ≤ s.outCap.toNat) :
    (s.appendOut bits).outCap = s.outCap :=
  BitVec.eq_of_toNat_eq ((h.outCap_appendOut hfit).trans (Code.appendAll_cap_of_le hin))

/-- `OUT.cap` otherwise doubles until it covers the new length, and no further (40_bitvector_code.md R92). -/
theorem State.OutWf.outCap_appendOut_of_lt (hgrow : s.outCap.toNat < s.outLen.toNat + bits.length) :
    (s.appendOut bits).outLen.toNat ≤ (s.appendOut bits).outCap.toNat ∧
      (s.appendOut bits).outCap.toNat < 2 * (s.appendOut bits).outLen.toNat ∧
      ∃ j, (s.appendOut bits).outCap.toNat = s.outCap.toNat * 2 ^ j := by
  have hcover := (h.appendOut hfit).len_le_cap
  have hbound : (s.outCode.appendAll bits).bv.cap = s.outCap.toNat ∨
      (s.outCode.appendAll bits).bv.cap < 2 * (s.outLen.toNat + bits.length) := Code.appendAll_cap_eq_or_lt s.outCode bits
  rw [← h.outCap_appendOut hfit, ← h.outLen_appendOut hfit] at hbound
  rw [← h.outLen_appendOut hfit] at hgrow
  refine ⟨hcover, by omega, ?_⟩
  rw [h.outCap_appendOut hfit]
  exact Code.appendAll_cap_eq_mul_two_pow h.outCode_ok.cap_pos bits

theorem State.OutWf.bit_appendOut_outside {r : Nat} (hr : r < s.outLen.toNat ∨ (s.appendOut bits).outLen.toNat ≤ r) :
    Memory.bit (s.appendOut bits).outBlk r = Memory.bit s.outBlk r :=
  h.outCode_ok.bit_appendAll_outside (h.outLen_appendOut hfit ▸ hr)

/-- A block that holds no appended rank stays. -/
theorem State.OutWf.read_appendOut_outside {b : Nat}
    (hb : 8 * b + 8 ≤ s.outLen.toNat ∨ (s.appendOut bits).outLen.toNat ≤ 8 * b) :
    Memory.read (s.appendOut bits).outBlk b = Memory.read s.outBlk b :=
  Memory.read_eq_of_bit fun _ _ => h.bit_appendOut_outside hfit (by omega)

end

/-! ## ENC by case (44_encoder.md R155 to R157) -/

section
variable {s : State} {c : Symbol} (hp : s.phase = .ready) (hv : (s.ctAt c).valid = true)
include hp hv

theorem execEnc_of_gt (hgt : Config.outmax < s.outLen.toNat + (s.ctAt c).len.toNat) :
    execEnc c s = .next (s.deliver .outputOverflow 0#64) :=
  (inPhase_of_eq hp).trans ((if_neg (by rw [hv]; decide)).trans (if_pos hgt))

theorem execEnc_of_le (hle : s.outLen.toNat + (s.ctAt c).len.toNat ≤ Config.outmax) :
    execEnc c s = .next ((s.appendOut (s.codeBits c)).respond (zext64 (s.ctAt c).len)) :=
  (inPhase_of_eq hp).trans ((if_neg (by rw [hv]; decide)).trans (if_neg (Nat.not_lt.2 hle)))

end

theorem State.codeBits_length (s : State) (c : Symbol) : (s.codeBits c).length = (s.ctAt c).len.toNat :=
  CodeEntry.bits_length _

theorem saturatingInc_toNat (n : BitVec 32) : (saturatingInc n).toNat = min (n.toNat + 1) 4294967295 := by
  rw [saturatingInc, BitVec.toNat_ofNat, Nat.mod_eq_of_lt (by omega)]

/-- Settles O40: ENC appends the bits of the code to `OUT` as a Code, and length, rendering, growth and frame are those of
appending to a Code. -/
theorem encAppendsCode : Obligations.EncAppendsCode := by
  intro c s hout hp hv hfit
  have hexec := execEnc_of_le hp hv hfit
  rw [← State.codeBits_length] at hfit ⊢
  exact ⟨_, hexec, rfl, hout.outLen_appendOut hfit, hout.outBits_appendOut hfit, hout.outCap_appendOut_of_le hfit,
    hout.outCap_appendOut_of_lt hfit, fun _ => hout.bit_appendOut_outside hfit,
    fun _ => hout.read_appendOut_outside hfit⟩

/-- Settles O41: ENC only delivers UnknownSymbol, whose flag effect is `UNK` and the saturating count. -/
theorem encSkipsUnknown : Obligations.EncSkipsUnknown := fun _ s hp hv =>
  ⟨_, execEnc_of_not_valid hp hv, rfl, saturatingInc_toNat s.unkcnt⟩

/-- Settles O42: ENC only delivers OutputOverflow. -/
theorem encOverflow : Obligations.EncOverflow := fun _ _ hp hv hgt => execEnc_of_gt hp hv hgt

/-! ## A sequence of ENC (44_encoder.md R158) -/

/-- `t` is what the ENC commands of a text make of `s`, as far as R158 speaks of it. -/
structure State.Encodes (s : State) (text : List Symbol) (t : State) : Prop where
  outBits : t.outBits = s.outBits ++ (s.knownText text).flatMap s.codeBits
  outLen : t.outLen.toNat = s.outLen.toNat + ((s.knownText text).map (fun c => (s.ctAt c).len.toNat)).sum
  unkcnt : t.unkcnt.toNat = min (s.unkcnt.toNat + (text.length - (s.knownText text).length)) 4294967295
  ct : t.ct = s.ct
  node : t.node = s.node
  freq : t.freq = s.freq
  phase : t.phase = s.phase

theorem State.knownText_cons_of_valid {s : State} {c : Symbol} (hv : (s.ctAt c).valid = true) (text : List Symbol) :
    s.knownText (c :: text) = c :: s.knownText text := List.filter_cons_of_pos hv

theorem State.knownText_cons_of_not_valid {s : State} {c : Symbol} (hv : (s.ctAt c).valid = false) (text : List Symbol) :
    s.knownText (c :: text) = s.knownText text := List.filter_cons_of_neg (by rw [hv]; decide)

theorem State.knownText_length_le (s : State) (text : List Symbol) : (s.knownText text).length ≤ text.length :=
  List.length_filter_le ..

theorem State.Encodes.nil (s : State) : s.Encodes [] s where
  outBits := (List.append_nil _).symm
  outLen := rfl
  unkcnt := (Nat.min_eq_left (Nat.le_of_lt_succ s.unkcnt.isLt)).symm
  ct := rfl
  node := rfl
  freq := rfl
  phase := rfl

/-- A character without a code in front: it counts one, and the codes of the rest are those of the text. -/
theorem State.Encodes.cons_of_not_valid {s t : State} {c : Symbol} {text : List Symbol} (hv : (s.ctAt c).valid = false)
    (h : (s.deliver .unknownSymbol 0#64).Encodes text t) : s.Encodes (c :: text) t := by
  obtain ⟨hbits, hlen, hunk, hct, hnode, hfreq, hphase⟩ := h
  have hknown := s.knownText_cons_of_not_valid hv text
  refine ⟨by rw [hknown]; exact hbits, by rw [hknown]; exact hlen, ?_, hct, hnode, hfreq, hphase⟩
  have hle := s.knownText_length_le text
  have hone : (s.deliver .unknownSymbol 0#64).unkcnt.toNat = min (s.unkcnt.toNat + 1) 4294967295 :=
    saturatingInc_toNat s.unkcnt
  have hsame : (s.deliver .unknownSymbol 0#64).knownText text = s.knownText text := rfl
  rw [hknown, hunk, hone, hsame, List.length_cons]
  omega

/-- A character whose code fits in front: its code is appended before those of the rest. -/
theorem State.Encodes.cons_of_valid {s t : State} {c : Symbol} {text : List Symbol} (hout : s.OutWf)
    (hv : (s.ctAt c).valid = true) (hfit : s.outLen.toNat + (s.codeBits c).length ≤ Config.outmax) {d : Word}
    (h : ((s.appendOut (s.codeBits c)).respond d).Encodes text t) : s.Encodes (c :: text) t := by
  obtain ⟨hbits, hlen, hunk, hct, hnode, hfreq, hphase⟩ := h
  have hknown := s.knownText_cons_of_valid hv text
  have hbits' : t.outBits = (s.appendOut (s.codeBits c)).outBits ++ (s.knownText text).flatMap s.codeBits := hbits
  have hlen' : t.outLen.toNat = (s.appendOut (s.codeBits c)).outLen.toNat +
      ((s.knownText text).map (fun c => (s.ctAt c).len.toNat)).sum := hlen
  refine ⟨?_, ?_, ?_, hct, hnode, hfreq, hphase⟩
  · rw [hbits', hout.outBits_appendOut hfit, hknown, List.flatMap_cons, List.append_assoc]
  · rw [hlen', hout.outLen_appendOut hfit, State.codeBits_length, hknown, List.map_cons, List.sum_cons, Nat.add_assoc]
  · rw [hknown, List.length_cons, List.length_cons, Nat.add_sub_add_right]; exact hunk

/-- A text whose known characters' codes fit is encoded: each character is skipped or its code appended, and the codes of
the rest still fit. -/
theorem execAll_encodeText (text : List Symbol) {s : State} (hout : s.OutWf) (hp : s.phase = .ready)
    (hfit : s.outLen.toNat + ((s.knownText text).map (fun c => (s.ctAt c).len.toNat)).sum ≤ Config.outmax) :
    ∃ t, execAll (encodeText text) s = .next t ∧ s.Encodes text t := by
  induction text generalizing s with
  | nil => exact ⟨s, rfl, .nil s⟩
  | cons c text ih =>
    cases hv : (s.ctAt c).valid with
    | false =>
      rw [s.knownText_cons_of_not_valid hv] at hfit
      have hexec : exec (.enc c) s = .next (s.deliver .unknownSymbol 0#64) := execEnc_of_not_valid hp hv
      obtain ⟨t, hrest, ht⟩ := ih (s := s.deliver .unknownSymbol 0#64) (hout.of_sameEngine rfl) hp hfit
      exact ⟨t, (execAll_cons_of_next hexec).trans hrest, ht.cons_of_not_valid hv⟩
    | true =>
      rw [s.knownText_cons_of_valid hv, List.map_cons, List.sum_cons, ← Nat.add_assoc] at hfit
      have hexec : exec (.enc c) s = .next ((s.appendOut (s.codeBits c)).respond (zext64 (s.ctAt c).len)) :=
        execEnc_of_le hp hv (Nat.le_of_add_right_le hfit)
      rw [← State.codeBits_length] at hfit
      have hone := Nat.le_of_add_right_le hfit
      rw [← hout.outLen_appendOut hone] at hfit
      obtain ⟨t, hrest, ht⟩ := ih (s := (s.appendOut (s.codeBits c)).respond (zext64 (s.ctAt c).len))
        ((hout.appendOut hone).of_sameEngine rfl) hp hfit
      exact ⟨t, (execAll_cons_of_next hexec).trans hrest, ht.cons_of_valid hout hv hone⟩

/-- Settles O43: the effect of encoding a text, in a state that is READY. -/
theorem encSequence : Obligations.EncSequence := by
  intro text s hout hp hfit
  obtain ⟨t, hexec, hbits, hlen, hunk, hct, hnode, hfreq, hphase⟩ := execAll_encodeText text hout hp hfit
  exact ⟨t, hexec, hbits, hlen, hunk, hct, hnode, hfreq, hphase.trans hp⟩

end Sys2Proof.Machine
end

section
/-! PROOFS. Control (45_control.md): the phase condition and the phase after each command (O12), every command and every step
answers (O8), NOP (O13), CLRALL (O14), CLRERR (O15) and RDSTAT (O16). -/

namespace Sys2Proof.Machine

/-! ## The life cycle (45_control.md R170) -/

/-- `PHASE` after a command: the last column of the life cycle table. -/
def State.phaseAfter (s : State) : Instr → Phase
  | .clrall => .collect
  | .build => if s.phase = .collect ∧ s.freqTotal ≤ 4294967295 then .built else s.phase
  | .gen => if s.phase = .built then .ready else s.phase
  | _ => s.phase

/-- A command outside its phase is PhaseError and nothing else (60_exceptions.md R202). -/
theorem exec_of_forbidden {i : Instr} {s : State} (h : phaseAllows i s.phase = false) :
    exec i s = raiseError .phaseError s := by
  cases i with
  | feed c => exact execFeed_of_ne (of_decide_eq_false h) c
  | setf c n => exact execSetf_of_ne (of_decide_eq_false h) c n
  | build => exact show execBuild s = _ from inPhase_of_ne (of_decide_eq_false h)
  | gen => exact show execGen s = _ from inPhase_of_ne (of_decide_eq_false h)
  | enc c => exact show execEnc c s = _ from inPhase_of_ne (of_decide_eq_false h)
  | nop | clrall | clrout | clrerr | rdstat _ | rdfreq _ | rdnode _ | rdlen _ | rdcode _ _ | test _ | rdout _ => cases h

/-- A command outside its phase does not move the phase. -/
theorem State.phaseAfter_of_forbidden {i : Instr} {s : State} (h : phaseAllows i s.phase = false) :
    s.phaseAfter i = s.phase := by
  cases i with
  | build => exact if_neg fun hc => of_decide_eq_false h hc.1
  | gen => exact if_neg (of_decide_eq_false h)
  | clrall => cases h
  | nop | clrout | clrerr | feed _ | setf _ _ | enc _ | rdstat _ | rdfreq _ | rdnode _ | rdlen _ | rdcode _ _ | test _
  | rdout _ => rfl

/-- What a command does in a phase that allows it: the life cycle's move, and no PhaseError. -/
structure State.Moves (s : State) (i : Instr) (t : State) : Prop where
  phase : t.phase = s.phaseAfter i
  resp : ∀ d, t.resp ≠ some ⟨.phaseError, d⟩

/-- The move of a BUILD whose total fits, whatever its answer. -/
theorem State.Moves.build {s t : State} (hp : s.phase = .collect) (ht : s.freqTotal ≤ 4294967295) (h : t.phase = .built)
    (hr : ∀ d, t.resp ≠ some ⟨.phaseError, d⟩) : s.Moves .build t :=
  ⟨h.trans (if_pos ⟨hp, ht⟩).symm, hr⟩

/-- A command in its phase makes its move. -/
theorem moves_of_allowed {i : Instr} {s t : State} (ha : phaseAllows i s.phase = true) (h : exec i s = .next t) :
    s.Moves i t := by
  cases i with
  | nop | clrall | clrout | clrerr | rdfreq _ | rdnode _ | rdlen _ | rdcode _ _ | test _ | rdout _ =>
    cases h; exact ⟨rfl, nofun⟩
  | feed sym =>
    rcases execFeed_cases h with ⟨hp, _⟩ | ⟨_, _, rfl⟩ | ⟨_, _, rfl⟩
    · exact absurd (of_decide_eq_true ha) hp
    · exact ⟨rfl, nofun⟩
    · exact ⟨rfl, nofun⟩
  | setf sym count =>
    rcases execSetf_cases h with ⟨hp, _⟩ | ⟨_, rfl⟩
    · exact absurd (of_decide_eq_true ha) hp
    · exact ⟨rfl, nofun⟩
  | build =>
    rcases execBuild_cases h with
      ⟨hp, _⟩ | ⟨_, hgt, rfl⟩ | ⟨hp, ht, _, rfl⟩ | ⟨hp, ht, _, rfl⟩ | ⟨hp, ht, _, rfl⟩
    · exact absurd (of_decide_eq_true ha) hp
    · exact ⟨(if_neg fun hc => hgt.not_ge hc.2).symm, nofun⟩
    · exact .build hp ht rfl nofun
    · exact .build hp ht rfl nofun
    · exact .build hp ht rfl nofun
  | gen =>
    rcases execGen_cases h with ⟨hp, _⟩ | ⟨hp, rfl⟩
    · exact absurd (of_decide_eq_true ha) hp
    · exact ⟨(if_pos hp).symm, nofun⟩
  | enc sym =>
    rcases execEnc_cases h with ⟨hp, _⟩ | ⟨_, _, rfl⟩ | ⟨_, _, _, rfl⟩ | ⟨_, _, _, rfl⟩
    · exact absurd (of_decide_eq_true ha) hp
    · exact ⟨rfl, nofun⟩
    · exact ⟨rfl, nofun⟩
    · exact ⟨rfl, nofun⟩
  | rdstat n =>
    rcases execRdstat_cases h with ⟨_, _, rfl⟩ | ⟨_, rfl⟩
    · exact ⟨rfl, nofun⟩
    · exact ⟨rfl, nofun⟩

/-- Settles O12: by whether the table allows the command in the phase. -/
theorem lifeCycle : Obligations.LifeCycle := by
  intro i s t h
  show _ ∧ t.phase = s.phaseAfter i
  cases ha : phaseAllows i s.phase with
  | false =>
    rw [exec_of_forbidden ha] at h
    cases h
    exact ⟨⟨fun _ => ⟨0#64, rfl⟩, fun _ => rfl⟩, (State.phaseAfter_of_forbidden ha).symm⟩
  | true =>
    have hmoves := moves_of_allowed ha h
    exact ⟨⟨nofun, fun ⟨d, hd⟩ => absurd hd (hmoves.resp d)⟩, hmoves.phase⟩

/-! ## The status registers (10_state.md R25 to R34) -/

/-- RDSTAT of a number that names a register answers its value zero-extended (45_control.md R168). -/
theorem exec_rdstat {n : Imm} {r : StatusReg} {s : State} {d : Word} (hn : StatusReg.ofNumber n = some r)
    (hd : zext64 (s.statusreg r) = d) : exec (.rdstat n) s = .next { s with resp := answer d } := by
  show execRdstat n s = _
  rw [execRdstat, hn, ← hd]
  rfl

/-- Extending by way of the register's 32 bits is extending at once. -/
theorem zext64_setWidth {n : Nat} (h : n ≤ 32) (v : BitVec n) : zext64 (v.setWidth 32) = v.setWidth 64 :=
  BitVec.setWidth_setWidth (by omega)

theorem zext64_eq_append (v : BitVec 32) : zext64 v = 0#32 ++ v := BitVec.setWidth_eq_append (by decide)

/-- The fields of the data RDSTAT 2 returns, from the low end (10_state.md R28). -/
theorem rootData_fields (s : State) :
    (zext64 (s.statusreg .root)).extractLsb' 0 9 = s.rootidx ∧ (zext64 (s.statusreg .root)).extractLsb' 9 22 = 0#22 ∧
      (zext64 (s.statusreg .root)).getLsbD 31 = s.rootv ∧ (zext64 (s.statusreg .root)).extractLsb' 32 32 = 0#32 := by
  rw [zext64_eq_append, State.statusreg]
  refine ⟨?rootidx, ?zero, ?rootv, ?high⟩
  case rootv => simp only [BitVec.getLsbD_append]; simp
  all_goals simp (disch := decide) only [BitVec.extractLsb'_append_eq_of_add_le, BitVec.extractLsb'_append_eq_left,
    BitVec.extractLsb'_eq_self]

/-- Settles O16: each number names its register, whose value is zero-extended. -/
theorem rdstatRegisters : Obligations.RdstatRegisters := fun s =>
  ⟨exec_rdstat (r := .cfg) rfl rfl, ⟨_, exec_rdstat (r := .root) rfl rfl, rootData_fields s⟩,
    exec_rdstat (r := .nnodes) rfl (zext64_setWidth (by decide) _),
    exec_rdstat (r := .nsyms) rfl (zext64_setWidth (by decide) _),
    exec_rdstat (r := .outlen) rfl (zext64_setWidth (by decide) _),
    exec_rdstat (r := .outcap) rfl (zext64_setWidth (by decide) _),
    exec_rdstat (r := .unkcnt) rfl rfl,
    exec_rdstat (r := .lasterr) rfl (zext64_setWidth (by decide) _)⟩

/-! ## Every command answers (45_control.md R171) -/

/-- The outcome is a next state: no fault and no refusal. -/
def Answers (r : Result) : Prop := ∃ t, r = .next t

theorem Answers.next (t : State) : Answers (.next t) := ⟨t, rfl⟩

theorem Answers.ite {c : Prop} [Decidable c] {a b : Result} (ha : Answers a) (hb : Answers b) :
    Answers (if c then a else b) := iteInduction (fun _ => ha) fun _ => hb

/-- What answers in every state answers under a phase condition: outside the phase by PhaseError (60_exceptions.md R202). -/
theorem Answers.inPhase {p : Phase} {s : State} {k : State → Result} (h : ∀ s, Answers (k s)) :
    Answers (inPhase p s k) := .ite (h s) (.next _)

/-- Every command answers: none stops but with a condition, which is delivered (60_exceptions.md R205, R206). -/
theorem exec_answers (i : Instr) (s : State) : Answers (exec i s) := by
  cases i with
  | nop | clrall | clrout | clrerr | rdfreq _ | rdnode _ | rdlen _ | rdcode _ _ | test _ | rdout _ => exact .next _
  | feed sym => exact show Answers (execFeed sym s) from .inPhase fun _ => .ite (.next _) (.next _)
  | setf sym count => exact show Answers (execSetf sym count s) from .inPhase fun _ => .next _
  | build =>
    exact show Answers (execBuild s) from .inPhase fun _ => .ite (.next _) (.ite (.next _) (.ite (.next _) (.next _)))
  | gen => exact show Answers (execGen s) from .inPhase fun _ => .next _
  | enc sym => exact show Answers (execEnc sym s) from .inPhase fun _ => .ite (.next _) (.ite (.next _) (.next _))
  | rdstat n =>
    rcases Nat.lt_or_ge 8 n.toNat with hgt | hle
    · exact ⟨_, rdstatTermAboveEight n s hgt⟩
    · obtain ⟨r, hr⟩ := StatusReg.ofNumber_of_le hle
      exact ⟨_, exec_rdstat hr rfl⟩

theorem step_answers (s : State) : Answers (step s) := by
  rcases step_cases s with ⟨_, h⟩ | ⟨_, _, _, _, _, h⟩ | ⟨_, _, _, _, _, h⟩ | ⟨_, _, h⟩
  · exact ⟨_, h⟩
  · rw [h]; exact exec_answers ..
  · exact ⟨_, h⟩
  · exact ⟨_, h⟩

/-- Settles O8: every command answers, and a step that runs none answers of itself. -/
theorem everyStepAnswers : Obligations.EveryStepAnswers := ⟨exec_answers, step_answers⟩

/-! ## NOP, CLRALL and CLRERR (45_control.md R165 to R167) -/

/-- Settles O13: the word is that of NOP, which only responds. -/
theorem nopChangesNothing : Obligations.NopChangesNothing := 
  ⟨decode_encode (i := .nop) rfl, fun s => congrArg Host.Outcome.next (respond_eq 0#64 s)⟩

/-- What CLRALL writes, field by field; the other fields stay. -/
theorem State.clearAll_eq (s : State) : s.clearAll = { s with
    phase := .collect, rootv := false, empty := false, degen := false, rootidx := 0#9, nnodes := 0#10, nsyms := 0#9
    freq := [], ct := invalidateCt s.ct, outLen := 0#17, outCap := 64#17, outBlk := [] } := by
  simp only [State.clearAll, State.clearOut]

/-- After CLRALL no symbol is counted. -/
theorem State.freqAt_clearAll (s : State) (c : Symbol) : s.clearAll.freqAt c = 0#32 := Table.read_nil

/-- After CLRALL no symbol has a code. -/
theorem State.valid_clearAll (s : State) (c : Symbol) : (s.clearAll.ctAt c).valid = false := by
  rw [State.ctAt, State.clearAll_ct]; exact ctRead_invalidateCt_valid s.ct c

/-- Settles O14: the word is that of CLRALL; the cleared memories are read by the lemmas above, and `OUT` lists no block. -/
theorem clrallRestores : Obligations.ClrallRestores := by
  refine ⟨decode_encode (i := .clrall) rfl, fun s => ⟨s.clearAll.respond 0#64, rfl, ?_, fun c => ?_, fun c => ?_,
    fun _ => Memory.read_nil⟩⟩
  · simp only [respond_eq, State.clearAll_eq]
  · rw [State.freqAt_respond, State.freqAt_clearAll]
  · rw [State.ctAt_respond, State.valid_clearAll]

/-- Settles O15: the word is that of CLRERR, which clears the record of past conditions and responds. -/
theorem clrerrClears : Obligations.ClrerrClears :=
  ⟨decode_encode (i := .clrerr) rfl, fun s => congrArg Host.Outcome.next (respond_eq 0#64 s.clearConditions)⟩

end Sys2Proof.Machine
end

section
/-! PROOFS. What a step keeps (46_properties.md): the sticky flags and `UNKCNT` (O47), and the bit store (O50). -/

namespace Sys2Proof.Machine

/-! ## What a command does to `OUT` and to the record of past conditions -/

/-- The bit store and the record of past conditions, but for `LASTERR`. -/
def State.storePart (s : State) : State :=
  { State.reset with
    outLen := s.outLen, outCap := s.outCap, outBlk := s.outBlk
    ill := s.ill, pherr := s.pherr, wovf := s.wovf, oovf := s.oovf, unk := s.unk, unkcnt := s.unkcnt }

/-- What a command writes of `storePart` before it answers: only three commands clear in it, and only ENC adds to it. -/
inductive StoreEffect (s : State) : Instr → State → Prop where
  | keep (i : Instr) (u : State) (h : u.storePart = s.storePart) : StoreEffect s i u
  | clrerr : StoreEffect s .clrerr s.clearConditions
  | clrout : StoreEffect s .clrout s.clearOut
  | clrall : StoreEffect s .clrall s.clearAll
  | enc (c : Symbol) (hfit : s.outLen.toNat + (s.codeBits c).length ≤ Config.outmax) :
    StoreEffect s (.enc c) (s.appendOut (s.codeBits c))

/-- Every command's effect on `OUT` and on the record of past conditions, said once. -/
theorem exec_storeEffect {i : Instr} {s t : State} (h : exec i s = .next t) :
    ∃ u, StoreEffect s i u ∧ Answered u t := by
  cases i with
  | nop | rdfreq _ | rdnode _ | rdlen _ | rdcode _ _ | test _ | rdout _ => cases h; exact ⟨s, .keep _ _ rfl, .respond _⟩
  | clrerr => cases h; exact ⟨_, .clrerr, .respond _⟩
  | clrout => cases h; exact ⟨_, .clrout, .respond _⟩
  | clrall => cases h; exact ⟨_, .clrall, .respond _⟩
  | feed sym =>
    rcases execFeed_cases h with ⟨_, rfl⟩ | ⟨_, _, rfl⟩ | ⟨_, _, rfl⟩
    · exact ⟨s, .keep _ _ rfl, .deliver ..⟩
    · exact ⟨s, .keep _ _ rfl, .deliver ..⟩
    · exact ⟨s.setFreq .., .keep _ _ rfl, .respond _⟩
  | setf sym count =>
    rcases execSetf_cases h with ⟨_, rfl⟩ | ⟨_, rfl⟩
    · exact ⟨s, .keep _ _ rfl, .deliver ..⟩
    · exact ⟨s.setFreq .., .keep _ _ rfl, .respond _⟩
  | build =>
    rcases execBuild_cases h with ⟨_, rfl⟩ | ⟨_, _, rfl⟩ | ⟨_, _, _, rfl⟩ | ⟨_, _, _, rfl⟩ | ⟨_, _, _, rfl⟩
    · exact ⟨s, .keep _ _ rfl, .deliver ..⟩
    · exact ⟨s, .keep _ _ rfl, .deliver ..⟩
    · exact ⟨s.buildTree, .keep _ _ rfl, .deliver ..⟩
    · exact ⟨s.buildTree, .keep _ _ rfl, .deliver ..⟩
    · exact ⟨s.buildTree, .keep _ _ rfl, .respond _⟩
  | gen =>
    rcases execGen_cases h with ⟨_, rfl⟩ | ⟨_, rfl⟩
    · exact ⟨s, .keep _ _ rfl, .deliver ..⟩
    · exact ⟨s.genTable, .keep _ _ rfl, .respond _⟩
  | enc sym =>
    rcases execEnc_cases h with ⟨_, rfl⟩ | ⟨_, _, rfl⟩ | ⟨_, _, _, rfl⟩ | ⟨_, _, hfit, rfl⟩
    · exact ⟨s, .keep _ _ rfl, .deliver ..⟩
    · exact ⟨s, .keep _ _ rfl, .deliver ..⟩
    · exact ⟨s, .keep _ _ rfl, .deliver ..⟩
    · exact ⟨_, .enc sym (by rw [State.codeBits_length]; exact hfit), .respond _⟩
  | rdstat n =>
    rcases execRdstat_cases h with ⟨_, _, rfl⟩ | ⟨_, rfl⟩
    · exact ⟨s, .keep _ _ rfl, .respond _⟩
    · exact ⟨s, .keep _ _ rfl, .deliver ..⟩

/-- A step that is no reset event idles, delivers IllegalCommand, or runs a command, which is none of those whose words the
host did not issue. -/
theorem step_cases_of_no_reset {s t : State} (h : step s = .next t) (hreset : s.host.head? ≠ some .reset) :
    t = s ∨ ∃ rest, t = State.deliver .illegalCommand 0#64 { s with host := rest } ∨
      ∃ i, exec i { s with host := rest } = .next t ∧ ∀ j, s.nextCommand ≠ some (encode j) → i ≠ j := by
  rcases serveHost_cases h with ⟨_, rfl⟩ | ⟨_, hhost, _⟩ | ⟨_, rest, _, _, _, rfl⟩ | ⟨w, rest, i, hhost, hdec, hexec⟩
  · exact .inl rfl
  · exact absurd (by rw [hhost]; rfl) hreset
  · exact .inr ⟨rest, .inl rfl⟩
  · refine .inr ⟨rest, .inr ⟨i, hexec, ?_⟩⟩
    rintro _ hne rfl
    exact hne (by rw [State.nextCommand, hhost, (wellFormed_and_encode_of_decode hdec).2])

/-! ## Stickiness (46_properties.md R190) -/

/-- No sticky flag of `s` is lower in `t`, nor `UNKCNT`. -/
structure State.StickyLe (s t : State) : Prop where
  ill : s.ill = true → t.ill = true
  pherr : s.pherr = true → t.pherr = true
  wovf : s.wovf = true → t.wovf = true
  oovf : s.oovf = true → t.oovf = true
  unk : s.unk = true → t.unk = true
  unkcnt : s.unkcnt.toNat ≤ t.unkcnt.toNat

theorem State.StickyLe.refl (s : State) : s.StickyLe s := ⟨id, id, id, id, id, Nat.le_refl _⟩

/-- Taking the host's next input touches none of them. -/
theorem State.StickyLe.of_taken {s t : State} {rest : List HostInput} (h : { s with host := rest }.StickyLe t) :
    s.StickyLe t := ⟨h.ill, h.pherr, h.wovf, h.oovf, h.unk, h.unkcnt⟩

/-- Delivering a condition raises flags and counts up, never down (60_exceptions.md R207). -/
theorem State.stickyLe_deliver (s : State) (c : Condition) (d : Word) : s.StickyLe (s.deliver c d) := by
  refine ⟨?ill, ?pherr, ?wovf, ?oovf, ?unk, ?unkcnt⟩
  case unkcnt =>
    rw [State.deliver_unkcnt, State.markCondition_unkcnt]
    have := s.unkcnt.isLt
    split
    · rw [saturatingInc_toNat]; omega
    · exact Nat.le_refl _
  all_goals intro hflag; simp [hflag]

theorem Answered.stickyLe {u t : State} (h : Answered u t) : u.StickyLe t := by
  cases h with
  | respond d => exact ⟨id, id, id, id, id, Nat.le_refl _⟩
  | deliver c d => exact u.stickyLe_deliver c d

/-- Every command's write but CLRERR's leaves the record of past conditions as it was. -/
theorem StoreEffect.sticky_eq {s u : State} {i : Instr} (h : StoreEffect s i u) (hi : i ≠ .clrerr) :
    u.ill = s.ill ∧ u.pherr = s.pherr ∧ u.wovf = s.wovf ∧ u.oovf = s.oovf ∧ u.unk = s.unk ∧ u.unkcnt = s.unkcnt := by
  cases h with
  | clrerr => exact absurd rfl hi
  | clrout | clrall | enc _ _ => exact ⟨rfl, rfl, rfl, rfl, rfl, rfl⟩
  | keep _ _ h =>
    have field {α : Type} (f : State → α) : f u.storePart = f s.storePart := congrArg f h
    exact ⟨field State.ill, field State.pherr, field State.wovf, field State.oovf, field State.unk, field State.unkcnt⟩

theorem exec_stickyLe {i : Instr} {s t : State} (h : exec i s = .next t) (hi : i ≠ .clrerr) : s.StickyLe t := by
  obtain ⟨u, heffect, hanswered⟩ := exec_storeEffect h
  obtain ⟨hill, hpherr, hwovf, hoovf, hunk, hunkcnt⟩ := heffect.sticky_eq hi
  obtain ⟨hill', hpherr', hwovf', hoovf', hunk', hunkcnt'⟩ := hanswered.stickyLe
  exact ⟨hill ▸ hill', hpherr ▸ hpherr', hwovf ▸ hwovf', hoovf ▸ hoovf', hunk ▸ hunk', hunkcnt ▸ hunkcnt'⟩

/-- Settles O47: an idle step changes nothing, an illegal word is delivered, and no command but CLRERR clears a flag. -/
theorem stickyFlagsStay : Obligations.StickyFlagsStay := by
  intro s t h hclrerr hreset
  have hle : s.StickyLe t := by
    rcases step_cases_of_no_reset h hreset with rfl | ⟨rest, rfl | ⟨i, hexec, hne⟩⟩
    · exact .refl _
    · exact (State.stickyLe_deliver ..).of_taken
    · exact (exec_stickyLe hexec (hne _ hclrerr)).of_taken
  obtain ⟨hill, hpherr, hwovf, hoovf, hunk, hunkcnt⟩ := hle
  exact ⟨hill, hpherr, hwovf, hoovf, hunk, hunkcnt⟩

/-! ## The bit store (46_properties.md R189) -/

/-- No bit stored in `s` is another in `t`, and neither length nor capacity is lower. -/
structure State.OutLe (s t : State) : Prop where
  bit : ∀ r < s.outLen.toNat, Memory.bit t.outBlk r = Memory.bit s.outBlk r
  len : s.outLen.toNat ≤ t.outLen.toNat
  cap : s.outCap.toNat ≤ t.outCap.toNat

/-- Equal bit stores. -/
theorem State.OutLe.of_eq {s t : State} (hlen : t.outLen = s.outLen) (hcap : t.outCap = s.outCap)
    (hblk : t.outBlk = s.outBlk) : s.OutLe t :=
  ⟨fun _ _ => by rw [hblk], by rw [hlen], by rw [hcap]⟩

/-- Taking the host's next input does not touch the bit store. -/
theorem State.OutLe.of_taken {s t : State} {rest : List HostInput} (h : { s with host := rest }.OutLe t) : s.OutLe t :=
  ⟨h.bit, h.len, h.cap⟩

/-- Appending changes no bit below the length and lowers neither length nor capacity. -/
theorem State.OutWf.outLe_appendOut {s : State} (h : s.OutWf) {bits : List Bool}
    (hfit : s.outLen.toNat + bits.length ≤ Config.outmax) : s.OutLe (s.appendOut bits) where
  bit _ hr := h.bit_appendOut_outside hfit (.inl hr)
  len := by rw [h.outLen_appendOut hfit]; exact Nat.le_add_right ..
  cap := by
    obtain ⟨j, hj⟩ := Code.appendAll_cap_eq_mul_two_pow h.outCode_ok.cap_pos bits
    rw [h.outCap_appendOut hfit, hj]
    exact Nat.le_mul_of_pos_right _ (Nat.two_pow_pos j)

/-- Every command's write but those of CLROUT and CLRALL only adds to the bit store. -/
theorem StoreEffect.outLe {s u : State} {i : Instr} (h : StoreEffect s i u) (hs : s.OutWf) (hout : i ≠ .clrout)
    (hall : i ≠ .clrall) : s.OutLe u := by
  cases h with
  | clrout => exact absurd rfl hout
  | clrall => exact absurd rfl hall
  | clrerr => exact .of_eq rfl rfl rfl
  | enc c hfit => exact hs.outLe_appendOut hfit
  | keep _ _ h =>
    exact .of_eq (congrArg State.outLen h :) (congrArg State.outCap h :) (congrArg State.outBlk h :)

theorem exec_outLe {i : Instr} {s t : State} (hs : s.OutWf) (h : exec i s = .next t) (hout : i ≠ .clrout)
    (hall : i ≠ .clrall) : s.OutLe t := by
  obtain ⟨u, heffect, hanswered⟩ := exec_storeEffect h
  obtain ⟨hbit, hlen, hcap⟩ := heffect.outLe hs hout hall
  rw [hanswered.sameEngine]
  exact ⟨hbit, hlen, hcap⟩

/-- Settles O50: the bit store is good at reset and every update keeps it so; only CLROUT, CLRALL and reset take from it. -/
theorem stepKeepsBitStore : Obligations.StepKeepsBitStore := by
  have hreset : State.reset.OutWf := State.outWf_of_fresh rfl rfl rfl
  refine ⟨hreset, fun s t hs h => ⟨step_keeps hreset State.OutWf.of_sameEngine (fun hs hu => hu.outWf hs) hs h,
    fun hclrout hclrall hnoreset => ?_⟩⟩
  have hle : s.OutLe t := by
    rcases step_cases_of_no_reset h hnoreset with rfl | ⟨rest, rfl | ⟨i, hexec, hne⟩⟩
    · exact .of_eq rfl rfl rfl
    · exact .of_eq rfl rfl rfl
    · exact (exec_outLe (s := { s with host := rest }) (hs.of_sameEngine rfl) hexec (hne _ hclrout)
        (hne _ hclrall)).of_taken
  obtain ⟨hbit, hlen, hcap⟩ := hle
  exact ⟨hbit, hlen, hcap⟩

end Sys2Proof.Machine
end

section
/-! PROOFS. The code table GEN makes (46_properties.md R187, O37). -/

namespace Sys2Proof.Machine

/-- A traversal that has seen every node of the tree has written one record per leaf (43_codegen.md R145). -/
theorem State.GenInv.cnt_eq {s : State} {seen : List Nat} {g : GenCtx} (h : s.GenInv seen g)
    (hall : ∀ j < 2 * s.leafCount - 1, j ∈ seen) : g.cnt = s.leafCount := by
  have hnodup : seen.Nodup := (List.nodup_append.1 h.nodup).1
  have hperm : (seen.filter (fun i => decide (i < s.leafCount))).Perm (List.range s.leafCount) := by
    refine (List.perm_ext_iff_of_nodup (hnodup.filter _) List.nodup_range).2 fun i => ?_
    rw [List.mem_filter, List.mem_range, decide_eq_true_iff]
    exact ⟨And.right, fun hi => ⟨hall i (by omega), hi⟩⟩
  rw [h.cnt, hperm.length_eq, List.length_range]

/-- GEN counts the leaves (43_codegen.md R142 to R145). -/
theorem State.TreeOk.traverse_cnt {s : State} (h : s.TreeOk) (hm : s.MemoriesWf) : s.traverse.cnt = s.leafCount := by
  match hk : s.leafCount with
  | 0 => rw [State.traverse_of_no_root (by rw [h.rootv, hk]; rfl)]
  | 1 =>
    obtain ⟨c, _, hleaf⟩ := h.leaves 0 (by omega)
    have hroot : s.nodeAt s.rootidx.toNat = .leaf c (s.freqAt c) := by rw [h.rootidx, hk]; exact hleaf
    rw [State.traverse_of_leaf (by rw [h.rootv, hk]; rfl) hroot]
  | k + 2 =>
    obtain ⟨seen, hgen, _, hall⟩ := h.traverse_seen hm (by omega)
    rw [hgen.cnt_eq hall, hk]

/-- Settles O37: the traversal ends with an empty queue after one record per leaf, and the records are the tree's. -/
theorem genMakesCodes : Obligations.GenMakesCodes := by
  intro s hinv hp
  have htree : s.TreeOk := hinv.tree (by rw [hp]; decide)
  obtain ⟨hqueue, hcodes⟩ := htree.genTable hinv.memories
  have hempty : s.traverse.bfsq = s.bfsq := hqueue.trans hinv.transient.bfsq.symm
  have hcount : countData s.traverse.cnt = s.nsyms.setWidth 64 := by
    rw [htree.traverse_cnt hinv.memories, State.leafCount, countData, BitVec.ofNat_toNat]
  refine ⟨_, execGen_of_built hp, ?_, hcodes.of_codePart rfl⟩
  rw [hcount, respond_eq, State.genTable, hempty]

end Sys2Proof.Machine
end

section
/-! PROOFS. The codes of the tree (46_properties.md): its paths, no code the beginning of another (O52), the Kraft sum (O53)
and the total weighted length (O54). -/

namespace Sys2Proof.Machine

open Finset (range Ico)

/-! ## Paths in the tree -/

theorem State.TreeOk.leafCount_le_of_tag {s : State} (h : s.TreeOk) {i : Nat} (ht : (s.nodeAt i).tag = true) :
    s.leafCount ≤ i :=
  Nat.le_of_not_lt fun hi => Bool.false_ne_true ((h.tag_leaf hi).symm.trans ht)

/-- Each branch of a path leads to a smaller index (46_properties.md R186). -/
theorem State.TreeOk.walk_add_length_le {s : State} (h : s.TreeOk) {i j : Nat} {bits : List Bool}
    (hi : i < 2 * s.leafCount - 1) (hw : s.walk i bits = some j) : j + bits.length ≤ i := by
  induction bits generalizing i with
  | nil => injection hw with hw; exact hw.ge
  | cons b bits ih =>
    rw [State.walk] at hw
    split at hw
    · next ht =>
      have hchild := h.child_lt (h.leafCount_le_of_tag ht) hi b
      have hrest := ih (hchild.trans hi) hw
      rw [List.length_cons]
      omega
    · cases hw

/-- The last branch of a path leaves an internal node. -/
theorem State.exists_of_walk_snoc {s : State} {r j : Nat} {bits : List Bool} {b : Bool}
    (hw : s.walk r (bits ++ [b]) = some j) :
    ∃ i, s.walk r bits = some i ∧ (s.nodeAt i).tag = true ∧ s.child i b = j := by
  rw [State.walk_append, Option.bind_eq_some_iff] at hw
  obtain ⟨i, hi, hlast⟩ := hw
  rw [State.walk] at hlast
  split at hlast
  · next ht => exact ⟨i, hi, ht, Option.some.inj hlast⟩
  · cases hlast

/-- The children in the order the merges took them, as branches of their parents. -/
theorem State.childrenOf_eq_map (s : State) (n : Nat) : childrenOf s.node s.leafCount n =
    (List.range' s.leafCount (n - s.leafCount) ×ˢ [false, true]).map fun p => s.child p.1 p.2 :=
  (List.map_flatMap (f := fun p : Nat × Bool => s.child p.1 p.2) (g := fun i => [false, true].map (Prod.mk i))).symm

theorem State.mem_childrenOf {s : State} {j n : Nat} :
    j ∈ childrenOf s.node s.leafCount n ↔ ∃ i b, s.leafCount ≤ i ∧ i < n ∧ s.child i b = j := by
  simp only [State.childrenOf_eq_map, List.mem_map, List.mem_product, Prod.exists, List.mem_range'_1]
  constructor
  · rintro ⟨i, b, ⟨⟨hk, hi⟩, -⟩, hb⟩; exact ⟨i, b, hk, by omega, hb⟩
  · rintro ⟨i, b, hk, hi, hb⟩; exact ⟨i, b, ⟨⟨hk, by omega⟩, by cases b <;> simp⟩, hb⟩

/-- No node is a child twice (10_state.md R37 (c)). -/
theorem State.TreeOk.nodup_childrenOf {s : State} (h : s.TreeOk) :
    (childrenOf s.node s.leafCount (2 * s.leafCount - 1)).Nodup := by
  rw [List.nodup_iff_count_le_one]
  intro j
  by_cases hmem : j ∈ childrenOf s.node s.leafCount (2 * s.leafCount - 1)
  · obtain ⟨i, b, hk, hi, rfl⟩ := State.mem_childrenOf.1 hmem
    have hchild := h.child_lt hk hi b
    exact (h.parents (s.child i b) (by omega)).le
  · rw [List.count_eq_zero_of_not_mem hmem]; exact Nat.zero_le 1

/-- A child determines its parent and its side. -/
theorem State.TreeOk.child_inj {s : State} (h : s.TreeOk) {i j : Nat} {b c : Bool} (hi : s.leafCount ≤ i)
    (hi' : i < 2 * s.leafCount - 1) (hj : s.leafCount ≤ j) (hj' : j < 2 * s.leafCount - 1)
    (he : s.child i b = s.child j c) : i = j ∧ b = c := by
  have hnodup := h.nodup_childrenOf
  rw [State.childrenOf_eq_map] at hnodup
  have hmem {m : Nat} {d : Bool} (hm : s.leafCount ≤ m) (hm' : m < 2 * s.leafCount - 1) :
      (m, d) ∈ List.range' s.leafCount (2 * s.leafCount - 1 - s.leafCount) ×ˢ [false, true] :=
    List.mem_product.2 ⟨List.mem_range'_1.2 ⟨hm, by omega⟩, by cases d <;> simp⟩
  exact Prod.mk.inj (List.inj_on_of_nodup_map hnodup (hmem hi hi') (hmem hj hj') he)

/-- A node is reached by one path alone. -/
theorem State.TreeOk.walk_inj {s : State} (h : s.TreeOk) {j : Nat} {xs ys : List Bool} (hk : 1 ≤ s.leafCount)
    (hx : s.walk s.rootidx.toNat xs = some j) (hy : s.walk s.rootidx.toNat ys = some j) : xs = ys := by
  have hroot := h.rootidx
  have hlt : s.rootidx.toNat < 2 * s.leafCount - 1 := by omega
  have hnil {zs : List Bool} (hz : s.walk s.rootidx.toNat zs = some s.rootidx.toNat) : zs = [] := by
    have := h.walk_add_length_le hlt hz
    exact List.length_eq_zero_iff.1 (by omega)
  induction xs using List.reverseRecOn generalizing j ys with
  | nil => obtain rfl : _ = j := Option.some.inj hx; exact (hnil hy).symm
  | append_singleton xs b ih =>
    rcases List.eq_nil_or_concat' ys with rfl | ⟨ys, c, rfl⟩
    · obtain rfl : _ = j := Option.some.inj hy; exact hnil hx
    · obtain ⟨i, hxi, hti, hi⟩ := State.exists_of_walk_snoc hx
      obtain ⟨i', hyi, hti', hi'⟩ := State.exists_of_walk_snoc hy
      have hle := h.walk_add_length_le hlt hxi
      have hle' := h.walk_add_length_le hlt hyi
      obtain ⟨rfl, rfl⟩ := h.child_inj (h.leafCount_le_of_tag hti) (by omega) (h.leafCount_le_of_tag hti') (by omega)
        (hi.trans hi'.symm)
      rw [ih hxi hyi]

/-- Every node is reached from the root. -/
theorem State.TreeOk.exists_walk {s : State} (h : s.TreeOk) {j : Nat} (hj : j < 2 * s.leafCount - 1) :
    ∃ bits, s.walk s.rootidx.toNat bits = some j := by
  have hroot := h.rootidx
  induction hn : 2 * s.leafCount - 2 - j using Nat.strong_induction_on generalizing j with
  | _ n ih =>
    rcases Nat.lt_or_ge j (2 * s.leafCount - 2) with hlt | hge
    · have hmem : j ∈ childrenOf s.node s.leafCount (2 * s.leafCount - 1) :=
        List.one_le_count_iff.1 (h.parents j hlt).ge
      obtain ⟨i, b, hk, hi, rfl⟩ := State.mem_childrenOf.1 hmem
      have hchild := h.child_lt hk hi b
      obtain ⟨bits, hbits⟩ := ih _ (by omega) hi rfl
      exact ⟨bits ++ [b], State.walk_snoc hbits (h.internals i hk hi).tag b⟩
    · exact ⟨[], congrArg some (show s.rootidx.toNat = j by omega)⟩

/-- `depth` says how many branches lead from the root to each node. -/
def State.IsDepth (s : State) (depth : Nat → Nat) : Prop :=
  ∀ bits j, s.walk s.rootidx.toNat bits = some j → bits.length = depth j

theorem State.IsDepth.root {s : State} {depth : Nat → Nat} (h : s.IsDepth depth) : depth s.rootidx.toNat = 0 :=
  (h [] _ rfl).symm

/-- A child is one deeper than its parent. -/
theorem State.IsDepth.child {s : State} {depth : Nat → Nat} (h : s.IsDepth depth) (ht : s.TreeOk) {i : Nat}
    (hi : s.leafCount ≤ i) (hi' : i < 2 * s.leafCount - 1) (b : Bool) : depth (s.child i b) = depth i + 1 := by
  obtain ⟨bits, hbits⟩ := ht.exists_walk hi'
  rw [← h _ _ hbits, ← h _ _ (State.walk_snoc hbits (ht.internals i hi hi').tag b), List.length_append,
    List.length_singleton]

theorem State.TreeOk.exists_isDepth {s : State} (h : s.TreeOk) (hk : 1 ≤ s.leafCount) :
    ∃ depth : Nat → Nat, s.IsDepth depth := by
  have hone (j : Nat) : ∃ n, ∀ bits, s.walk s.rootidx.toNat bits = some j → bits.length = n := by
    by_cases hpath : ∃ bits, s.walk s.rootidx.toNat bits = some j
    · obtain ⟨bits, hbits⟩ := hpath
      exact ⟨bits.length, fun bits' hbits' => by rw [h.walk_inj hk hbits' hbits]⟩
    · exact ⟨0, fun bits hbits => absurd ⟨bits, hbits⟩ hpath⟩
  choose depth hdepth using hone
  exact ⟨depth, fun bits j => hdepth j bits⟩

/-! ## Codes and leaves -/

theorem State.Inv.treeOk_of_ready {s : State} (h : s.Inv) (hp : s.phase = .ready) : s.TreeOk :=
  h.tree (by rw [hp]; decide)

/-- In READY with two symbols or more, the code of a present symbol leads to its leaf (46_properties.md R187). -/
theorem State.CodesOk.exists_leaf {s : State} (h : s.CodesOk) (hk : 2 ≤ s.leafCount) {c : Symbol}
    (hc : s.freqAt c ≠ 0#32) :
    ∃ i < s.leafCount, s.walk s.rootidx.toNat (s.codeBits c) = some i ∧ s.nodeAt i = .leaf c (s.freqAt c) :=
  (h.entries c ((h.valid_iff c).2 hc)).path hk

/-- Nothing follows a leaf: a path to a leaf that begins another path is that path (46_properties.md R180). -/
theorem State.TreeOk.eq_of_walk_prefix {s : State} (h : s.TreeOk) {r i j : Nat} {xs ys : List Bool}
    (hi : i < s.leafCount) (hx : s.walk r xs = some i) (hy : s.walk r ys = some j) (hpre : xs <+: ys) : i = j := by
  obtain ⟨zs, rfl⟩ := hpre
  rw [State.walk_append, hx, Option.bind_some] at hy
  by_cases hz : zs = []
  · rw [hz] at hy; exact Option.some.inj hy
  · rw [State.walk_leaf (h.tag_leaf hi) hz] at hy; cases hy

/-- Settles O52: a beginning of a code that is a code ends at a leaf, so it is the whole code and of the same symbol. -/
theorem codesPrefixFree : Obligations.CodesPrefixFree := by
  intro s hinv hp hk a ha b hb hne hpre
  have htree : s.TreeOk := hinv.treeOk_of_ready hp
  obtain ⟨i, hi, hwalka, hleafa⟩ := (hinv.codes hp).exists_leaf hk (mem_presentSymbols.1 ha)
  obtain ⟨j, hj, hwalkb, hleafb⟩ := (hinv.codes hp).exists_leaf hk (mem_presentSymbols.1 hb)
  obtain rfl := htree.eq_of_walk_prefix hi hwalka hwalkb hpre
  rw [hleafa] at hleafb
  injection hleafb with hsym
  exact hne hsym

/-- Node i below k is the leaf of the i-th present symbol. -/
theorem State.TreeOk.nodeAt_leaf {s : State} (h : s.TreeOk) {i : Nat} (hi : i < s.leafCount) :
    s.presentSymbols[i]? = some (s.nodeAt i).sym ∧
      s.nodeAt i = .leaf (s.nodeAt i).sym (s.freqAt (s.nodeAt i).sym) := by
  obtain ⟨c, hc, hleaf⟩ := h.leaves i hi
  rw [hleaf]
  exact ⟨hc, rfl⟩

/-- A leaf weighs the count of its symbol. -/
theorem State.TreeOk.weightAt_leaf {s : State} (h : s.TreeOk) {i : Nat} (hi : i < s.leafCount) :
    weightAt s.node i = (s.freqAt (s.nodeAt i).sym).toNat :=
  congrArg (·.weight.toNat) (h.nodeAt_leaf hi).2

/-- A sum over the present symbols is a sum over the leaves. -/
theorem State.TreeOk.sum_presentSymbols {M : Type} [AddCommMonoid M] {s : State} (h : s.TreeOk) (f : Symbol → M) :
    (s.presentSymbols.map f).sum = ∑ i ∈ range s.leafCount, f (s.nodeAt i).sym := by
  have hsyms : s.presentSymbols = (List.range s.leafCount).map fun i => (s.nodeAt i).sym := by
    refine List.ext_getElem? fun i => ?_
    rcases Nat.lt_or_ge i s.leafCount with hi | hi
    · rw [(h.nodeAt_leaf hi).1, List.getElem?_map, List.getElem?_range hi, Option.map_some]
    · rw [List.getElem?_eq_none (h.count ▸ hi), List.getElem?_eq_none (by simpa using hi)]
  rw [hsyms, List.map_map]
  rfl

/-- The code of a leaf's symbol is as long as the leaf is deep. -/
theorem State.CodesOk.length_eq_depth {s : State} (h : s.CodesOk) (ht : s.TreeOk) (hk : 2 ≤ s.leafCount)
    {depth : Nat → Nat} (hdepth : s.IsDepth depth) {i : Nat} (hi : i < s.leafCount) :
    (s.codeBits (s.nodeAt i).sym).length = depth i := by
  obtain ⟨hc, hleaf⟩ := ht.nodeAt_leaf hi
  obtain ⟨j, hj, hwalk, hleaf'⟩ := h.exists_leaf hk (mem_presentSymbols.1 (List.mem_of_getElem? hc))
  obtain rfl := ht.leaf_unique hi hj hleaf hleaf'
  exact hdepth _ _ hwalk

/-! ## The nodes waiting in `PQ` at each merge (42_treebuilder.md R124) -/

/-- The nodes in `PQ` when node `n` is next: those below it that no merge has taken. -/
def State.waiting (s : State) (n : Nat) : Finset Nat :=
  (range n).filter (· ∉ childrenOf s.node s.leafCount n)

/-- The nodes that merge i leaves in `PQ`. -/
def State.staying (s : State) (i : Nat) : Finset Nat := ((s.waiting i).erase (s.child i false)).erase (s.child i true)

theorem State.mem_waiting {s : State} {n j : Nat} :
    j ∈ s.waiting n ↔ j < n ∧ j ∉ childrenOf s.node s.leafCount n := by
  rw [State.waiting, Finset.mem_filter, Finset.mem_range]

theorem State.mem_staying {s : State} {i j : Nat} :
    j ∈ s.staying i ↔ j ≠ s.child i true ∧ j ≠ s.child i false ∧ j ∈ s.waiting i := by
  rw [State.staying, Finset.mem_erase, Finset.mem_erase]

theorem State.lt_of_mem_staying {s : State} {i j : Nat} (h : j ∈ s.staying i) : j < i := by
  obtain ⟨_, _, hwaiting⟩ := State.mem_staying.1 h
  exact (State.mem_waiting.1 hwaiting).1

/-- Before the first merge the leaves wait. -/
theorem State.waiting_leafCount (s : State) : s.waiting s.leafCount = range s.leafCount := by
  ext j
  rw [State.mem_waiting, Finset.mem_range, State.mem_childrenOf]
  exact and_iff_left fun ⟨i, _, hk, hi, _⟩ => absurd hi (Nat.not_lt.2 hk)

/-- After the last merge the root alone waits. -/
theorem State.TreeOk.waiting_end {s : State} (h : s.TreeOk) (hk : 1 ≤ s.leafCount) :
    s.waiting (2 * s.leafCount - 1) = {s.rootidx.toNat} := by
  have hroot := h.rootidx
  ext j
  rw [State.mem_waiting, Finset.mem_singleton]
  constructor
  · rintro ⟨hj, hnot⟩
    by_contra hne
    exact hnot (List.one_le_count_iff.1 (h.parents j (by omega)).ge)
  · rintro rfl
    refine ⟨by omega, fun hmem => ?_⟩
    obtain ⟨i, b, hi, hi', hb⟩ := State.mem_childrenOf.1 hmem
    have := h.child_lt hi hi' b
    omega

section
variable {s : State} (h : s.TreeOk) {i : Nat} (hi : s.leafCount ≤ i) (hi' : i < 2 * s.leafCount - 1)
include h hi hi'

/-- The children of node i wait until merge i, which takes them. -/
theorem State.TreeOk.child_mem_waiting (b : Bool) : s.child i b ∈ s.waiting i := by
  refine State.mem_waiting.2 ⟨h.child_lt hi hi' b, fun hmem => ?_⟩
  obtain ⟨j, c, hj, hj', hc⟩ := State.mem_childrenOf.1 hmem
  exact hj'.ne (h.child_inj hj (by omega) hi hi' hc).1

theorem State.TreeOk.left_ne_right : s.child i false ≠ s.child i true := fun he =>
  Bool.false_ne_true (h.child_inj hi hi' hi hi' he).2

/-- Merge i takes its two children and puts node i in. -/
theorem State.TreeOk.waiting_succ : s.waiting (i + 1) = insert i (s.staying i) := by
  have hl := h.child_lt hi hi' false
  have hr := h.child_lt hi hi' true
  have hchildren : childrenOf s.node s.leafCount (i + 1) =
      childrenOf s.node s.leafCount i ++ [s.child i false, s.child i true] := childrenOf_succ hi
  have hself : i ∉ childrenOf s.node s.leafCount i := fun hmem => by
    obtain ⟨j, b, hj, hj', hb⟩ := State.mem_childrenOf.1 hmem
    have := h.child_lt hj (by omega) b
    omega
  ext j
  simp only [Finset.mem_insert, State.mem_staying, State.mem_waiting, hchildren, List.mem_append, List.mem_cons,
    List.not_mem_nil, or_false, not_or]
  constructor
  · rintro ⟨hj, hnot, hnl, hnr⟩
    rcases Nat.lt_succ_iff_lt_or_eq.1 hj with hlt | heq
    · exact .inr ⟨hnr, hnl, hlt, hnot⟩
    · exact .inl heq
  · rintro (rfl | ⟨hnr, hnl, hlt, hnot⟩)
    · exact ⟨Nat.lt_succ_self _, hself, hl.ne', hr.ne'⟩
    · exact ⟨Nat.lt_succ_of_lt hlt, hnot, hnl, hnr⟩

/-- The right child of node i precedes all else that waits at merge i but the left one. -/
theorem State.TreeOk.right_precedes {j : Nat} (hj : j ∈ s.waiting i) (hleft : j ≠ s.child i false)
    (hright : j ≠ s.child i true) : precedes s.node (s.child i true) j = true := by
  obtain ⟨hlt, hfree⟩ := State.mem_waiting.1 hj
  exact h.greedy i hi hi' j hlt hfree hleft hright

/-- The left child of node i precedes all else that waits at merge i. -/
theorem State.TreeOk.left_precedes {j : Nat} (hj : j ∈ s.waiting i) (hleft : j ≠ s.child i false) :
    precedes s.node (s.child i false) j = true := by
  have horder := (h.internals i hi hi').order
  by_cases hright : j = s.child i true
  · exact hright ▸ horder
  · exact precedes_trans horder (h.right_precedes hi hi' hj hleft hright)

/-- An internal node weighs what its children weigh. -/
theorem State.TreeOk.weightAt_internal :
    weightAt s.node i = weightAt s.node (s.child i false) + weightAt s.node (s.child i true) :=
  (h.internals i hi hi').weight

/-- A sum over the nodes waiting at merge i, with the two children apart. -/
theorem State.TreeOk.sum_waiting {M : Type} [AddCommMonoid M] (f : Nat → M) : ∑ j ∈ s.waiting i, f j =
    f (s.child i false) + (f (s.child i true) + ∑ j ∈ s.staying i, f j) := by
  have hleft := h.child_mem_waiting hi hi' false
  have hright := Finset.mem_erase.2 ⟨(h.left_ne_right hi hi').symm, h.child_mem_waiting hi hi' true⟩
  rw [State.staying, Finset.add_sum_erase _ f hright, Finset.add_sum_erase _ f hleft]

/-- A sum over the nodes waiting after merge i, with the new node apart. -/
theorem State.TreeOk.sum_waiting_succ {M : Type} [AddCommMonoid M] (f : Nat → M) : ∑ j ∈ s.waiting (i + 1), f j =
    f i + ∑ j ∈ s.staying i, f j := by
  rw [h.waiting_succ hi hi', Finset.sum_insert]
  intro hmem
  exact Nat.lt_irrefl i (State.lt_of_mem_staying hmem)

end

/-- Telescoping over the merges: if each replaces the terms of two children by their parent's and a gain, the sum over the
leaves is the root's term and all the gains. -/
theorem State.TreeOk.sum_leaves {M : Type} [AddCommMonoid M] {s : State} (h : s.TreeOk) (hk : 1 ≤ s.leafCount)
    (f gain : Nat → M)
    (hmerge : ∀ i, s.leafCount ≤ i → i < 2 * s.leafCount - 1 →
      f (s.child i false) + f (s.child i true) = f i + gain i) :
    ∑ i ∈ range s.leafCount, f i = f s.rootidx.toNat + ∑ i ∈ Ico s.leafCount (2 * s.leafCount - 1), gain i := by
  have hstage (n : Nat) (hn : s.leafCount ≤ n) (hn' : n ≤ 2 * s.leafCount - 1) :
      ∑ j ∈ range s.leafCount, f j = ∑ j ∈ s.waiting n, f j + ∑ i ∈ Ico s.leafCount n, gain i := by
    induction n, hn using Nat.le_induction with
    | base => rw [State.waiting_leafCount, Finset.Ico_self, Finset.sum_empty, add_zero]
    | succ n hn ih =>
      rw [ih (by omega), h.sum_waiting hn hn', h.sum_waiting_succ hn hn', Finset.sum_Ico_succ_top hn, ← add_assoc,
        hmerge n hn hn']
      abel
  rw [hstage _ (by omega) le_rfl, h.waiting_end hk, Finset.sum_singleton]

/-! ## The Kraft sum and the total weighted length (46_properties.md R181, R185) -/

/-- A tree of one leaf: its symbol is the only one present. -/
theorem State.TreeOk.presentSymbols_of_one {s : State} (h : s.TreeOk) (hk : s.leafCount = 1) :
    ∃ c, s.presentSymbols = [c] := List.length_eq_one_iff.1 (h.count.symm.trans hk)

/-- One symbol: its code is one bit long (43_codegen.md R143). -/
theorem State.CodesOk.codeBits_of_one {s : State} (h : s.CodesOk) (hk : s.leafCount = 1) {c : Symbol}
    (hc : c ∈ s.presentSymbols) : s.codeBits c = [false] :=
  (h.entries c ((h.valid_iff c).2 (mem_presentSymbols.1 hc))).single hk

/-- With 2 ^ (-depth) for each node a merge replaces two halves by their whole: the leaves sum up to the root's 1. -/
theorem State.TreeOk.sum_half_pow_depth {s : State} (h : s.TreeOk) (hk : 1 ≤ s.leafCount) {depth : Nat → Nat}
    (hdepth : s.IsDepth depth) :
    ∑ i ∈ range s.leafCount, (1 / 2 : ℝ) ^ depth i = 1 := by
  have hsum := h.sum_leaves hk (fun i => (1 / 2 : ℝ) ^ depth i) (fun _ => 0) fun i hi hi' => by
    rw [hdepth.child h hi hi', hdepth.child h hi hi']; ring
  rw [hsum, Finset.sum_const_zero, add_zero, hdepth.root, pow_zero]

/-- A code's share in units of 2 ^ (-256) is a natural number. -/
theorem two_pow_codemax_sub {n : Nat} (hn : n ≤ 256) :
    ((2 ^ (Config.codemax - n) : Nat) : ℝ) = 2 ^ 256 * (1 / 2) ^ n := by
  rw [Nat.cast_pow, Nat.cast_ofNat, pow_sub₀ _ two_ne_zero hn, one_div, inv_pow]

/-- Settles O53: the leaves' shares sum up to the root's, and one symbol has a code of one bit. -/
theorem codesKraftEquality : Obligations.CodesKraftEquality := by
  intro s hinv hp
  have htree : s.TreeOk := hinv.treeOk_of_ready hp
  have hcodes := hinv.codes hp
  refine ⟨fun hk => ?_, fun hk => ?_⟩
  · obtain ⟨depth, hdepth⟩ := htree.exists_isDepth (by omega)
    have hshare (i : Nat) (hi : i ∈ range s.leafCount) :
        ((2 ^ (Config.codemax - (s.codeBits (s.nodeAt i).sym).length) : Nat) : ℝ) = 2 ^ 256 * (1 / 2) ^ depth i := by
      have hi := Finset.mem_range.1 hi
      have hpresent := mem_presentSymbols.1 (List.mem_of_getElem? (htree.nodeAt_leaf hi).1)
      have hle := hinv.len_le ((hcodes.valid_iff _).2 hpresent)
      rw [← State.codeBits_length] at hle
      rw [two_pow_codemax_sub hle, hcodes.length_eq_depth htree hk hdepth hi]
    have hsum : (s.kraftSum : ℝ) = 2 ^ 256 := by
      rw [State.kraftSum, htree.sum_presentSymbols, Nat.cast_sum, Finset.sum_congr rfl hshare, ← Finset.mul_sum,
        htree.sum_half_pow_depth (by omega) hdepth, mul_one]
    exact_mod_cast hsum
  · obtain ⟨c, hc⟩ := htree.presentSymbols_of_one hk
    have hcode := hcodes.codeBits_of_one hk (c := c) (by rw [hc]; exact .head _)
    rw [State.kraftSum, hc, List.map_singleton, List.sum_singleton, hcode]
    rfl

/-- With weight times depth for each node a merge replaces two children's terms by their parent's and its weight. -/
theorem State.TreeOk.sum_weight_mul_depth {s : State} (h : s.TreeOk) (hk : 1 ≤ s.leafCount) {depth : Nat → Nat}
    (hdepth : s.IsDepth depth) :
    ∑ i ∈ range s.leafCount, weightAt s.node i * depth i =
      ∑ i ∈ Ico s.leafCount (2 * s.leafCount - 1), weightAt s.node i := by
  have hsum := h.sum_leaves hk (fun i => weightAt s.node i * depth i) (weightAt s.node) fun i hi hi' => by
    rw [hdepth.child h hi hi', hdepth.child h hi hi', h.weightAt_internal hi hi']
    ring
  rw [hsum, hdepth.root, Nat.mul_zero, Nat.zero_add]

/-- The internal nodes as a set of indices. -/
theorem State.internalWeight_eq {s : State} :
    s.internalWeight = ∑ i ∈ Ico s.leafCount (2 * s.leafCount - 1), weightAt s.node i := by
  have hlen : s.leafCount - 1 = 2 * s.leafCount - 1 - s.leafCount := by omega
  rw [State.internalWeight, hlen]
  rfl

theorem State.Inv.weightedLength_eq {s : State} (hinv : s.Inv) (hp : s.phase = .ready) (hk : 2 ≤ s.leafCount) :
    s.weightedLength = s.internalWeight := by
  have htree : s.TreeOk := hinv.treeOk_of_ready hp
  obtain ⟨depth, hdepth⟩ := htree.exists_isDepth (by omega)
  rw [State.weightedLength, htree.sum_presentSymbols, State.internalWeight_eq,
    ← htree.sum_weight_mul_depth (by omega) hdepth]
  refine Finset.sum_congr rfl fun i hi => ?_
  have hi := Finset.mem_range.1 hi
  rw [(hinv.codes hp).length_eq_depth htree hk hdepth hi, htree.weightAt_leaf hi]

/-- Settles O54: the leaves' weights times their depths are the weights of the internal nodes. -/
theorem weightedLengthIsInternalWeight : Obligations.WeightedLengthIsInternalWeight :=
  fun _ hinv hp hk => hinv.weightedLength_eq hp hk

end Sys2Proof.Machine
end

section
/-! PROOFS. Optimality of the codes (46_properties.md R181, O55). -/

namespace Sys2Proof.Machine

open Finset (Ico)

/-! ## Kraft's inequality for codes none of which begins another -/

/-- Words none of which is empty or begins another are uniquely decodable: two decompositions of one string agree in the
first word, and so on. -/
theorem uniquelyDecodable_of_prefix_eq {S : Set (List Bool)} (hnil : [] ∉ S)
    (hpre : ∀ x ∈ S, ∀ y ∈ S, x <+: y → x = y) : InformationTheory.UniquelyDecodable S := by
  have hempty {L : List (List Bool)} (hL : ∀ w ∈ L, w ∈ S) (he : L.flatten = []) : L = [] :=
    List.eq_nil_iff_forall_not_mem.2 fun w hw => hnil (List.flatten_eq_nil_iff.1 he w hw ▸ hL w hw)
  intro L₁
  induction L₁ with
  | nil => exact fun L₂ _ hL₂ he => (hempty hL₂ he.symm).symm
  | cons x L₁ ih =>
    intro L₂ hL₁ hL₂ he
    cases L₂ with
    | nil => exact hempty hL₁ he
    | cons y L₂ =>
      have hx := hL₁ x (List.mem_cons_self ..)
      have hy := hL₂ y (List.mem_cons_self ..)
      rw [List.flatten_cons, List.flatten_cons] at he
      have hxy : x = y := by
        rcases List.prefix_or_prefix_of_prefix ⟨_, rfl⟩ ⟨_, he.symm⟩ with h | h
        · exact hpre x hx y hy h
        · exact (hpre y hy x hx h).symm
      subst hxy
      rw [ih L₂ (fun w hw => hL₁ w (List.mem_cons_of_mem _ hw)) (fun w hw => hL₂ w (List.mem_cons_of_mem _ hw))
        (List.append_cancel_left he)]

/-- Kraft's inequality for a `PrefixFree` code of two symbols or more. -/
theorem PrefixFree.kraft {syms : List Symbol} {code : Symbol → List Bool} (h : PrefixFree syms code)
    (hnodup : syms.Nodup) (htwo : 2 ≤ syms.length) : (syms.map fun c => (1 / 2 : ℝ) ^ (code c).length).sum ≤ 1 := by
  have hpre (a : Symbol) (ha : a ∈ syms) (b : Symbol) (hb : b ∈ syms) (hab : code a <+: code b) : a = b :=
    by_contra fun hne => h a ha b hb hne hab
  have hdec : InformationTheory.UniquelyDecodable ((syms.map code).toFinset : Set (List Bool)) := by
    refine uniquelyDecodable_of_prefix_eq ?_ ?_
    · rw [Finset.mem_coe, List.mem_toFinset, List.mem_map]
      rintro ⟨c, hc, hnil⟩
      have hone : syms ⊆ [c] := fun d hd => List.mem_singleton.2 (hpre c hc d hd (hnil ▸ List.nil_prefix)).symm
      exact absurd (hnodup.subperm hone).length_le (Nat.not_le.2 htwo)
    · simp only [Finset.mem_coe, List.mem_toFinset, List.mem_map]
      rintro _ ⟨a, ha, rfl⟩ _ ⟨b, hb, rfl⟩ hab
      rw [hpre a ha b hb hab]
  have hmap : (syms.map code).Nodup := hnodup.map_on fun a ha b hb he => hpre a ha b hb (he ▸ List.prefix_refl _)
  have hkraft := InformationTheory.kraft_mcmillan_inequality hdec
  rw [List.sum_toFinset _ hmap, List.map_map, Fintype.card_bool] at hkraft
  exact hkraft

/-! ## The two lightest can be the two deepest -/

/-- The lengths `len'` are `len` rearranged within `B`, the longest to `a`, at no more cost. -/
structure Deepens (w : Nat → Nat) (B : Finset Nat) (a : Nat) (len len' : Nat → Nat) : Prop where
  longest : ∀ j ∈ B, len' j ≤ len' a
  among : ∃ p ∈ B, len' a = len p
  share : ∑ j ∈ B, (1 / 2 : ℝ) ^ len' j = ∑ j ∈ B, (1 / 2 : ℝ) ^ len j
  cost : ∑ j ∈ B, w j * len' j ≤ ∑ j ∈ B, w j * len j

/-- Giving the longer of two lengths to the lighter node costs no more. -/
theorem sum_mul_swap_le {w len : Nat → Nat} {B : Finset Nat} {a p : Nat} (ha : a ∈ B) (hp : p ∈ B) (hw : w a ≤ w p)
    (hlen : len a ≤ len p) : ∑ j ∈ B, w j * len (Equiv.swap a p j) ≤ ∑ j ∈ B, w j * len j := by
  rcases eq_or_ne p a with rfl | hne
  · simp
  · have hp' := Finset.mem_erase.2 ⟨hne, hp⟩
    have hrest : ∑ j ∈ (B.erase a).erase p, w j * len (Equiv.swap a p j) = ∑ j ∈ (B.erase a).erase p, w j * len j :=
      Finset.sum_congr rfl fun j hj => by
        obtain ⟨hjp, hja, -⟩ : j ≠ p ∧ j ≠ a ∧ j ∈ B := by simpa using hj
        rw [Equiv.swap_apply_of_ne_of_ne hja hjp]
    rw [← Finset.add_sum_erase B _ ha, ← Finset.add_sum_erase B _ ha, ← Finset.add_sum_erase _ _ hp',
      ← Finset.add_sum_erase _ _ hp', hrest, Equiv.swap_apply_left, Equiv.swap_apply_right]
    have hswap := mul_add_mul_le_mul_add_mul hw hlen
    linarith

/-- The lightest member can be made the deepest. -/
theorem exists_deepens {w : Nat → Nat} {B : Finset Nat} {a : Nat} (ha : a ∈ B) (hw : ∀ j ∈ B, w a ≤ w j)
    (len : Nat → Nat) : ∃ len', Deepens w B a len len' := by
  obtain ⟨p, hp, hmax⟩ := Finset.exists_max_image B len ⟨a, ha⟩
  have hinside {j : Nat} (hj : j ∈ B) : Equiv.swap a p j ∈ B := by
    rw [Equiv.swap_apply_def]
    split
    · exact hp
    · split
      · exact ha
      · exact hj
  have houtside {j : Nat} (hj : j ∉ B) : Equiv.swap a p j = j :=
    Equiv.swap_apply_of_ne_of_ne (fun he => hj (he ▸ ha)) (fun he => hj (he ▸ hp))
  exact ⟨fun j => len (Equiv.swap a p j), {
    longest := fun j hj => by rw [Equiv.swap_apply_left]; exact hmax _ (hinside hj)
    among := ⟨p, hp, by rw [Equiv.swap_apply_left]⟩
    share := Equiv.Perm.sum_comp _ B (fun j => (1 / 2 : ℝ) ^ len j) fun j hj => not_not.1 (mt houtside hj)
    cost := sum_mul_swap_le ha hp (hw p hp) (hmax a ha) }⟩

/-- Shares no finer than 2 ^ (-n) that leave room leave room for one share of 2 ^ (-n). -/
theorem sum_half_pow_add_le_one {B : Finset Nat} {len : Nat → Nat} {n : Nat} (hle : ∀ j ∈ B, len j ≤ n)
    (hlt : ∑ j ∈ B, (1 / 2 : ℝ) ^ len j < 1) : ∑ j ∈ B, (1 / 2 : ℝ) ^ len j + (1 / 2) ^ n ≤ 1 := by
  have hscale : ∑ j ∈ B, (1 / 2 : ℝ) ^ len j = (∑ j ∈ B, 2 ^ (n - len j) : Nat) * (1 / 2) ^ n := by
    rw [Nat.cast_sum, Finset.sum_mul]
    refine Finset.sum_congr rfl fun j hj => ?_
    rw [Nat.cast_pow, Nat.cast_ofNat, pow_sub₀ _ two_ne_zero (hle j hj), one_div, inv_pow, inv_pow]
    field_simp
  have hunit : ((2 ^ n : Nat) : ℝ) * (1 / 2) ^ n = 1 := by
    rw [Nat.cast_pow, Nat.cast_ofNat, ← mul_pow]; norm_num
  have hpos : (0 : ℝ) < (1 / 2) ^ n := by positivity
  rw [hscale] at hlt ⊢
  have hcount := Nat.cast_lt.1 (lt_of_mul_lt_mul_right (hlt.trans_eq hunit.symm) hpos.le)
  calc _ = ((∑ j ∈ B, 2 ^ (n - len j) + 1 : Nat) : ℝ) * (1 / 2) ^ n := by rw [Nat.cast_add_one]; ring
    _ ≤ ((2 ^ n : Nat) : ℝ) * (1 / 2) ^ n := mul_le_mul_of_nonneg_right (Nat.cast_le.2 hcount) hpos.le
    _ = 1 := hunit

/-- With the two lightest nodes made the deepest, one node a branch above can stand for both: Kraft's inequality stays,
and the cost falls by the weight of the two at least. -/
theorem exists_merged {w len : Nat → Nat} {A : Finset Nat} {a b : Nat} (ha : a ∈ A) (hb : b ∈ A.erase a)
    (hlighta : ∀ j ∈ A, w a ≤ w j) (hlightb : ∀ j ∈ A.erase a, w b ≤ w j)
    (hkraft : ∑ j ∈ A, (1 / 2 : ℝ) ^ len j ≤ 1) :
    ∃ (len' : Nat → Nat) (m : Nat), (1 / 2 : ℝ) ^ m + ∑ j ∈ (A.erase a).erase b, (1 / 2 : ℝ) ^ len' j ≤ 1 ∧
      (w a + w b) * (m + 1) + ∑ j ∈ (A.erase a).erase b, w j * len' j ≤ ∑ j ∈ A, w j * len j := by
  obtain ⟨len₁, h₁⟩ := exists_deepens ha hlighta len
  obtain ⟨len₂, h₂⟩ := exists_deepens hb hlightb len₁
  have hdeep : len₂ b ≤ len₁ a := by
    obtain ⟨p, hp, he⟩ := h₂.among
    exact he ▸ h₁.longest p (Finset.mem_of_mem_erase hp)
  have hshare := h₁.share
  rw [← Finset.add_sum_erase A _ ha, ← h₂.share, ← Finset.add_sum_erase _ _ hb] at hshare
  have hcost := h₁.cost
  rw [← Finset.add_sum_erase A (fun j => w j * len₁ j) ha] at hcost
  have hcost₂ := h₂.cost
  rw [← Finset.add_sum_erase (A.erase a) (fun j => w j * len₂ j) hb] at hcost₂
  have hposa : (0 : ℝ) < (1 / 2) ^ len₁ a := by positivity
  have hposb : (0 : ℝ) < (1 / 2) ^ len₂ b := by positivity
  have hroom := sum_half_pow_add_le_one (B := A.erase a) (n := len₂ b) h₂.longest (by
    rw [← Finset.add_sum_erase _ _ hb]; linarith)
  rw [← Finset.add_sum_erase _ _ hb] at hroom
  obtain ⟨m, hm⟩ : ∃ m, len₂ b = m + 1 := by
    refine Nat.exists_eq_succ_of_ne_zero fun h0 => ?_
    have hnonneg : (0 : ℝ) ≤ ∑ j ∈ (A.erase a).erase b, (1 / 2) ^ len₂ j := Finset.sum_nonneg fun _ _ => by positivity
    rw [h0, pow_zero] at hroom
    linarith
  refine ⟨len₂, m, ?_, ?_⟩
  · rw [hm, pow_succ] at hroom
    linarith
  · rw [hm] at hcost₂ hdeep
    have := Nat.mul_le_mul_left (w a) hdeep
    linarith

/-! ## The greedy merges are optimal (46_properties.md R181) -/

theorem weightAt_le_of_precedes {node : Table TreeNode} {i j : Nat} (h : precedes node i j = true) :
    weightAt node i ≤ weightAt node j := by
  rcases precedes_iff.1 h with hlt | ⟨heq, -⟩
  · exact hlt.le
  · exact heq.le

section
variable {s : State} (h : s.TreeOk) {n : Nat} (hn : s.leafCount ≤ n) (hn' : n < 2 * s.leafCount - 1)
include h hn hn'

/-- Merge n takes first the lightest of the nodes that wait (42_treebuilder.md R124). -/
theorem State.TreeOk.weightAt_left_le {j : Nat} (hj : j ∈ s.waiting n) :
    weightAt s.node (s.child n false) ≤ weightAt s.node j := by
  rcases eq_or_ne j (s.child n false) with rfl | hne
  · exact le_rfl
  · exact weightAt_le_of_precedes (h.left_precedes hn hn' hj hne)

/-- Merge n takes second the lightest of the rest (42_treebuilder.md R124). -/
theorem State.TreeOk.weightAt_right_le {j : Nat} (hj : j ∈ (s.waiting n).erase (s.child n false)) :
    weightAt s.node (s.child n true) ≤ weightAt s.node j := by
  obtain ⟨hleft, hj⟩ := Finset.mem_erase.1 hj
  rcases eq_or_ne j (s.child n true) with rfl | hne
  · exact le_rfl
  · exact weightAt_le_of_precedes (h.right_precedes hn hn' hj hleft hne)

/-- A sum over the nodes waiting after merge n, of terms in lengths that give node n the length m. -/
theorem State.TreeOk.sum_waiting_succ_update {M : Type} [AddCommMonoid M] (f : Nat → Nat → M) (len : Nat → Nat)
    (m : Nat) : ∑ j ∈ s.waiting (n + 1), f j (Function.update len n m j) = f n m + ∑ j ∈ s.staying n, f j (len j) := by
  rw [h.sum_waiting_succ hn hn', Function.update_self]
  refine congrArg _ (Finset.sum_congr rfl fun j hj => ?_)
  rw [Function.update_of_ne (State.lt_of_mem_staying hj).ne]

end

/-- The weight of the nodes still to be made is a lower bound on the cost of any lengths for the waiting nodes that obey
Kraft's inequality: by induction from the last merge back. -/
theorem State.TreeOk.le_cost_of_kraft {s : State} (h : s.TreeOk) {n : Nat} (hn : s.leafCount ≤ n)
    (hn' : n ≤ 2 * s.leafCount - 1) {len : Nat → Nat} (hkraft : ∑ j ∈ s.waiting n, (1 / 2 : ℝ) ^ len j ≤ 1) :
    ∑ i ∈ Ico n (2 * s.leafCount - 1), weightAt s.node i ≤ ∑ j ∈ s.waiting n, weightAt s.node j * len j := by
  induction hn' using Nat.decreasingInduction generalizing len with
  | self => rw [Finset.Ico_self, Finset.sum_empty]; exact Nat.zero_le _
  | of_succ n hlt ih =>
    have hright := Finset.mem_erase.2 ⟨(h.left_ne_right hn hlt).symm, h.child_mem_waiting hn hlt true⟩
    obtain ⟨len', m, hkraft', hcost⟩ := exists_merged (h.child_mem_waiting hn hlt false) hright
      (fun _ => h.weightAt_left_le hn hlt) (fun _ => h.weightAt_right_le hn hlt) hkraft
    have hnext := ih (len := Function.update len' n m) (by omega)
      (by rw [h.sum_waiting_succ_update hn hlt fun _ l => (1 / 2 : ℝ) ^ l]; exact hkraft')
    rw [h.sum_waiting_succ_update hn hlt fun j l => weightAt s.node j * l, h.weightAt_internal hn hlt,
      State.staying] at hnext
    rw [Finset.sum_eq_sum_Ico_succ_bot hlt, h.weightAt_internal hn hlt]
    linarith

/-- Settles O55: the total weighted length is the weight of all merges, which no lengths that obey Kraft's inequality
undercut; one symbol has a code of one bit. -/
theorem codesOptimal : Obligations.CodesOptimal := by
  intro s hinv hp
  have htree : s.TreeOk := hinv.treeOk_of_ready hp
  refine ⟨fun hk code hfree => ?_, fun hk => ?_⟩
  · have hkraft := hfree.kraft (nodup_presentSymbols s) (htree.count ▸ hk)
    rw [htree.sum_presentSymbols, ← State.waiting_leafCount] at hkraft
    have hcost := htree.le_cost_of_kraft le_rfl (by omega) hkraft
    rw [hinv.weightedLength_eq hp hk, State.internalWeight_eq, htree.sum_presentSymbols]
    refine hcost.trans_eq ?_
    rw [State.waiting_leafCount]
    refine Finset.sum_congr rfl fun i hi => ?_
    rw [← htree.weightAt_leaf (Finset.mem_range.1 hi)]
  · obtain ⟨c, hc⟩ := htree.presentSymbols_of_one hk
    have hcode := (hinv.codes hp).codeBits_of_one hk (c := c) (by rw [hc]; exact .head _)
    rw [State.weightedLength, freqTotal_eq, hc, List.map_singleton, List.map_singleton, hcode, List.length_singleton,
      Nat.mul_one]

end Sys2Proof.Machine
end

section
/-! PROOFS. Encoding and decoding a text (46_properties.md R183, R188): the round trip (O56) and the encoded corpus (O57). -/

namespace Sys2Proof.Machine

/-! ## What encoding leaves of the tree and the codes -/

/-- ENC writes neither the tree nor the code table (20_memory.md R65). -/
theorem execEnc_codePart {c : Symbol} {s t : State} (h : exec (.enc c) s = .next t) : t.codePart = s.codePart := by
  rcases execEnc_cases h with ⟨_, rfl⟩ | ⟨_, _, rfl⟩ | ⟨_, _, _, rfl⟩ | ⟨_, _, _, rfl⟩ <;> rfl

theorem execAll_encodeText_codePart (text : List Symbol) {s t : State} (h : execAll (encodeText text) s = .next t) :
    t.codePart = s.codePart := by
  induction text generalizing s with
  | nil => cases h; rfl
  | cons c text ih =>
    obtain ⟨u, hu⟩ := exec_answers (.enc c) s
    exact (ih ((execAll_cons_of_next hu).symm.trans h)).trans (execEnc_codePart hu)

theorem State.outBits_of_empty {s : State} (h : s.outLen = 0#17) : s.outBits = [] := by
  simp [State.outBits, Code.render, BitVector.render, State.outCode, h]

/-- Encoding into an empty `OUT`: it holds the codes of the known characters, and tree and codes are as they were. -/
theorem State.Inv.encode_of_empty {s : State} (hinv : s.Inv) (hp : s.phase = .ready) (hempty : s.outLen = 0#17)
    {text : List Symbol} (hfit : ((s.knownText text).map fun c => (s.ctAt c).len.toNat).sum ≤ Config.outmax) :
    ∃ t, execAll (encodeText text) s = .next t ∧ t.outBits = (s.knownText text).flatMap s.codeBits ∧
      t.outLen.toNat = ((s.knownText text).map fun c => (s.ctAt c).len.toNat).sum ∧ t.codePart = s.codePart := by
  have hlen : s.outLen.toNat = 0 := by rw [hempty, BitVec.toNat_zero]
  obtain ⟨t, hexec, henc⟩ := execAll_encodeText text hinv.out hp (by rw [hlen, Nat.zero_add]; exact hfit)
  refine ⟨t, hexec, ?_, ?_, execAll_encodeText_codePart text hexec⟩
  · rw [henc.outBits, State.outBits_of_empty hempty, List.nil_append]
  · rw [henc.outLen, hlen, Nat.zero_add]

/-! ## Decoding (46_properties.md R183) -/

theorem State.decodeFrom_codePart (s : State) (i : Nat) (bits : List Bool) :
    s.codePart.decodeFrom i bits = s.decodeFrom i bits := by
  induction bits generalizing i with
  | nil => rfl
  | cons b bits ih => simp only [State.decodeFrom, ih]; rfl

/-- Decoding reads the tree alone. -/
theorem State.decodeText_codePart (s : State) (bits : List Bool) : s.codePart.decodeText bits = s.decodeText bits := by
  simp only [State.decodeText, State.decodeFrom_codePart]
  rfl

/-- The decoder follows the branches of a path to a leaf, gives the leaf's symbol and restarts at the root. -/
theorem State.decodeFrom_walk {s : State} {i j : Nat} {bits : List Bool} (hbits : bits ≠ [])
    (hw : s.walk i bits = some j) (hleaf : (s.nodeAt j).tag = false) (rest : List Bool) :
    s.decodeFrom i (bits ++ rest) = (s.nodeAt j).sym :: s.decodeFrom s.rootidx.toNat rest := by
  induction bits generalizing i with
  | nil => exact absurd rfl hbits
  | cons b bits ih =>
    rw [State.walk] at hw
    split at hw
    · rw [List.cons_append, State.decodeFrom]
      by_cases hempty : bits = []
      · subst hempty
        obtain rfl := Option.some.inj hw
        simp [hleaf]
      · have htag : (s.nodeAt (s.child i b)).tag = true := by
          by_contra hnot
          rw [State.walk_leaf (by simpa using hnot) hempty] at hw
          cases hw
        simp only [htag, if_true]
        exact ih hempty hw
    · cases hw

/-- Two symbols or more: the decoder takes the codes apart, since each leads to its leaf. -/
theorem State.Inv.decodeFrom_flatMap {s : State} (hinv : s.Inv) (hp : s.phase = .ready) (hk : 2 ≤ s.leafCount)
    {text : List Symbol} (htext : ∀ c ∈ text, (s.ctAt c).valid = true) :
    s.decodeFrom s.rootidx.toNat (text.flatMap s.codeBits) = text := by
  have htree : s.TreeOk := hinv.treeOk_of_ready hp
  have hcodes := hinv.codes hp
  induction text with
  | nil => rfl
  | cons c text ih =>
    have hvalid := htext c (.head _)
    obtain ⟨i, hi, hwalk, hleaf⟩ := hcodes.exists_leaf hk ((hcodes.valid_iff c).1 hvalid)
    have hne : s.codeBits c ≠ [] := List.ne_nil_of_length_pos (by
      rw [State.codeBits_length]; exact (hinv.entryOk hvalid).len_pos)
    rw [List.flatMap_cons, State.decodeFrom_walk hne hwalk (htree.tag_leaf hi), hleaf,
      ih fun d hd => htext d (.tail _ hd)]
    rfl

/-- Decoding codes of known characters one after the other gives the characters back. -/
theorem State.Inv.decodeText_flatMap {s : State} (hinv : s.Inv) (hp : s.phase = .ready) {text : List Symbol}
    (htext : ∀ c ∈ text, (s.ctAt c).valid = true) : s.decodeText (text.flatMap s.codeBits) = text := by
  have htree : s.TreeOk := hinv.treeOk_of_ready hp
  have hcodes := hinv.codes hp
  have hroot := htree.rootidx
  have hpresent (c : Symbol) (hc : c ∈ text) : c ∈ s.presentSymbols :=
    mem_presentSymbols.2 ((hcodes.valid_iff c).1 (htext c hc))
  unfold State.decodeText
  match hk : s.leafCount with
  | 0 =>
    have hnone : s.presentSymbols = [] := List.length_eq_zero_iff.1 (htree.count.symm.trans hk)
    rw [if_pos (by rw [htree.rootv, hk]; rfl)]
    exact (List.eq_nil_iff_forall_not_mem.2 fun c hc => by simpa [hnone] using hpresent c hc).symm
  | 1 =>
    obtain ⟨x, hx⟩ := htree.presentSymbols_of_one hk
    have hsym : (s.nodeAt s.rootidx.toNat).sym = x := by
      have hzero := (htree.nodeAt_leaf (i := s.rootidx.toNat) (by omega)).1
      rw [hx, hroot, hk] at hzero
      rw [hroot, hk]
      exact (Option.some.inj hzero).symm
    have hone (c : Symbol) (hc : c ∈ text) : (s.codeBits c).map (fun _ => (s.nodeAt s.rootidx.toNat).sym) = [c] := by
      have hcx : c = x := by simpa [hx] using hpresent c hc
      rw [hcodes.codeBits_of_one hk (hpresent c hc), hsym, hcx]
      rfl
    rw [if_neg (by rw [htree.rootv, hk]; simp), if_pos (htree.tag_leaf (by omega)), List.map_flatMap,
      List.flatMap_congr hone, List.flatMap_singleton']
  | k + 2 =>
    have htag := (htree.internals s.rootidx.toNat (by omega) (by omega)).tag
    rw [if_neg (by rw [htree.rootv, hk]; simp), if_neg (by rw [htag]; decide)]
    exact hinv.decodeFrom_flatMap hp (by omega) htext

/-- Settles O56: encoding leaves the codes of the known characters in `OUT` and the tree as it was, and the decoder takes
the codes apart again. -/
theorem decodeRoundTrip : Obligations.DecodeRoundTrip := by
  intro text s hinv hp hempty hfit
  obtain ⟨t, hexec, hbits, -, hcode⟩ := hinv.encode_of_empty hp hempty hfit
  refine ⟨t, hexec, ?_⟩
  rw [hbits, ← t.decodeText_codePart, hcode, s.decodeText_codePart]
  exact hinv.decodeText_flatMap hp fun c hc => (List.mem_filter.1 hc).2

/-! ## The encoded corpus (46_properties.md R188) -/

/-- A text in which each present symbol occurs as often as its count has codes of the total weighted length. -/
theorem State.CodesOk.sum_knownText {s : State} (h : s.CodesOk) {text : List Symbol}
    (hcount : ∀ c ∈ s.presentSymbols, text.count c = (s.freqAt c).toNat) :
    ((s.knownText text).map fun c => (s.ctAt c).len.toNat).sum = s.weightedLength := by
  have hknown (c : Symbol) : c ∈ (s.knownText text).toFinset ↔ c ∈ s.presentSymbols.toFinset := by
    rw [List.mem_toFinset, List.mem_toFinset, State.knownText, List.mem_filter, h.valid_iff, ← mem_presentSymbols]
    refine and_iff_right_of_imp fun hc => List.count_pos_iff.1 ?_
    rw [hcount c hc]
    exact Nat.pos_of_ne_zero fun h0 => mem_presentSymbols.1 hc (BitVec.eq_of_toNat_eq h0)
  rw [Finset.sum_list_map_count, Finset.ext hknown, State.weightedLength,
    ← List.sum_toFinset _ (nodup_presentSymbols s)]
  refine Finset.sum_congr rfl fun c hc => ?_
  have hc := List.mem_toFinset.1 hc
  have hvalid := (h.valid_iff c).2 (mem_presentSymbols.1 hc)
  rw [State.knownText, List.count_filter (p := fun c => (s.ctAt c).valid) hvalid, hcount c hc,
    State.codeBits_length, smul_eq_mul]

/-- Settles O57: `OUT` grows by the lengths of the text's codes, which add up to W. -/
theorem corpusEncodedLength : Obligations.CorpusEncodedLength := by
  intro text s hinv hp hempty hfit hcount
  have hsum := (hinv.codes hp).sum_knownText hcount
  obtain ⟨t, hexec, -, hlen, -⟩ := hinv.encode_of_empty hp hempty (hsum.trans_le hfit)
  exact ⟨t, hexec, hlen.trans hsum⟩

end Sys2Proof.Machine
end

section
/-! PROOFS. Determinism of the construction (46_properties.md R182, O58): the counts and the phase of a good state
determine its tree and its codes. -/

namespace Sys2Proof.Machine

/-! ## The counts determine the tree -/

theorem TreeNode.eq_of_internal {m n : TreeNode} (hm : m.tag = true) (hn : n.tag = true)
    (hweight : m.weight.toNat = n.weight.toNat) (hleft : m.left.toNat = n.left.toNat)
    (hright : m.right.toNat = n.right.toNat) : m = n := by
  match m, n with
  | .leaf .., _ => cases hm
  | .internal .., .leaf .. => cases hn
  | .internal .., .internal .. =>
    rw [TreeNode.internal.injEq]
    exact ⟨BitVec.eq_of_toNat_eq hweight, BitVec.eq_of_toNat_eq hleft, BitVec.eq_of_toNat_eq hright⟩

/-- The order of two nodes depends on their records alone, and it is asymmetric. -/
theorem State.not_precedes_of_precedes {s t : State} {i j : Nat} (hi : t.nodeAt i = s.nodeAt i)
    (hj : t.nodeAt j = s.nodeAt j) (h : precedes s.node i j = true) : ¬ precedes t.node j i = true := by
  have hwi : weightAt t.node i = weightAt s.node i := congrArg (·.weight.toNat) hi
  have hwj : weightAt t.node j = weightAt s.node j := congrArg (·.weight.toNat) hj
  rw [precedes_iff] at h ⊢
  omega

theorem State.presentSymbols_eq {s t : State} (h : ∀ c, t.freqAt c = s.freqAt c) :
    t.presentSymbols = s.presentSymbols := by simp only [State.presentSymbols, h]

section
variable {s t : State} (hs : s.TreeOk) (ht : t.TreeOk) (hfreq : ∀ c, t.freqAt c = s.freqAt c)
include hs ht hfreq

theorem State.TreeOk.leafCount_eq : t.leafCount = s.leafCount := by
  rw [ht.count, hs.count, State.presentSymbols_eq hfreq]

/-- A merge over equal records takes the same two children. -/
theorem State.TreeOk.child_eq {i : Nat} (hi : s.leafCount ≤ i) (hi' : i < 2 * s.leafCount - 1)
    (hbelow : ∀ j < i, t.nodeAt j = s.nodeAt j) (b : Bool) : t.child i b = s.child i b := by
  have hk := State.TreeOk.leafCount_eq hs ht hfreq
  have hit : t.leafCount ≤ i := by omega
  have hit' : i < 2 * t.leafCount - 1 := by omega
  have hwaiting : t.waiting i = s.waiting i := by
    have hchildren : childrenOf t.node t.leafCount i = childrenOf s.node s.leafCount i := by
      rw [hk, childrenOf, childrenOf]
      refine List.flatMap_congr fun j hj => ?_
      have hnode : nodeRead t.node j = nodeRead s.node j := hbelow j (by have := List.mem_range'_1.1 hj; omega)
      rw [hnode]
    rw [State.waiting, State.waiting, hchildren]
  have hchild (b : Bool) := hs.child_mem_waiting hi hi' b
  have hchild' (b : Bool) : t.child i b ∈ s.waiting i := hwaiting ▸ ht.child_mem_waiting hit hit' b
  have hnode {j : Nat} (hj : j ∈ s.waiting i) : t.nodeAt j = s.nodeAt j := hbelow j (State.mem_waiting.1 hj).1
  have hleft : t.child i false = s.child i false := by
    by_contra hne
    exact State.not_precedes_of_precedes (hnode (hchild false)) (hnode (hchild' false))
      (hs.left_precedes hi hi' (hchild' false) hne)
      (ht.left_precedes hit hit' (hwaiting ▸ hchild false) (Ne.symm hne))
  cases b with
  | false => exact hleft
  | true =>
    have hright := (hs.left_ne_right hi hi').symm
    have hright' := (ht.left_ne_right hit hit').symm
    by_contra hne
    exact State.not_precedes_of_precedes (hnode (hchild true)) (hnode (hchild' true))
      (hs.right_precedes hi hi' (hchild' true) (hleft ▸ hright') hne)
      (ht.right_precedes hit hit' (hwaiting ▸ hchild true) (hleft.symm ▸ hright) (Ne.symm hne))

/-- Trees of equal counts have equal nodes. -/
theorem State.TreeOk.nodeAt_eq {i : Nat} (hi : i < 2 * s.leafCount - 1) : t.nodeAt i = s.nodeAt i := by
  have hk := State.TreeOk.leafCount_eq hs ht hfreq
  induction i using Nat.strong_induction_on with
  | _ i ih =>
    rcases Nat.lt_or_ge i s.leafCount with hleaf | hinternal
    · obtain ⟨c, hc, hn⟩ := hs.leaves i hleaf
      obtain ⟨d, hd, hm⟩ := ht.leaves i (by omega)
      rw [State.presentSymbols_eq hfreq, hc] at hd
      rw [hn, hm, hfreq, Option.some.inj hd]
    · have hchild := State.TreeOk.child_eq hs ht hfreq hinternal hi fun j hj => ih j hj (by omega)
      have hsn := hs.internals i hinternal hi
      have htn := ht.internals i (by omega) (by omega)
      have hleft : (t.nodeAt i).left.toNat = (s.nodeAt i).left.toNat := hchild false
      have hright : (t.nodeAt i).right.toNat = (s.nodeAt i).right.toNat := hchild true
      refine TreeNode.eq_of_internal htn.tag hsn.tag ?_ hleft hright
      have hlt := hsn.left_lt
      have hrt := hsn.right_lt
      rw [htn.weight, hsn.weight, hleft, hright, ih _ hlt (by omega), ih _ hrt (by omega)]

/-- The registers of the tree follow from its number of leaves. -/
theorem State.TreeOk.registers_eq :
    t.rootidx = s.rootidx ∧ t.rootv = s.rootv ∧ t.nnodes = s.nnodes ∧ t.nsyms = s.nsyms := by
  have hk := State.TreeOk.leafCount_eq hs ht hfreq
  exact ⟨BitVec.eq_of_toNat_eq (by rw [ht.rootidx, hs.rootidx, hk]), by rw [ht.rootv, hs.rootv, hk],
    BitVec.eq_of_toNat_eq (by rw [ht.nnodes, hs.nnodes, hk]), BitVec.eq_of_toNat_eq hk⟩

/-- Equal trees have equal paths. -/
theorem State.TreeOk.walk_eq {i : Nat} (hi : i < 2 * s.leafCount - 1) (bits : List Bool) :
    t.walk i bits = s.walk i bits := by
  induction bits generalizing i with
  | nil => rfl
  | cons b bits ih =>
    have hnode := State.TreeOk.nodeAt_eq hs ht hfreq hi
    have hchild : t.child i b = s.child i b := by rw [State.child, State.child, hnode]
    rw [State.walk, State.walk, hnode, hchild]
    split
    · next htag =>
      have hlt := hs.child_lt (hs.leafCount_le_of_tag htag) hi b
      exact ih (by omega)
    · rfl

/-! ## The tree determines the codes -/

variable (hsc : s.CodesOk) (htc : t.CodesOk)
include hsc htc

/-- A symbol has the same code in both. -/
theorem State.CodesOk.codeBits_eq {c : Symbol} (hc : s.freqAt c ≠ 0#32) : t.codeBits c = s.codeBits c := by
  have hk := State.TreeOk.leafCount_eq hs ht hfreq
  have hc' : t.freqAt c ≠ 0#32 := hfreq c ▸ hc
  obtain ⟨hroot, -⟩ := State.TreeOk.registers_eq hs ht hfreq
  have hidx := hs.rootidx
  match hn : s.leafCount with
  | 0 =>
    have hnone : s.presentSymbols = [] := List.length_eq_zero_iff.1 (hs.count.symm.trans hn)
    exact absurd (mem_presentSymbols.2 hc) (by rw [hnone]; exact List.not_mem_nil)
  | 1 =>
    rw [hsc.codeBits_of_one hn (mem_presentSymbols.2 hc),
      htc.codeBits_of_one (hk.trans hn) (mem_presentSymbols.2 hc')]
  | k + 2 =>
    obtain ⟨i, hi, hwalk, hleaf⟩ := hsc.exists_leaf (by omega) hc
    obtain ⟨j, hj, hwalk', hleaf'⟩ := htc.exists_leaf (by omega) hc'
    rw [State.TreeOk.nodeAt_eq hs ht hfreq (by omega)] at hleaf'
    rw [hroot, State.TreeOk.walk_eq hs ht hfreq (by omega), hs.leaf_unique (by omega) hi hleaf' hleaf] at hwalk'
    exact hs.walk_inj (by omega) hwalk' hwalk

end

/-- A block beyond the record reads 0. -/
theorem Memory.read_of_wf_le {m : Memory} {n b : Nat} (h : Memory.wf n m) (hb : n ≤ b) : Memory.read m b = 0x00#8 :=
  Table.read_of_not_mem fun e he => ((h.2 e he).trans_le hb).ne

/-- Two records with the same bits and zeros beyond them are equal, their blocks being in canonical form. -/
theorem CodeEntry.eq_of_bits_eq {d e : CodeEntry} (hd : Memory.wf Config.codeBlocks d.blk)
    (he : Memory.wf Config.codeBlocks e.blk) (hvalid : d.valid = e.valid) (hbits : d.bits = e.bits)
    (hdtail : ∀ r < Config.codemax, d.len.toNat ≤ r → Memory.bit d.blk r = false)
    (hetail : ∀ r < Config.codemax, e.len.toNat ≤ r → Memory.bit e.blk r = false) : d = e := by
  have hlen : d.len.toNat = e.len.toNat := by rw [← d.bits_length, ← e.bits_length, hbits]
  have hbit (r : Nat) (hr : r < Config.codemax) : Memory.bit d.blk r = Memory.bit e.blk r := by
    rcases Nat.lt_or_ge r d.len.toNat with hin | hout
    · have hget := d.bits_getElem? hin
      rw [hbits, e.bits_getElem? (hlen ▸ hin)] at hget
      exact (Option.some.inj hget).symm
    · rw [hdtail r hr hout, hetail r hr (hlen ▸ hout)]
  have hread (b : Nat) : Memory.read d.blk b = Memory.read e.blk b := by
    rcases Nat.lt_or_ge b Config.codeBlocks with hin | hout
    · refine Memory.read_eq_of_bit fun j hj => hbit _ ?_
      simp only [Config.codeBlocks, Config.codemax] at hin ⊢
      omega
    · rw [Memory.read_of_wf_le hd hout, Memory.read_of_wf_le he hout]
  have hblk : d.blk = e.blk := Table.ext_of_read hd.1 he.1 hread
  cases d
  cases e
  rw [CodeEntry.mk.injEq]
  exact ⟨hvalid, BitVec.eq_of_toNat_eq hlen, hblk⟩

/-! ## Good states of equal counts and phase -/

/-- Two good states in the same phase with the same counts. -/
structure State.Alike (s t : State) : Prop where
  left : s.Inv
  right : t.Inv
  phase : t.phase = s.phase
  freqAt : ∀ c, t.freqAt c = s.freqAt c

/-- Alike states have the same valid entries, and the same record in each. -/
theorem State.Alike.ctAt_eq {s t : State} (h : s.Alike t) (c : Symbol) :
    (t.ctAt c).valid = (s.ctAt c).valid ∧ ((s.ctAt c).valid = true → t.ctAt c = s.ctAt c) := by
  obtain ⟨hs, ht, hphase, hfreq⟩ := h
  by_cases hp : s.phase = .ready
  · have hsc := hs.codes hp
    have htc := ht.codes (hphase.trans hp)
    have hvalid : (t.ctAt c).valid = (s.ctAt c).valid := by
      rw [Bool.eq_iff_iff, hsc.valid_iff, htc.valid_iff, hfreq]
    refine ⟨hvalid, fun hv => ?_⟩
    have hbits := State.CodesOk.codeBits_eq (hs.treeOk_of_ready hp) (ht.treeOk_of_ready (hphase.trans hp)) hfreq hsc htc
      ((hsc.valid_iff c).1 hv)
    exact CodeEntry.eq_of_bits_eq (ctRead_blk ht.memories.ctBlk _) (ctRead_blk hs.memories.ctBlk _) hvalid hbits
      (htc.entries c (hvalid.trans hv)).tail_zero (hsc.entries c hv).tail_zero
  · rw [hs.noCodes hp c, ht.noCodes (hphase ▸ hp) c]
    exact ⟨rfl, nofun⟩

/-- Alike states have the same tree. -/
theorem State.Alike.tree_eq {s t : State} (h : s.Alike t) :
    (t.rootidx = s.rootidx ∧ t.rootv = s.rootv ∧ t.nnodes = s.nnodes ∧ t.nsyms = s.nsyms) ∧
      ∀ i < s.nnodes.toNat, t.nodeAt i = s.nodeAt i := by
  obtain ⟨hs, ht, hphase, hfreq⟩ := h
  by_cases hp : s.phase = .collect
  · have hsn := hs.noTree hp
    have htn := ht.noTree (hphase.trans hp)
    refine ⟨⟨htn.rootidx.trans hsn.rootidx.symm, htn.rootv.trans hsn.rootv.symm, htn.nnodes.trans hsn.nnodes.symm,
      htn.nsyms.trans hsn.nsyms.symm⟩, fun i hi => ?_⟩
    rw [hsn.nnodes] at hi
    exact absurd hi (Nat.not_lt_zero i)
  · have hst := hs.tree hp
    have htt := ht.tree (hphase ▸ hp)
    exact ⟨State.TreeOk.registers_eq hst htt hfreq, fun i hi => State.TreeOk.nodeAt_eq hst htt hfreq (hst.nnodes ▸ hi)⟩

theorem State.Inv.exec {i : Instr} {s t : State} (hs : s.Inv) (h : Machine.exec i s = .next t) : t.Inv := by
  obtain ⟨u, hupdate, hanswered⟩ := exec_cases h
  exact (hupdate.inv hs).of_sameEngine hanswered.sameEngine

/-- BUILD and GEN read the counts and leave them. -/
theorem freq_eq_of_construct {i : Instr} (hi : i ∈ construct) {s t : State} (h : exec i s = .next t) :
    t.freq = s.freq := by
  rcases List.mem_pair.1 hi with rfl | rfl
  · rcases execBuild_cases h with ⟨_, rfl⟩ | ⟨_, _, rfl⟩ | ⟨_, _, _, rfl⟩ | ⟨_, _, _, rfl⟩ | ⟨_, _, _, rfl⟩ <;> rfl
  · rcases execGen_cases h with ⟨_, rfl⟩ | ⟨_, rfl⟩ <;> rfl

/-- BUILD and GEN keep alike states alike: how they move the phase depends on the phase and on the total alone. -/
theorem State.Alike.exec {s t s' : State} (h : s.Alike t) {i : Instr} (hi : i ∈ construct)
    (hexec : Machine.exec i s = .next s') : ∃ t', Machine.exec i t = .next t' ∧ s'.Alike t' := by
  obtain ⟨t', hexec'⟩ := exec_answers i t
  refine ⟨t', hexec', h.left.exec hexec, h.right.exec hexec', ?_, fun c => ?_⟩
  · have htotal : t.freqTotal = s.freqTotal := by simp only [State.freqTotal, h.freqAt]
    have hphase : s'.phase = s.phaseAfter i := (lifeCycle i s s' hexec).2
    have hphase' : t'.phase = t.phaseAfter i := (lifeCycle i t t' hexec').2
    rw [hphase, hphase']
    rcases List.mem_pair.1 hi with rfl | rfl
    · simp only [State.phaseAfter, h.phase, htotal]
    · simp only [State.phaseAfter, h.phase]
  · rw [State.freqAt, freq_eq_of_construct hi hexec', State.freqAt, freq_eq_of_construct hi hexec]
    exact h.freqAt c

/-- Settles O58: BUILD and GEN lead alike states to alike states, which have the same tree and the same codes. -/
theorem constructionDeterministic : Obligations.ConstructionDeterministic := by
  intro s t s' hs ht hps hpt hfreq hconstruct
  have halike : s.Alike t := ⟨hs, ht, hpt.trans hps.symm, fun c => (hfreq c).symm⟩
  obtain ⟨u, hbuild⟩ := exec_answers .build s
  have hgen : exec .gen u = .next s' := by
    obtain ⟨v, hv⟩ := exec_answers .gen u
    rw [construct, execAll_cons_of_next hbuild, execAll_cons_of_next hv] at hconstruct
    exact hv.trans hconstruct
  obtain ⟨v, hbuild', halike⟩ := halike.exec (by simp [construct]) hbuild
  obtain ⟨t', hgen', halike⟩ := halike.exec (by simp [construct]) hgen
  obtain ⟨⟨hrootidx, hrootv, hnnodes, hnsyms⟩, hnode⟩ := halike.tree_eq
  exact ⟨t', (execAll_cons_of_next hbuild').trans (execAll_cons_of_next hgen'), hrootidx, hrootv, hnnodes, hnsyms,
    halike.phase, hnode, halike.ctAt_eq⟩

end Sys2Proof.Machine
end

section
/-! PROOFS. Errors (60_exceptions.md): an error changes nothing else (O10), and a command outside its phase is PhaseError
(O11). -/

namespace Sys2Proof.Machine

/-- The delivery of an error, every write of it (60_exceptions.md R205). -/
theorem State.deliver_of_isError {c : Condition} (h : c.isError = true) (s : State) (d : Word) :
    s.deliver c d = { s with
      ill := s.ill || decide (c = .illegalCommand)
      pherr := s.pherr || decide (c = .phaseError)
      wovf := s.wovf || decide (c = .weightOverflow)
      oovf := s.oovf || decide (c = .outputOverflow)
      lasterr := c
      resp := some ⟨c, d⟩ } := by
  rw [State.deliver, markCondition_of_isError h]

/-- Settles O10: of the three ways a command ends, only the delivery of an error in the state before it responds with an
error's code. -/
theorem errorChangesNothingElse : Obligations.ErrorChangesNothingElse := by
  intro i s t r hexec hresp herr
  cases exec_completion hexec with
  | respond u d _ => cases hresp; cases herr
  | error c hc => cases hresp; exact State.deliver_of_isError hc s 0#64
  | warning c u d _ hc => cases hresp; exact nomatch hc.symm.trans herr

/-- Settles O11: a forbidden command raises PhaseError, whose flag is `PHERR`. -/
theorem phaseErrorOutsidePhase : Obligations.PhaseErrorOutsidePhase := fun _ _ h => exec_of_forbidden h

end Sys2Proof.Machine
end

section
/-! PROOFS. Contents the spec leaves unspecified (70_reset_and_hazards.md R232, O59): two states that agree but for them
answer every step alike. -/

namespace Sys2Proof.Machine

/-! ## What agreeing states read alike -/

/-- Code tables with the same valid records: what `Agree` asks of `CT`. -/
def CtAgree (ct ct' : Table CodeEntry) : Prop :=
  ∀ sym, (ctRead ct' sym).valid = (ctRead ct sym).valid ∧
    ((ctRead ct sym).valid = true → ctRead ct' sym = ctRead ct sym)

theorem ctAgree_invalidateCt (ct ct' : Table CodeEntry) : CtAgree (invalidateCt ct) (invalidateCt ct') := fun sym => by
  rw [ctRead_invalidateCt_valid, ctRead_invalidateCt_valid]; exact ⟨rfl, nofun⟩

theorem CtAgree.ctWrite {ct ct' : Table CodeEntry} (h : CtAgree ct ct') (sym : Symbol) (e : CodeEntry) :
    CtAgree (Machine.ctWrite ct sym e) (Machine.ctWrite ct' sym e) := fun c => by
  rw [ctRead_ctWrite, ctRead_ctWrite]
  split
  · exact ⟨rfl, fun _ => rfl⟩
  · exact h c

theorem State.Agree.refl (s : State) : s.Agree s := ⟨rfl, fun _ _ => rfl, fun _ => rfl, fun _ _ => rfl⟩

/-- With no node allocated and no valid record, all of `NODE` and `CT` is masked. -/
theorem State.agree_of_all_masked {s t : State} (hrest : t = { s with node := t.node, ct := t.ct })
    (hn : s.nnodes = 0#10) (hs : s.NoCodes) (ht : t.NoCodes) : s.Agree t where
  rest := hrest
  node i hi := by rw [hn] at hi; exact absurd hi (Nat.not_lt_zero i)
  valid sym := by rw [hs, ht]
  entry sym hv := by rw [hs] at hv; cases hv

section
variable {s t : State} (h : s.Agree t)
include h

theorem State.Agree.exists_masked : ∃ node ct, t = { s with node := node, ct := ct } := ⟨_, _, h.rest⟩

theorem State.Agree.ct : CtAgree s.ct t.ct := fun sym => ⟨h.valid sym, h.entry sym⟩

theorem State.Agree.phase : t.phase = s.phase := (congrArg State.phase h.rest :)

theorem State.Agree.host : t.host = s.host := (congrArg State.host h.rest :)

theorem State.Agree.outLen : t.outLen = s.outLen := (congrArg State.outLen h.rest :)

theorem State.Agree.nnodes : t.nnodes = s.nnodes := (congrArg State.nnodes h.rest :)

theorem State.Agree.freqAt (c : Symbol) : t.freqAt c = s.freqAt c := (congrArg (State.freqAt · c) h.rest :)

theorem State.Agree.freqTotal : t.freqTotal = s.freqTotal := (congrArg State.freqTotal h.rest :)

theorem State.Agree.createLeaves_next : (createLeaves t).next = (createLeaves s).next := by
  rw [Machine.createLeaves_next, Machine.createLeaves_next, State.presentSymbols_eq h.freqAt]

theorem State.Agree.statusreg (r : StatusReg) : t.statusreg r = s.statusreg r := by
  cases r <;> exact (congrArg (State.statusreg · _) h.rest :)

/-- No read looks at masked contents: RDNODE answers 0 from `NNODES` on, RDLEN and RDCODE for a record that is not valid
(42_treebuilder.md R129; 43_codegen.md R146, R147). -/
theorem State.Agree.readData (i : Instr) : t.readData i = s.readData i := by
  cases i with
  | rdnode n =>
    show t.nodeData n.toNat = s.nodeData n.toNat
    rcases Nat.lt_or_ge n.toNat s.nnodes.toNat with hlt | hge
    · rw [State.nodeData_of_lt_nnodes hlt, State.nodeData_of_lt_nnodes (h.nnodes ▸ hlt), h.node _ hlt]
    · rw [State.nodeData_of_nnodes_le hge, State.nodeData_of_nnodes_le (h.nnodes ▸ hge)]
  | rdlen sym =>
    show (t.ctAt sym).lenData = (s.ctAt sym).lenData
    cases hv : (s.ctAt sym).valid with
    | false => rw [CodeEntry.lenData_of_not_valid hv, CodeEntry.lenData_of_not_valid ((h.valid sym).trans hv)]
    | true => rw [h.entry sym hv]
  | rdcode sym b =>
    show zext64 ((t.ctAt sym).block b.toNat) = zext64 ((s.ctAt sym).block b.toNat)
    cases hv : (s.ctAt sym).valid with
    | false => rw [CodeEntry.block_outside (.inl hv), CodeEntry.block_outside (.inl ((h.valid sym).trans hv))]
    | true => rw [h.entry sym hv]
  | rdstat n => simp only [State.readData, h.statusreg]
  | rdfreq sym => exact congrArg zext64 (h.freqAt sym)
  | test _ | rdout _ => exact (congrArg (State.readData · _) h.rest :)
  | nop | clrall | clrout | clrerr | feed _ | setf _ _ | build | gen | enc _ => rfl

end

/-! ## Updates that keep agreement -/

theorem State.noCodes_clearAll (s : State) : s.clearAll.NoCodes := fun c => s.valid_clearAll c

/-- An update of the rest of the state: it neither reads nor writes `NODE` and `CT`, and it keeps `NNODES`. -/
structure IgnoresMasked (f : State → State) : Prop where
  comm : ∀ (s : State) (m : Table TreeNode) (c : Table CodeEntry),
    f { s with node := m, ct := c } = { f s with node := m, ct := c }
  nnodes : ∀ s, (f s).nnodes = s.nnodes

/-- An update of the rest keeps agreement. -/
theorem IgnoresMasked.agree {f : State → State} (hf : IgnoresMasked f) {s t : State} (h : s.Agree t) :
    (f s).Agree (f t) := by
  have hnode (s : State) : (f s).node = s.node := (congrArg State.node (hf.comm s s.node s.ct) :)
  have hct (s : State) : (f s).ct = s.ct := (congrArg State.ct (hf.comm s s.node s.ct) :)
  refine ⟨?_, fun i hi => ?_, fun sym => ?_, fun sym hv => ?_⟩
  · rw [hnode t, hct t, ← hf.comm]; exact congrArg f h.rest
  · rw [State.nodeAt, State.nodeAt, hnode, hnode]; exact h.node i (hf.nnodes s ▸ hi)
  · rw [State.ctAt, State.ctAt, hct, hct]; exact h.valid sym
  · rw [State.ctAt, hct] at hv; rw [State.ctAt, State.ctAt, hct, hct]; exact h.entry sym hv

section
variable {s t : State} (h : s.Agree t)
include h

theorem State.Agree.respond {d d' : Word} (hd : d' = d) : (s.respond d).Agree (t.respond d') :=
  hd ▸ IgnoresMasked.agree (f := State.respond d') ⟨fun _ _ _ => rfl, fun _ => rfl⟩ h

theorem State.Agree.deliver (c : Condition) (d : Word) : (s.deliver c d).Agree (t.deliver c d) :=
  IgnoresMasked.agree ⟨fun _ _ _ => by cases c <;> rfl, fun _ => State.deliver_nnodes ..⟩ h

theorem State.Agree.taken (rest : List HostInput) : { s with host := rest }.Agree { t with host := rest } :=
  IgnoresMasked.agree (f := fun s => { s with host := rest }) ⟨fun _ _ _ => rfl, fun _ => rfl⟩ h

theorem State.Agree.setFreq (sym : Symbol) {v v' : Weight} (hv : v' = v) : (s.setFreq sym v).Agree (t.setFreq sym v') :=
  hv ▸ IgnoresMasked.agree (f := fun s => s.setFreq sym v') ⟨fun _ _ _ => rfl, fun _ => rfl⟩ h

theorem State.Agree.clearConditions : s.clearConditions.Agree t.clearConditions :=
  IgnoresMasked.agree (f := State.clearConditions) ⟨fun _ _ _ => rfl, fun _ => rfl⟩ h

theorem State.Agree.clearOut : s.clearOut.Agree t.clearOut :=
  IgnoresMasked.agree (f := State.clearOut) ⟨fun _ _ _ => rfl, fun _ => rfl⟩ h

theorem State.Agree.appendOut (bits : List Bool) : (s.appendOut bits).Agree (t.appendOut bits) :=
  IgnoresMasked.agree (f := fun s => s.appendOut bits) ⟨fun _ _ _ => rfl, fun _ => rfl⟩ h

/-- CLRALL masks everything. -/
theorem State.Agree.clearAll : s.clearAll.Agree t.clearAll := by
  refine State.agree_of_all_masked ?_ s.clearAll_nnodes s.noCodes_clearAll t.noCodes_clearAll
  obtain ⟨node, ct, rfl⟩ := h.exists_masked
  simp only [State.clearAll_eq]

/-- BUILD builds the tree of the counts, whatever the node memory held; it writes nothing else that is masked. -/
theorem State.Agree.buildTree (ht : s.freqTotal ≤ Config.wmax) : s.buildTree.Agree t.buildTree := by
  have ht' : t.freqTotal ≤ Config.wmax := h.freqTotal.trans_le ht
  have htree := State.buildTree_treeOk ht
  refine ⟨?_, fun i hi => ?_, h.valid, h.entry⟩
  · obtain ⟨node, ct, rfl⟩ := h.exists_masked
    have hregs := State.buildTree_registers ht'
    rw [State.presentSymbols_eq h.freqAt] at hregs
    exact hregs.trans (by rw [State.buildTree_registers ht]; rfl)
  · exact State.TreeOk.nodeAt_eq htree (State.buildTree_treeOk ht') h.freqAt (htree.nnodes ▸ hi)

end

/-! ## GEN's traversal sees allocated nodes only (43_codegen.md R141, R142) -/

/-- Traversals in step: the same queue of nodes below `n`, the same count, and code tables with the same valid records. -/
structure GenCtx.Agree (n : Nat) (g g' : GenCtx) : Prop where
  bfsq : g'.bfsq = g.bfsq
  cnt : g'.cnt = g.cnt
  ct : CtAgree g.ct g'.ct
  allocated : ∀ q ∈ g.bfsq, q.1 < n

/-- The children of an allocated internal node are allocated. -/
theorem State.TreeOk.children_allocated {s : State} (h : s.TreeOk) {i : Nat} {w : Weight} {l r : NodeIdx}
    (hi : i < s.nnodes.toNat) (hn : s.nodeAt i = .internal w l r) :
    l.toNat < s.nnodes.toNat ∧ r.toNat < s.nnodes.toNat := by
  have hok := h.internals i (h.leafCount_le_of_tag (by rw [hn]; rfl)) (h.nnodes ▸ hi)
  have hleft := hok.left_lt
  have hright := hok.right_lt
  rw [hn] at hleft hright
  exact ⟨hleft.trans hi, hright.trans hi⟩

section
variable {s t : State} (h : s.Agree t) (htree : s.TreeOk)
include h htree

theorem GenCtx.Agree.visitStep {g g' : GenCtx} (hg : g.Agree s.nnodes.toNat g') :
    (Machine.visitStep s.node g).Agree s.nnodes.toNat (Machine.visitStep t.node g') := by
  obtain ⟨ct, queue, cnt⟩ := g
  obtain ⟨ct', queue', cnt'⟩ := g'
  obtain ⟨hqueue, hcnt, hct, halloc⟩ := hg
  cases hqueue
  cases hcnt
  cases queue with
  | nil => exact ⟨rfl, rfl, hct, halloc⟩
  | cons front rest =>
    obtain ⟨i, c⟩ := front
    have hi : i < s.nnodes.toNat := halloc _ (List.mem_cons_self ..)
    have hrest : ∀ q ∈ rest, q.1 < s.nnodes.toNat := fun q hq => halloc q (List.mem_cons_of_mem _ hq)
    have hnode : nodeRead t.node i = nodeRead s.node i := h.node i hi
    cases hn : nodeRead s.node i with
    | leaf sym w =>
      simp only [Machine.visitStep, hnode, hn]
      exact ⟨rfl, rfl, hct.ctWrite sym c.toEntry, hrest⟩
    | internal w l r =>
      have ⟨hl, hr⟩ := htree.children_allocated hi hn
      simp only [Machine.visitStep, hnode, hn]
      refine ⟨rfl, rfl, hct, fun q hq => ?_⟩
      rcases List.mem_append.1 hq with hq | hq
      · exact hrest q hq
      · rcases List.mem_pair.1 hq with rfl | rfl
        · exact hl
        · exact hr

theorem GenCtx.Agree.visitLoop (fuel : Nat) {g g' : GenCtx} (hg : g.Agree s.nnodes.toNat g') :
    (Machine.visitLoop s.node fuel g).Agree s.nnodes.toNat (Machine.visitLoop t.node fuel g') := by
  induction fuel generalizing g g' with
  | zero => exact hg
  | succ fuel ih =>
    rw [Machine.visitLoop, Machine.visitLoop, hg.bfsq]
    split
    · exact hg
    · exact ih (GenCtx.Agree.visitStep h htree hg)

theorem State.Agree.traverse : s.traverse.Agree s.nnodes.toNat t.traverse := by
  have hrootv : t.rootv = s.rootv := (congrArg State.rootv h.rest :)
  have hrootidx : t.rootidx = s.rootidx := (congrArg State.rootidx h.rest :)
  have hct := ctAgree_invalidateCt s.ct t.ct
  cases hr : s.rootv with
  | false =>
    rw [State.traverse_of_no_root hr, State.traverse_of_no_root (hrootv.trans hr)]
    generalize invalidateCt s.ct = ct, invalidateCt t.ct = ct' at hct ⊢
    exact ⟨rfl, rfl, hct, nofun⟩
  | true =>
    have hroot : s.rootidx.toNat < s.nnodes.toNat := by
      have hk : 1 ≤ s.leafCount := of_decide_eq_true (htree.rootv.symm.trans hr)
      rw [htree.rootidx, htree.nnodes]
      omega
    have hnode : t.nodeAt t.rootidx.toNat = s.nodeAt s.rootidx.toNat := by rw [hrootidx, h.node _ hroot]
    cases hn : s.nodeAt s.rootidx.toNat with
    | leaf sym w =>
      rw [State.traverse_of_leaf hr hn, State.traverse_of_leaf (hrootv.trans hr) (hnode.trans hn)]
      generalize invalidateCt s.ct = ct, invalidateCt t.ct = ct' at hct ⊢
      exact ⟨rfl, rfl, hct.ctWrite sym (Code.empty.append false).toEntry, nofun⟩
    | internal w l r =>
      rw [State.traverse_of_internal hr hn, State.traverse_of_internal (hrootv.trans hr) (hnode.trans hn), hrootidx]
      generalize invalidateCt s.ct = ct, invalidateCt t.ct = ct' at hct ⊢
      exact GenCtx.Agree.visitLoop h htree _ ⟨rfl, rfl, hct, fun q hq => List.mem_singleton.1 hq ▸ hroot⟩

theorem State.Agree.genTable : s.genTable.Agree t.genTable := by
  have hg := h.traverse htree
  refine ⟨?_, h.node, fun sym => (hg.ct sym).1, fun sym => (hg.ct sym).2⟩
  obtain ⟨node, ct, rfl⟩ := h.exists_masked
  simp only [State.genTable, hg.bfsq]

end

/-! ## Every step keeps agreement -/

/-- Two outcomes that are next states, and agree. -/
def AgreeNext (r r' : Result) : Prop := ∃ s t, r = .next s ∧ r' = .next t ∧ s.Agree t

theorem State.Agree.next {s t : State} (h : s.Agree t) : AgreeNext (.next s) (.next t) := ⟨s, t, rfl, rfl, h⟩

theorem AgreeNext.ite {c c' : Prop} [Decidable c] [Decidable c'] {a b a' b' : Result} (hc : c' ↔ c)
    (ha : c → AgreeNext a a') (hb : ¬ c → AgreeNext b b') :
    AgreeNext (if c then a else b) (if c' then a' else b') := by
  by_cases h : c
  · rw [if_pos h, if_pos (hc.2 h)]; exact ha h
  · rw [if_neg h, if_neg (mt hc.1 h)]; exact hb h

section
variable {s t : State} (h : s.Agree t)
include h

/-- A condition is delivered alike, an error or a warning. -/
theorem State.Agree.raise (c : Condition) (d : Word) : AgreeNext (.next (s.deliver c d)) (.next (t.deliver c d)) :=
  (h.deliver c d).next

/-- A read answers alike. -/
theorem State.Agree.read (i : Instr) :
    AgreeNext (.next (s.respond (s.readData i))) (.next (t.respond (t.readData i))) := (h.respond (h.readData i)).next

/-- The phase condition is tested alike. -/
theorem AgreeNext.inPhase {p : Phase} {k : State → Result} (hk : s.phase = p → AgreeNext (k s) (k t)) :
    AgreeNext (Machine.inPhase p s k) (Machine.inPhase p t k) :=
  .ite (by rw [h.phase]) hk fun _ => h.raise .phaseError 0#64

theorem State.Agree.execFeed (sym : Symbol) : AgreeNext (Machine.execFeed sym s) (Machine.execFeed sym t) := by
  have hfreq := h.freqAt sym
  refine .inPhase h fun _ => .ite (by rw [hfreq]) (fun _ => h.raise ..) fun _ => ?_
  exact ((h.setFreq sym (by rw [hfreq])).respond rfl).next

theorem State.Agree.execSetf (sym : Symbol) (count : Imm) :
    AgreeNext (Machine.execSetf sym count s) (Machine.execSetf sym count t) :=
  .inPhase h fun _ => ((h.setFreq sym rfl).respond rfl).next

/-- BUILD tests the total and the number of leaves, which the counts fix. -/
theorem State.Agree.execBuild : AgreeNext (Machine.execBuild s) (Machine.execBuild t) := by
  have hk := h.createLeaves_next
  refine .inPhase h fun _ => .ite (by rw [h.freqTotal]) (fun _ => h.raise ..) fun ht => ?_
  have hbuilt := h.buildTree (Nat.le_of_not_lt ht)
  refine .ite (by rw [hk]) (fun _ => hbuilt.raise ..) fun _ => .ite (by rw [hk]) (fun _ => hbuilt.raise ..) fun _ => ?_
  exact (hbuilt.respond (by rw [hk])).next

/-- GEN's traversal is confined to the tree of a good state. -/
theorem State.Agree.execGen (hs : s.Inv) : AgreeNext (Machine.execGen s) (Machine.execGen t) := by
  refine .inPhase h fun hp => ?_
  have htree := hs.tree (by rw [hp]; decide)
  exact ((h.genTable htree).respond (congrArg countData (h.traverse htree).cnt)).next

/-- ENC reads `len` and `blk` of a valid record only. -/
theorem State.Agree.execEnc (sym : Symbol) : AgreeNext (Machine.execEnc sym s) (Machine.execEnc sym t) := by
  refine .inPhase h fun _ => .ite (by rw [h.valid]) (fun _ => h.raise ..) fun hv => ?_
  rw [h.entry sym (by simpa using hv)]
  exact .ite (by rw [h.outLen]) (fun _ => h.raise ..) fun _ => ((h.appendOut _).respond rfl).next

theorem State.Agree.execRdstat (n : Imm) : AgreeNext (Machine.execRdstat n s) (Machine.execRdstat n t) := by
  rcases Nat.lt_or_ge 8 n.toNat with hgt | hle
  · simp only [Machine.execRdstat, StatusReg.ofNumber_of_gt hgt]
    exact h.raise ..
  · obtain ⟨r, hr⟩ := StatusReg.ofNumber_of_le hle
    simp only [Machine.execRdstat, hr]
    exact (h.respond (by rw [h.statusreg])).next

/-- Every command keeps agreement. -/
theorem State.Agree.exec (hs : s.Inv) (i : Instr) : AgreeNext (Machine.exec i s) (Machine.exec i t) := by
  cases i with
  | nop => exact (h.respond rfl).next
  | clrall => exact (h.clearAll.respond rfl).next
  | clrout => exact (h.clearOut.respond rfl).next
  | clrerr => exact (h.clearConditions.respond rfl).next
  | feed sym => exact h.execFeed sym
  | setf sym count => exact h.execSetf sym count
  | build => exact h.execBuild
  | gen => exact h.execGen hs
  | enc sym => exact h.execEnc sym
  | rdstat n => exact h.execRdstat n
  | rdfreq sym => exact h.read (.rdfreq sym)
  | rdnode n => exact h.read (.rdnode n)
  | rdlen sym => exact h.read (.rdlen sym)
  | rdcode sym b => exact h.read (.rdcode sym b)
  | test r => exact h.read (.test r)
  | rdout b => exact h.read (.rdout b)

end

theorem step_of_idle {s : State} (h : s.host = []) : step s = .next s := by simp [step, serveHost, h]

/-- A reset event gives the reset state, with what the host does next. -/
theorem step_of_reset {s : State} {rest : List HostInput} (h : s.host = .reset :: rest) :
    step s = .next { State.reset with host := rest } := by
  simp [step, serveHost, h, State.resetEvent]

theorem State.Agree.step {s t : State} (h : s.Agree t) (hs : s.Inv) : AgreeNext (Machine.step s) (Machine.step t) := by
  match hhost : s.host with
  | [] => rw [step_of_idle hhost, step_of_idle (h.host.trans hhost)]; exact h.next
  | .reset :: rest =>
    rw [step_of_reset hhost, step_of_reset (h.host.trans hhost)]; exact (State.Agree.refl _).next
  | .command w :: rest =>
    rw [step_of_command hhost, step_of_command (h.host.trans hhost)]
    match hdec : decode w with
    | .ok i =>
      rw [issue_of_ok hdec, issue_of_ok hdec]
      exact (h.taken rest).exec (hs.of_sameEngine rfl) i
    | .error e =>
      rw [issue_of_error hdec, issue_of_error hdec]
      exact (h.taken rest).raise ..

/-- Settles O59: every step answers agreeing states with agreeing states; `FREQ` and `OUT.blk` list nothing after reset. -/
theorem unspecifiedContentsUnobservable : Obligations.UnspecifiedContentsUnobservable := by
  refine ⟨fun s t s' hs h hstep => ?_, fun _ => rfl, fun _ => rfl⟩
  obtain ⟨u, t', hu, ht', hagree⟩ := h.step hs
  rw [hu] at hstep
  cases hstep
  exact ⟨t', ht', hagree⟩

end Sys2Proof.Machine
end

section
/-! PROOFS. Reset (70_reset_and_hazards.md): the idle step and the ports (O6), the reset values (O7), the reset state is
good (O48), and CLRALL with CLRERR is reset (O60). -/

namespace Sys2Proof.Machine

/-- Settles O6: an idle step answers the state itself, a reset event the reset state with the rest of the host's inputs. -/
theorem idleAndResetPorts : Obligations.IdleAndResetPorts :=
  ⟨fun _ => step_of_idle, fun _ _ h => ⟨_, step_of_reset h, rfl, rfl⟩⟩

/-- Settles O7: a reset event answers the reset state, whose values are those of R44. -/
theorem resetEventValues : Obligations.ResetEventValues := by
  intro s rest h
  have hcfg : State.reset.statusreg .cfg = 0x10082008#32 := by decide
  have hroot : State.reset.statusreg .root = 0#32 := by decide
  have hstatus : State.reset.statusreg .status = 0#32 := by decide
  exact ⟨_, step_of_reset h, rfl, rfl, rfl, rfl, rfl, rfl, rfl, rfl, rfl, rfl, rfl, rfl, rfl, rfl, fun _ => rfl,
    fun _ => rfl, rfl, rfl, fun _ => rfl, rfl, rfl, hcfg, hstatus, hroot, rfl, rfl, rfl, rfl, rfl, rfl⟩

/-- Settles O48: the memories list nothing, `OUT` is fresh, and COLLECT has no tree and no codes. -/
theorem resetIsGood : Obligations.ResetIsGood := State.inv_reset

/-! ## CLRALL and CLRERR (70_reset_and_hazards.md R234) -/

/-- CLRALL is reset but for the record of past conditions, masked contents and the ports. -/
theorem State.agree_clearAll {s : State} (h : s.TransientEmpty) :
    State.Agree { State.reset with
      ill := s.ill, pherr := s.pherr, wovf := s.wovf, oovf := s.oovf, unk := s.unk, unkcnt := s.unkcnt
      lasterr := s.lasterr, resp := s.resp, host := s.host } s.clearAll := by
  refine State.agree_of_all_masked ?_ rfl (fun _ => rfl) s.noCodes_clearAll
  simp only [State.clearAll_eq, h.pq, h.bfsq, State.reset]

/-- Sequences of commands keep agreement (20_memory.md R59). -/
theorem State.Agree.execAll {s t : State} (h : s.Agree t) (hs : s.Inv) (cmds : List Instr) :
    AgreeNext (Machine.execAll cmds s) (Machine.execAll cmds t) := by
  induction cmds generalizing s t with
  | nil => exact h.next
  | cons i cmds ih =>
    obtain ⟨s', t', hexec, hexec', h'⟩ := h.exec hs i
    rw [execAll_cons_of_next hexec, execAll_cons_of_next hexec']
    exact ih h' (hs.exec hexec)

/-- Settles O60: CLRALL gives a state that agrees with reset but for what CLRERR clears, and commands keep agreement. -/
theorem clrallClrerrIsReset : Obligations.ClrallClrerrIsReset := by
  intro s htransient
  have hclrall := (State.agree_clearAll htransient).respond (d := 0#64) rfl
  refine ⟨⟨_, rfl, hclrall⟩, fun cmds u hu => ?_⟩
  have hclrerr := hclrall.clearConditions.respond (d := 0#64) rfl
  obtain ⟨u', t, hreset, hcleared, hagree⟩ := hclrerr.execAll (State.inv_reset.of_sameEngine rfl) cmds
  have hsame : u' = u := Host.Outcome.next.inj (hreset.symm.trans hu)
  exact ⟨t, hcleared, hsame ▸ hagree⟩

end Sys2Proof.Machine
end
